-- ==== Sys2Proof/Word.lean ====
section
/-! DEFINITION. The word type of DSPB: every register, operand and memory word is 32 bits wide
(spec 10_state.md R33, 20_memory.md R83). -/

namespace Sys2Proof

/-- A 32-bit word (00_scope.md R10): a CSR, a DMEM, ring or reverb word, a command word, or the
pattern of a binary32 value. -/
abbrev Word := BitVec 32

/-- One byte of a word, as a byte-addressed host or the device byte stream sees it (20_memory.md R82, R98). -/
abbrev Byte := BitVec 8

end Sys2Proof
end

