-- ==== Sys2Proof/Config.lean ====
section
/-! DEFINITION. What a configuration of DSPB fixes: the size parameters (00_scope.md R7), the numeric
parameters and constants (R8, R9), and the free values: opaque constants with no body, so that no
proof can know one. -/

namespace Sys2Proof

/-- The size parameters of 00_scope.md R7. -/
structure Sizes where
  dmemWords   : Nat
  ringWords   : Nat
  revWords    : Nat
  fftLog2Max  : Nat
  firMaxTaps  : Nat
  maxV        : Nat
  deriving DecidableEq, Repr

/-- Which of the three memories of 10_state.md R66, R67, R68 a word belongs to. -/
inductive RamId where
  | dmem
  | ring
  | rev
  deriving DecidableEq, Repr

namespace Config

/-- DMEM size in words, 2^18 (00_scope.md R7). DESIGN CHOICE: the spec's own value is taken (log 1). -/
def dmemWords : Nat := 262144
/-- Ring RAM size in words, 2^16 (R7; log 1). -/
def ringWords : Nat := 65536
/-- Reverb RAM size in words, 2^17 (R7; log 1). -/
def revWords : Nat := 131072
/-- Largest log2 of an FFT length (R7; log 1). -/
def fftLog2Max : Nat := 16
/-- Longest designed kernel (R7; log 1). -/
def firMaxTaps : Nat := 16383
/-- Most virtual channels of a MIX or PAN_TABLE (R7; log 1). -/
def maxV : Nat := 16

/-- The size parameters together, as WellFormed checks them against R7's constraints. -/
def sizes : Sizes :=
  { dmemWords := dmemWords, ringWords := ringWords, revWords := revWords,
    fftLog2Max := fftLog2Max, firMaxTaps := firMaxTaps, maxV := maxV }

/-- ALPHA_FIR, the Tukey taper fraction of FIR_DESIGN (00_scope.md R8, item U6): a parameter of the
configuration, free in the model; the spec's own block takes binary32 0.5 (log 13). -/
opaque alphaFir : Word
/-- ALPHA_OLA, the Tukey taper fraction of an OLA chunk whose context has WIN = 1 (R8, item U6): a parameter
as `alphaFir` is (log 13). -/
opaque alphaOla : Word

/-- D_PAN, the binary32 nearest 1.2 (00_scope.md R9). -/
def dPan : Word := 0x3F99999A#32
/-- A_PAN = 2.0 (R9). -/
def aPan : Word := 0x40000000#32
/-- TWO_PI, the binary32 nearest 2π (R9). -/
def twoPi : Word := 0x40C90FDB#32
/-- PI, the binary32 nearest π (R9). -/
def pi : Word := 0x40490FDB#32
/-- HALF = 0.5 (R9). -/
def half : Word := 0x3F000000#32
/-- ONE = 1.0 (R9). -/
def one : Word := 0x3F800000#32
/-- TWO = 2.0 (R9). -/
def two : Word := 0x40000000#32
/-- FOUR = 4.0 (R9). -/
def four : Word := 0x40800000#32

/-- The word a memory word holds after a reset until it is first written (10_state.md R66 to R68,
70_reset_and_hazards.md R301; items U3, U4): a free value, one for each memory, each count of resets
so far and each word address (log 4). -/
opaque powerOnWord : RamId → Nat → Nat → Word

/-- Free binary32 functions behind F_SIN, F_COS, F_EXP and F_TANH (00_scope.md R8, item U1).
Machine/Numeric.lean restricts each to the properties of R20 (log 2). -/
opaque sinRaw : Word → Word
/-- See `sinRaw`: the free function behind F_COS. -/
opaque cosRaw : Word → Word
/-- See `sinRaw`: the free function behind F_EXP. -/
opaque expRaw : Word → Word
/-- See `sinRaw`: the free function behind F_TANH. -/
opaque tanhRaw : Word → Word

/-- Free real and imaginary words of the twiddle table TWROM (40_transform.md R142, item U2).
Machine/Numeric.lean puts in the two exact points (log 3). -/
opaque twRomReRaw : Nat → Word
/-- See `twRomReRaw`: the imaginary words. -/
opaque twRomImRaw : Nat → Word

/-- SPK_ANGLE(S, s): the free speaker angle table (42_spatial.md R203, item U5), by speaker count and
speaker index (log 3). -/
opaque spkAngle : Nat → Nat → Word

end Config

end Sys2Proof
end

