-- ==== Sys2Proof/Syntax.lean ====
section
/-! DEFINITION. The command set of DSPB: one constructor per row of spec/opcode_table.json, the one
command format (30_encoding.md R110), and the assembler syntax of host programs (R122, R123). -/

namespace Sys2Proof

/-- The fourteen executing command words (30_encoding.md R115, R118). No command word has an operand
besides its F bit (R117), which the `.HP` and `.WIN` rows of the table fix, so no constructor carries
one: operands come from ARG0..ARG7 (R116). -/
inductive Instr where
  /-- NOP, 40_transform.md R140. -/
  | nop
  /-- FFT, 40_transform.md R145. -/
  | fft
  /-- IFFT, 40_transform.md R146. -/
  | ifft
  /-- FIR_DESIGN (F = 0, low-pass), 41_filter.md R162. -/
  | firDesign
  /-- FIR_DESIGN.HP (F = 1, high-pass), 41_filter.md R162. -/
  | firDesignHp
  /-- OLA_INIT (F = 0, no chunk window), 41_filter.md R172. -/
  | olaInit
  /-- OLA_INIT.WIN (F = 1, chunk window), 41_filter.md R172. -/
  | olaInitWin
  /-- OLA_APPLY, 41_filter.md R178. -/
  | olaApply
  /-- PAN_GAIN, 42_spatial.md R205. -/
  | panGain
  /-- PAN_TABLE, 42_spatial.md R206. -/
  | panTable
  /-- MIX, 42_spatial.md R210. -/
  | mix
  /-- START, 43_ring.md R241. -/
  | start
  /-- STOP, 43_ring.md R246. -/
  | stop
  /-- RING_PUSH, 43_ring.md R251. -/
  | ringPush
  deriving DecidableEq, Repr

/-- The twelve assigned opcodes of 30_encoding.md R115. -/
inductive Opcode where
  | nop
  | fft
  | ifft
  | firDesign
  | olaInit
  | olaApply
  | panGain
  | panTable
  | mix
  | start
  | stop
  | ringPush
  deriving DecidableEq, Repr

/-- The fields of a command word (30_encoding.md R110). -/
structure CommandWord where
  /-- bits 7..0 -/
  op   : BitVec 8
  /-- bit 8 -/
  f    : Bool
  /-- bits 31..9 -/
  rsvd : BitVec 23
  deriving DecidableEq, Repr

/-- Why a word is no command (30_encoding.md R112): the two names of a decode error. -/
inductive DecodeError where
  /-- OP is not assigned: the command completes with E_ILLEGAL. -/
  | illegal
  /-- A reserved bit is set, or F on an opcode without one: the command completes with E_RSVD. -/
  | rsvd
  deriving DecidableEq, Repr

/-- A literal of the assembler (30_encoding.md R122). -/
inductive Literal where
  /-- A decimal or hexadecimal integer. -/
  | int (n : Nat)
  /-- A literal with a decimal point or an exponent: (minus if `neg`) digits · 10^exp10. -/
  | dec (neg : Bool) (digits : Nat) (exp10 : Int)
  /-- raw(0x...): an exact bit pattern. -/
  | raw (w : Word)
  deriving DecidableEq, Repr

/-- A statement of a host program (30_encoding.md R122, R123). -/
inductive Statement where
  /-- MNEMONIC op0, op1, ...: the ARG writes, then the CMD write. -/
  | command (i : Instr) (ops : List Literal)
  /-- WR off, v -/
  | wr (off : Nat) (v : Literal)
  /-- RD off -/
  | rd (off : Nat)
  /-- DW a, v -/
  | dw (a : Nat) (v : Literal)
  /-- DR a -/
  | dr (a : Nat)
  /-- WAIT -/
  | wait
  /-- RUN op... -/
  | run (i : Instr) (ops : List Literal)
  /-- CLRIRQ m -/
  | clrIrq (m : Literal)
  /-- WAITIRQ m -/
  | waitIrq (m : Literal)
  /-- DRAIN L: the device side's step, no host operation. -/
  | drain (samples : Nat)
  deriving DecidableEq, Repr

end Sys2Proof
end

