-- ==== Sys2Proof/WellFormed.lean ====
section
/-! DEFINITION. Well-formedness: of the fields of a command word (30_encoding.md R112 to R114), of an
assembler statement (R122, R123), and of the size parameters (00_scope.md R7). -/

namespace Sys2Proof

/-- The assigned OP values, the first column of 30_encoding.md R115. -/
def assignedOps : List (BitVec 8) :=
  [0x00#8, 0x01#8, 0x02#8, 0x10#8, 0x11#8, 0x12#8, 0x20#8, 0x21#8, 0x22#8, 0x30#8, 0x31#8, 0x32#8]

/-- The OP values with an F flag: FIR_DESIGN (HP) and OLA_INIT (WIN) (30_encoding.md R113). -/
def flagOps : List (BitVec 8) := [0x10#8, 0x11#8]

/-- The OP field is assigned (30_encoding.md R112 (1)). -/
def CommandWord.opAssigned (c : CommandWord) : Bool := assignedOps.contains c.op

/-- The reserved field is zero (R112 (2), R114). -/
def CommandWord.rsvdZero (c : CommandWord) : Bool := c.rsvd = 0#23

/-- F is set only on an opcode that has the flag (R112 (3), R113). -/
def CommandWord.flagAllowed (c : CommandWord) : Bool := !c.f || flagOps.contains c.op

/-- A command word that executes a command (30_encoding.md R118). -/
def CommandWord.wf (c : CommandWord) : Bool := c.opAssigned && c.rsvdZero && c.flagAllowed

/-- Every instruction is well-formed: a constructor of Instr carries no operand that could be out of
range (30_encoding.md R117). -/
def Instr.wf : Instr → Bool
  | .nop | .fft | .ifft | .firDesign | .firDesignHp | .olaInit | .olaInitWin | .olaApply
  | .panGain | .panTable | .mix | .start | .stop | .ringPush => true

/-- An integer literal is a u32 (30_encoding.md R122). -/
def Literal.wf : Literal → Bool
  | .int n => decide (n < 2 ^ 32)
  | .dec _ _ _ => true
  | .raw _ => true

/-- At most eight operands, each a legal literal (30_encoding.md R122). -/
def operandsWf (ops : List Literal) : Bool := decide (ops.length ≤ 8) && ops.all Literal.wf

/-- A statement of the assembler is well-formed (30_encoding.md R122, R123): WR names a CSR offset, DW and DR a
DMEM word. R123 leaves open which offsets WR and RD may name. DEDUCED (log 22): WR an aligned offset of the CSR
window, reserved ones included; RD any 32-bit byte address, as its expansion to MemRead allows and as V-E8 of
95_test_vectors.md uses it. -/
def Statement.wf : Statement → Bool
  | .command _ ops => operandsWf ops
  | .run _ ops => operandsWf ops
  | .wr off v => decide (off < 0x1000) && decide (off % 4 = 0) && v.wf
  | .rd off => decide (off < 2 ^ 32)
  | .dw a v => decide (a < Config.dmemWords) && v.wf
  | .dr a => decide (a < Config.dmemWords)
  | .clrIrq m => m.wf
  | .waitIrq m => m.wf
  | .wait => true
  | .drain _ => true

/-- The constraint column of 00_scope.md R7. -/
def Sizes.wf (z : Sizes) : Bool :=
  decide (z.dmemWords = 2 ^ Nat.log2 z.dmemWords) && decide (2 ^ 12 ≤ z.dmemWords) && decide (z.dmemWords ≤ 2 ^ 22) &&
  decide (1 ≤ z.ringWords) && decide (z.ringWords ≤ 2 ^ 24) &&
  decide (1 ≤ z.revWords) && decide (z.revWords ≤ 2 ^ 24) &&
  decide (12 ≤ z.fftLog2Max) && decide (z.fftLog2Max ≤ 20) &&
  decide (9 ≤ z.firMaxTaps) && decide (z.firMaxTaps ≤ 65535) && decide (z.firMaxTaps % 2 = 1) &&
  decide (1 ≤ z.maxV) && decide (z.maxV ≤ 31)

end Sys2Proof
end

