-- ==== Sys2Proof/Decode.lean ====
section
/-! DEFINITION. Decoding of a command word (30_encoding.md R110 to R119), total, rejecting by name, and
the encoder from the same tables. -/

namespace Sys2Proof

/-- The opcode map of 30_encoding.md R115: the opcode an OP field selects, none where it is not
assigned. -/
def Opcode.ofBits (op : BitVec 8) : Option Opcode :=
  if op = 0x00#8 then some .nop
  else if op = 0x01#8 then some .fft
  else if op = 0x02#8 then some .ifft
  else if op = 0x10#8 then some .firDesign
  else if op = 0x11#8 then some .olaInit
  else if op = 0x12#8 then some .olaApply
  else if op = 0x20#8 then some .panGain
  else if op = 0x21#8 then some .panTable
  else if op = 0x22#8 then some .mix
  else if op = 0x30#8 then some .start
  else if op = 0x31#8 then some .stop
  else if op = 0x32#8 then some .ringPush
  else none

/-- Whether the opcode has an F flag: FIR_DESIGN (HP) and OLA_INIT (WIN) only (30_encoding.md R113). -/
def Opcode.hasFlag : Opcode → Bool
  | .firDesign | .olaInit => true
  | .nop | .fft | .ifft | .olaApply | .panGain | .panTable | .mix | .start | .stop | .ringPush => false

/-- Bits 7..0, 8 and 31..9 of a command word (30_encoding.md R110). -/
def CommandWord.ofWord (w : Word) : CommandWord :=
  { op := w.extractLsb' 0 8, f := w.getLsbD 8, rsvd := w.extractLsb' 9 23 }

/-- The word of given fields: RSVD in bits 31..9, F in bit 8, OP in bits 7..0 (30_encoding.md R110). -/
def CommandWord.toWord (c : CommandWord) : Word :=
  (c.rsvd ++ (BitVec.ofBool c.f ++ c.op) : BitVec (23 + (1 + 8)))

/-- The instruction of an opcode and an F bit; F chooses between the two rows of FIR_DESIGN and of
OLA_INIT (30_encoding.md R113). -/
def Opcode.toInstr (f : Bool) : Opcode → Instr
  | .nop => .nop
  | .fft => .fft
  | .ifft => .ifft
  | .firDesign => if f then .firDesignHp else .firDesign
  | .olaInit => if f then .olaInitWin else .olaInit
  | .olaApply => .olaApply
  | .panGain => .panGain
  | .panTable => .panTable
  | .mix => .mix
  | .start => .start
  | .stop => .stop
  | .ringPush => .ringPush

/-- Decode of a command word, the steps of 30_encoding.md R112 in their order. -/
def decode (w : Word) : Except DecodeError Instr :=
  let c := CommandWord.ofWord w
  match Opcode.ofBits c.op with
  | none => .error .illegal
  | some op =>
    if c.rsvd ≠ 0#23 then .error .rsvd
    else if c.f && !op.hasFlag then .error .rsvd
    else .ok (op.toInstr c.f)

/-- The OP field of an instruction (30_encoding.md R115). -/
def Instr.opBits : Instr → BitVec 8
  | .nop => 0x00#8
  | .fft => 0x01#8
  | .ifft => 0x02#8
  | .firDesign | .firDesignHp => 0x10#8
  | .olaInit | .olaInitWin => 0x11#8
  | .olaApply => 0x12#8
  | .panGain => 0x20#8
  | .panTable => 0x21#8
  | .mix => 0x22#8
  | .start => 0x30#8
  | .stop => 0x31#8
  | .ringPush => 0x32#8

/-- The F bit of an instruction (30_encoding.md R113, R115). -/
def Instr.flagBit : Instr → Bool
  | .firDesignHp | .olaInitWin => true
  | .nop | .fft | .ifft | .firDesign | .olaInit | .olaApply | .panGain | .panTable | .mix
  | .start | .stop | .ringPush => false

/-- The fields of an instruction's command word: reserved bits zero (30_encoding.md R114). -/
def Instr.fields (i : Instr) : CommandWord := { op := i.opBits, f := i.flagBit, rsvd := 0#23 }

/-- The command word of an instruction (30_encoding.md R115). -/
def encode (i : Instr) : Word := i.fields.toWord

/-- The instruction the decoder reads from an instruction of `nbits` bits `w`, numbered as
spec/opcode_table.json numbers them: the table's rows are one 32-bit command word, bit 0 its least
significant bit. -/
def decodeTableWord (nbits w : Nat) : Option Instr :=
  match decode (BitVec.ofNat 32 (w % 2 ^ nbits)) with
  | .ok i => some i
  | .error _ => none

end Sys2Proof
end

