-- ==== Sys2Proof/Machine/State.lean ====
section
/-! DEFINITION. The state of DSPB as plain data (10_state.md R30): the engine state, the CSRs, DMEM, the
ring RAM and the reverb RAM, with the model's own input and output fields; the names of the CSRs, the
error codes, faults and refusals; and the state after reset (70_reset_and_hazards.md R300). -/

namespace Sys2Proof.Machine

/-- The engine state of 10_state.md R32. The eight latched arguments stand in `State.argl`, since R300
gives them a value while the engine is idle too (log 9). -/
inductive Engine where
  | idle
  | pending (cw : Word)
  deriving DecidableEq, Repr

/-- STATUS.RUNSTATE (10_state.md R47). STARTING and STOPPING hold only inside the atomic execution of
START and STOP, so no state between steps holds them (log 11). -/
inductive RunState where
  | stopped
  | starting
  | running
  | stopping
  deriving DecidableEq, Repr

/-- The layouts DEV_CHANNELS selects (10_state.md R52, 42_spatial.md R204): the register always holds
one of the four legal values. -/
inductive Layout where
  | mono
  | stereo
  | surround51
  | surround71
  deriving DecidableEq, Repr

/-- The nonzero error codes of 60_exceptions.md R271. -/
inductive ErrCode where
  /-- 1 E_ILLEGAL, raised by decode: OP is not assigned. -/
  | illegal
  /-- 2 E_RSVD, raised by decode: a reserved bit, or F on an opcode without the flag. -/
  | rsvd
  /-- 3 E_STATE, raised by START and RING_PUSH. -/
  | state
  /-- 4 E_CFG, a parameter outside its legal range. -/
  | cfg
  /-- 5 E_RANGE, an operand region not inside DMEM. -/
  | range
  /-- 6 E_OVERLAP, two operand regions share a word. -/
  | overlap
  /-- 7 E_CTX, an OLA context's header is not consistent, or its block size is not MIX's. -/
  | ctx
  /-- 8 E_SIZE, the kernel is longer than CAP. -/
  | size
  /-- 9 E_NOSPACE, a push of more samples than the free space. -/
  | noSpace
  deriving DecidableEq, Repr

/-- The tunables (10_state.md R60, R61), held twice: the TUN registers and their active copy (R64). -/
structure Tunables where
  master   : Word
  lfe      : Word
  base     : Word
  revDelay : Word
  revDecay : Word
  /-- bit 0 HF_EN, bit 1 LF_EN, bit 2 DIST_EN, bit 3 LFE_LP_EN -/
  enables  : BitVec 4
  deriving DecidableEq, Repr

/-- What a word that is not listed in a memory reads as: its unspecified value after the reset counted
by `epoch` (70_reset_and_hazards.md R301, a free value, log 4), or zero once the whole memory has been
zeroed (43_ring.md R242, 42_spatial.md R217). -/
inductive RamBase where
  | powerOn (id : RamId) (epoch : Nat)
  | zero
  deriving DecidableEq, Repr

/-- A memory of 32-bit words: the listed words by strictly rising word address. Canonical form in
`Ram.wf`. -/
structure Ram where
  base  : RamBase
  cells : List (Nat × Word)
  deriving DecidableEq, Repr

/-- One atomic step that something outside the engine takes, or an engine turn (20_memory.md R91). -/
inductive Event where
  /-- The reset input is asserted (70_reset_and_hazards.md R300). -/
  | reset
  /-- Host read of `size` bytes at a byte address (20_memory.md R80). -/
  | read (addr : BitVec 32) (size : Nat)
  /-- Host write of `size` bytes at a byte address (R80). -/
  | write (addr : BitVec 32) (size : Nat) (v : Word)
  /-- A drain request of a number of samples (43_ring.md R256). -/
  | drain (samples : Nat)
  /-- A turn of the engine (60_exceptions.md R270): it executes the pending command, if there is one. -/
  | engine
  deriving DecidableEq, Repr

/-- The CSRs of 10_state.md R33, by name. -/
inductive Csr where
  | id
  | version
  | cfgDmemWords
  | cfgRingWords
  | cfgRevWords
  | cfgLimits
  | cmd
  | status
  | irqPend
  | irqEn
  | result0
  | result1
  | arg (i : Fin 8)
  | devFs
  | devChannels
  | devBlock
  | ringMult
  | ringCap
  | ringRd
  | ringWr
  | ringLevel
  | ringSpace
  | drainCount
  | xrunCount
  | tunMaster
  | tunLfe
  | tunBase
  | tunRevDelay
  | tunRevDecay
  | tunEnables
  | settings
  | actMaster
  | actLfe
  | actBase
  | actRevDelay
  | actRevDecay
  | actEnables
  | revLen
  | revCur
  deriving DecidableEq, Repr

/-- The state of DSPB (10_state.md R30). Each field cites the rule that names it. -/
structure State where
  /-- ENG, R32 -/
  eng        : Engine
  /-- argl[0..7], the arguments latched at acceptance, R43 -/
  argl       : Vector Word 8
  /-- CMD, R45 -/
  cmd        : Word
  /-- STATUS.ERR, R48: none is code 0 (log 17) -/
  err        : Option ErrCode
  /-- STATUS.RUNSTATE, R47 -/
  runState   : RunState
  /-- IRQ_PEND, R49: bits 0 DONE, 1 ERR, 2 DRAIN, 3 XRUN, 4 CMD_OVF, 5 BUS_ERR -/
  irqPend    : BitVec 6
  /-- IRQ_EN, R50 -/
  irqEn      : BitVec 6
  /-- RESULT0, R44 -/
  result0    : Word
  /-- RESULT1, R44 -/
  result1    : Word
  /-- ARG0..ARG7, R42 -/
  args       : Vector Word 8
  /-- DEV_FS, R51 -/
  devFs      : Word
  /-- DEV_CHANNELS, R52, by the layout it selects (log 17) -/
  layout     : Layout
  /-- DEV_BLOCK, R53 -/
  devBlock   : Word
  /-- RING_MULT, R54 -/
  ringMult   : Word
  /-- RING_CAP, R55, a sample count (log 14) -/
  ringCap    : Nat
  /-- RING_RD, R56, a sample offset -/
  ringRd     : Nat
  /-- RING_WR, R56, a sample offset -/
  ringWr     : Nat
  /-- RING_LEVEL, R57, a sample count -/
  ringLevel  : Nat
  /-- DRAIN_COUNT, R59, modulo 2^32 -/
  drainCount : Word
  /-- XRUN_COUNT, R59, modulo 2^32 -/
  xrunCount  : Word
  /-- TUN_MASTER .. TUN_ENABLES, R60, R61 -/
  tun        : Tunables
  /-- SETTINGS.CHANGED, R63 -/
  changed    : Bool
  /-- ACT_MASTER .. ACT_ENABLES, R64 -/
  act        : Tunables
  /-- REV_LEN, R65, a sample count -/
  revLen     : Nat
  /-- REV_CUR, R65, a sample offset -/
  revCur     : Nat
  /-- DMEM, R66 -/
  dmem       : Ram
  /-- the ring RAM, R67 -/
  ring       : Ram
  /-- the reverb RAM, R68 -/
  rev        : Ram
  /-- the model's own: the word the last host read returned (log 8) -/
  rdata      : Word
  /-- the model's own: the words the last drain request returned (log 8) -/
  drainData  : List Word
  /-- the model's own: the events to come, the schedule of 20_memory.md R91 (log 7) -/
  inputs     : List Event
  /-- the model's own: how many reset events there have been, the index of the free memory contents (log 4) -/
  resets     : Nat
  deriving DecidableEq, Repr

/-- Faults: none. Nothing in DSPB stops the machine: a command error completes the command
(60_exceptions.md R272), a bus error is a pending bit (R278), and there are no traps (R281). -/
inductive Fault where
  deriving DecidableEq, Repr

/-- Refusals. No instruction of DSPB is refused. -/
inductive Refusal where
  /-- An instruction with no meaning yet; raised by a refused arm of `exec` only. There is none.
  Safe: the machine stops. -/
  | notModelled (mnemonic : String)
  deriving DecidableEq, Repr

/-- The reset values of the tunables (10_state.md R60, R61, R64). -/
def Tunables.reset : Tunables :=
  { master := 0x3F800000#32, lfe := 0x3F800000#32, base := 0x3F800000#32,
    revDelay := 0x00000000#32, revDecay := 0x00000000#32, enables := 0x3#4 }

/-- A memory after the reset counted by `epoch`: no word written, each word unspecified
(70_reset_and_hazards.md R301). -/
def Ram.afterReset (id : RamId) (epoch : Nat) : Ram := { base := .powerOn id epoch, cells := [] }

/-- The state right after power-on reset (70_reset_and_hazards.md R300, 10_state.md R33). The last four
fields are the model's own (logs 4, 7, 8). -/
def State.reset : State :=
  { eng := .idle
    argl := Vector.replicate 8 0#32
    cmd := 0x00000000#32
    err := none
    runState := .stopped
    irqPend := 0x00#6
    irqEn := 0x00#6
    result0 := 0x00000000#32
    result1 := 0x00000000#32
    args := Vector.replicate 8 0#32
    devFs := 0x0000AC44#32
    layout := .stereo
    devBlock := 0x00000200#32
    ringMult := 0x00000004#32
    ringCap := 0
    ringRd := 0
    ringWr := 0
    ringLevel := 0
    drainCount := 0x00000000#32
    xrunCount := 0x00000000#32
    tun := Tunables.reset
    changed := false
    act := Tunables.reset
    revLen := 0
    revCur := 0
    dmem := Ram.afterReset .dmem 0
    ring := Ram.afterReset .ring 0
    rev := Ram.afterReset .rev 0
    rdata := 0x00000000#32
    drainData := []
    inputs := []
    resets := 0 }

end Sys2Proof.Machine
end

