-- ==== Sys2Proof/Machine/Flags.lean ====
section
/-! DEFINITION. The flags of DSPB (10_state.md R70): the sticky IRQ_PEND bits, the interrupt output and
the STATUS register, the enable bits. There are no arithmetic condition codes. -/

namespace Sys2Proof.Machine

/-- IRQ_PEND.DONE, bit 0 (10_state.md R49). -/
def pendDone : BitVec 6 := 0x01#6
/-- IRQ_PEND.ERR, bit 1. -/
def pendErr : BitVec 6 := 0x02#6
/-- IRQ_PEND.DRAIN, bit 2. -/
def pendDrain : BitVec 6 := 0x04#6
/-- IRQ_PEND.XRUN, bit 3. -/
def pendXrun : BitVec 6 := 0x08#6
/-- IRQ_PEND.CMD_OVF, bit 4. -/
def pendCmdOvf : BitVec 6 := 0x10#6
/-- IRQ_PEND.BUS_ERR, bit 5. -/
def pendBusErr : BitVec 6 := 0x20#6

/-- Set IRQ_PEND bits; set bits stay set (10_state.md R49). -/
def State.setPend (s : State) (bits : BitVec 6) : State := { s with irqPend := s.irqPend ||| bits }

/-- W1C: clear every bit written as 1 (10_state.md R34). -/
def State.clearPend (s : State) (bits : BitVec 6) : State := { s with irqPend := s.irqPend &&& ~~~bits }

/-- The level of the interrupt output: some pending bit is enabled (60_exceptions.md R280). -/
def irqLevel (s : State) : Bool := decide (s.irqPend &&& s.irqEn ≠ 0#6)

/-- STATUS.BUSY (10_state.md R32). -/
def busy (s : State) : Bool := decide (s.eng ≠ .idle)

/-- The 4-bit code of STATUS.ERR (60_exceptions.md R271). -/
def errBits : Option ErrCode → BitVec 4
  | none => 0#4
  | some .illegal => 1#4
  | some .rsvd => 2#4
  | some .state => 3#4
  | some .cfg => 4#4
  | some .range => 5#4
  | some .overlap => 6#4
  | some .ctx => 7#4
  | some .size => 8#4
  | some .noSpace => 9#4

/-- The encoding of STATUS.RUNSTATE (10_state.md R47). -/
def runStateBits : RunState → BitVec 2
  | .stopped => 0#2
  | .starting => 1#2
  | .running => 2#2
  | .stopping => 3#2

/-- STATUS (10_state.md R46): BUSY in bit 0, RUNSTATE in bits 2..1, IRQ in bit 3, ERR in bits 7..4, the
rest zero. -/
def statusWord (s : State) : Word :=
  (0#24 ++ errBits s.err ++ BitVec.ofBool (irqLevel s) ++ runStateBits s.runState ++ BitVec.ofBool (busy s) :
    BitVec (24 + 4 + 1 + 2 + 1))

/-- HF_EN, bit 0 of an enables register (10_state.md R61). -/
def Tunables.hfEn (t : Tunables) : Bool := t.enables.getLsbD 0
/-- LF_EN, bit 1. -/
def Tunables.lfEn (t : Tunables) : Bool := t.enables.getLsbD 1
/-- DIST_EN, bit 2. -/
def Tunables.distEn (t : Tunables) : Bool := t.enables.getLsbD 2
/-- LFE_LP_EN, bit 3. -/
def Tunables.lfeLpEn (t : Tunables) : Bool := t.enables.getLsbD 3

end Sys2Proof.Machine
end

