-- ==== Sys2Proof/Machine/Float.lean ====
section
/-! DEFINITION. IEEE 754 binary32 arithmetic (00_scope.md R15 to R18): every operation is computed
exactly on integers, in units of 2^-149, the least subnormal, and rounded once to nearest, ties to
even. Subnormals are kept, NaN results are the canonical NaN, there are no flags. The standard's own
special cases are general knowledge that R15 adopts (PRESUMED, log 20). -/

namespace Sys2Proof.Machine

/-- The canonical quiet NaN (00_scope.md R16). -/
def qNaN : Word := 0x7FC00000#32

/-- The sign bit. -/
def fSign (x : Word) : Bool := x.getLsbD 31

/-- The magnitude bits 30..0: exponent and fraction. -/
def fMagBits (x : Word) : Nat := x.toNat % 2 ^ 31

/-- The biased exponent, bits 30..23. -/
def fExpField (x : Word) : Nat := x.toNat / 2 ^ 23 % 2 ^ 8

/-- The fraction, bits 22..0. -/
def fFrac (x : Word) : Nat := x.toNat % 2 ^ 23

/-- A NaN: exponent all ones, fraction not zero. -/
def isNaN (x : Word) : Bool := decide (0x7F800000 < fMagBits x)

/-- An infinity: exponent all ones, fraction zero. -/
def isInf (x : Word) : Bool := decide (fMagBits x = 0x7F800000)

/-- False for infinities and NaN (00_scope.md R17). -/
def isFinite (x : Word) : Bool := decide (fMagBits x < 0x7F800000)

/-- Either zero. -/
def isZero (x : Word) : Bool := decide (fMagBits x = 0)

/-- The magnitude of a finite value, in units of 2^-149. -/
def fMag (x : Word) : Nat :=
  if fExpField x = 0 then fFrac x else (2 ^ 23 + fFrac x) * 2 ^ (fExpField x - 1)

/-- The exact value of a finite word, in units of 2^-149. -/
def fVal (x : Word) : Int := if fSign x then -(fMag x : Int) else (fMag x : Int)

/-- The word with a given sign and magnitude bits. -/
def fPack (sign : Bool) (magBits : Nat) : Word := BitVec.ofNat 32 ((if sign then 2 ^ 31 else 0) + magBits)

/-- The magnitude bits of the binary32 value nearest num/den units of 2^-149, ties to even. The unit in
the last place is 2^e of those units, for the least e with the quotient below 2^24; the quotient's
carry into 2^24, and the step from subnormal to normal, are carries in the packed bits. From 2^128 on
the result is infinity. -/
def roundMag (num den : Nat) : Nat :=
  let e := Nat.log2 (num / den) - 23
  let d := den * 2 ^ e
  let q := num / d
  let r := num % d
  let up := d < 2 * r ∨ (2 * r = d ∧ q % 2 = 1)
  min 0x7F800000 (e * 2 ^ 23 + (if up then q + 1 else q))

/-- Flip bit 31 and nothing else, for a NaN too (00_scope.md R16). -/
def fneg (x : Word) : Word := x ^^^ 0x80000000#32

/-- Clear bit 31. -/
def fabs (x : Word) : Word := x &&& 0x7FFFFFFF#32

/-- A NaN is written as the canonical NaN (00_scope.md R16). -/
def canon (x : Word) : Word := if isNaN x then qNaN else x

/-- Addition (00_scope.md R15). An exact zero sum of values that are not both negative zeros is +0.0. -/
def fadd (a b : Word) : Word :=
  if isNaN a || isNaN b then qNaN
  else if isInf a then (if isInf b && (fSign a != fSign b) then qNaN else a)
  else if isInf b then b
  else
    let v := fVal a + fVal b
    if v = 0 then fPack (fSign a && fSign b) 0
    else fPack (decide (v < 0)) (roundMag v.natAbs 1)

/-- Subtraction: the sum with the second operand's sign flipped (00_scope.md R15). -/
def fsub (a b : Word) : Word := fadd a (fneg b)

/-- Multiplication (00_scope.md R15); the exact product is in units of 2^-298. -/
def fmul (a b : Word) : Word :=
  if isNaN a || isNaN b then qNaN
  else if (isInf a && isZero b) || (isZero a && isInf b) then qNaN
  else
    let sg := fSign a != fSign b
    if isInf a || isInf b then fPack sg 0x7F800000
    else fPack sg (roundMag (fMag a * fMag b) (2 ^ 149))

/-- Division (00_scope.md R15); 0/0 and ∞/∞ are NaN, x/0 is infinity, nothing raises (60_exceptions.md
R271). -/
def fdiv (a b : Word) : Word :=
  if isNaN a || isNaN b then qNaN
  else if (isInf a && isInf b) || (isZero a && isZero b) then qNaN
  else
    let sg := fSign a != fSign b
    if isInf a || isZero b then fPack sg 0x7F800000
    else if isInf b then fPack sg 0
    else fPack sg (roundMag (fMag a * 2 ^ 149) (fMag b))

/-- f32(n) for a natural n: the nearest binary32, ties to even (00_scope.md R17). -/
def f32 (n : Nat) : Word := fPack false (roundMag (n * 2 ^ 149) 1)

/-- f32(n) for an integer n (R17). -/
def f32Int (n : Int) : Word := fPack (decide (n < 0)) (roundMag (n.natAbs * 2 ^ 149) 1)

/-- An integer that orders the values of non-NaN words, infinities included; both zeros give 0. -/
def fKey (x : Word) : Int := if fSign x then -(fMagBits x : Int) else (fMagBits x : Int)

/-- IEEE a < b: false with a NaN operand, and the two zeros are equal (00_scope.md R17). -/
def flt (a b : Word) : Bool := !isNaN a && !isNaN b && decide (fKey a < fKey b)

/-- IEEE a ≤ b (00_scope.md R17). -/
def fle (a b : Word) : Bool := !isNaN a && !isNaN b && decide (fKey a ≤ fKey b)

/-- The least natural number not below a finite x ≥ 0 (00_scope.md R17, ceil_nat). -/
def ceilNat (x : Word) : Nat := (fMag x + (2 ^ 149 - 1)) / 2 ^ 149

/-- The integer part of a finite x ≥ 0, truncation toward zero (42_spatial.md R216). -/
def truncNat (x : Word) : Nat := fMag x / 2 ^ 149

/-- fsum: from +0.0, in index order (00_scope.md R18). -/
def fsum (xs : List Word) : Word := xs.foldl fadd 0x00000000#32

end Sys2Proof.Machine
end

