-- ==== Sys2Proof/Machine/Numeric.lean ====
section
/-! DEFINITION. The numeric parameters of DSPB as the rules use them: F_SIN, F_COS, F_EXP, F_TANH with
the properties of 00_scope.md R20, the twiddle table of 40_transform.md R142, complex values (R19), the
Tukey taper of 41_filter.md R160 and the pan law of 42_spatial.md R201, R202. -/

namespace Sys2Proof.Machine

/-- An odd function that keeps the two zeros and has canonical NaN results, from a free function: the
negative half is the positive half with its sign flipped. As `raw` ranges over all functions this ranges
over exactly the functions that R20 and R16 admit for F_SIN and F_TANH (log 2). -/
def oddExtension (raw : Word → Word) (x : Word) : Word :=
  if isNaN x then qNaN
  else if isZero x then x
  else if fSign x then canon (fneg (raw (fabs x)))
  else canon (raw x)

/-- F_SIN (00_scope.md R20): F_SIN(±0.0) = ±0.0, odd, canonical NaN for NaN. A free value otherwise. -/
def fSin (x : Word) : Word := oddExtension Config.sinRaw x

/-- F_TANH (R20): F_TANH(±0.0) = ±0.0, odd, canonical NaN for NaN. A free value otherwise. -/
def fTanh (x : Word) : Word := oddExtension Config.tanhRaw x

/-- F_COS (R20): F_COS(±0.0) = 1.0, even, canonical NaN for NaN. A free value otherwise. -/
def fCos (x : Word) : Word :=
  if isNaN x then qNaN
  else if isZero x then Config.one
  else canon (Config.cosRaw (fabs x))

/-- The binary32 value -87.0, the bound of F_EXP's property in R20. -/
def minus87 : Word := 0xC2AE0000#32

/-- F_EXP (R20): positive for every finite x ≥ -87, canonical NaN for NaN. A free value otherwise. Where
the free function is not positive and R20 says the result must be, the least positive value stands in:
every function R20 admits is still some choice of the free function (log 2). -/
def fExp (x : Word) : Word :=
  if isNaN x then qNaN
  else
    let y := canon (Config.expRaw x)
    if isFinite x && fle minus87 x && !flt 0x00000000#32 y then 0x00000001#32 else y

/-- A complex value (00_scope.md R19). -/
structure Cpx where
  re : Word
  im : Word
  deriving DecidableEq, Repr

/-- cadd of 00_scope.md R19. -/
def cadd (x y : Cpx) : Cpx := { re := fadd x.re y.re, im := fadd x.im y.im }

/-- csub of R19. -/
def csub (x y : Cpx) : Cpx := { re := fsub x.re y.re, im := fsub x.im y.im }

/-- cmul of R19: (a*c - b*d, a*d + b*c), every product rounded before the sum. -/
def cmul (x y : Cpx) : Cpx :=
  { re := fsub (fmul x.re y.re) (fmul x.im y.im), im := fadd (fmul x.re y.im) (fmul x.im y.re) }

/-- cscale of R19: both parts divided by s. -/
def cscale (x : Cpx) (s : Word) : Cpx := { re := fdiv x.re s, im := fdiv x.im s }

/-- TWROM (40_transform.md R142): a free table but for its two exact points (log 3). -/
def twRom (j : Nat) : Cpx :=
  if j = 0 then { re := 0x3F800000#32, im := 0x80000000#32 }
  else if j = 2 ^ Config.fftLog2Max / 4 then { re := 0x00000000#32, im := 0xBF800000#32 }
  else { re := Config.twRomReRaw j, im := Config.twRomImRaw j }

/-- TW(L, k), the forward twiddle for length 2^L and index k (R142). -/
def tw (L k : Nat) : Cpx := twRom (k * 2 ^ (Config.fftLog2Max - L))

/-- TWI(L, k), the inverse twiddle: the conjugate (R142). -/
def twi (L k : Nat) : Cpx := { re := (tw L k).re, im := fneg (tw L k).im }

/-- TUKEY(M, n, α) of 41_filter.md R160. -/
def tukey (M n : Nat) (α : Word) : Word :=
  if M = 1 then Config.one
  else
    let lm := f32 (M - 1)
    let t := f32 n
    let aL := fmul α lm
    let e := fmul aL Config.half
    if flt t e then
      fmul Config.half (fsub Config.one (fCos (fdiv (fmul Config.twoPi t) aL)))
    else if flt (fsub lm e) t then
      fmul Config.half (fsub Config.one (fCos (fdiv (fmul Config.twoPi (fsub lm t)) aL)))
    else Config.one

/-- PANW(th, ph), the directivity weight (42_spatial.md R201). -/
def panW (th ph : Word) : Word :=
  fExp (fsub (fmul (fmul Config.aPan Config.half) (fCos (fsub th ph))) Config.half)

/-- F_TANH(D_PAN * x), the soft-clipped sample (R202). -/
def softClip (x : Word) : Word := fTanh (fmul Config.dPan x)

/-- PANG(x, th, ph), the panned sample (R202). -/
def panG (x th ph : Word) : Word := fmul (softClip x) (panW th ph)

/-- S, the speaker count of a layout (10_state.md R52, 42_spatial.md R204). -/
def Layout.speakers : Layout → Nat
  | .mono => 1
  | .stereo => 2
  | .surround51 => 6
  | .surround71 => 8

/-- HASLFE(S): 5.1 and 7.1 have an LFE slot (42_spatial.md R204). -/
def Layout.hasLfe : Layout → Bool
  | .mono | .stereo => false
  | .surround51 | .surround71 => true

/-- Speaker index s is the LFE slot: index 3 of 5.1 and 7.1 (R204). -/
def Layout.isLfeSlot (l : Layout) (s : Nat) : Bool := l.hasLfe && decide (s = 3)

/-- SPK_ANGLE(S, s) (42_spatial.md R203), the free table of Config (log 3). -/
def Layout.angle (l : Layout) (s : Nat) : Word := Config.spkAngle l.speakers s

end Sys2Proof.Machine
end

