-- ==== Sys2Proof/Machine/Operands.lean ====
section
/-! DEFINITION. The two operand forms of a command (30_encoding.md R116, R117): an argument register read
as an unsigned number or as a binary32 value. Commands read the latched arguments only (10_state.md
R43). -/

namespace Sys2Proof.Machine

/-- u32(argl[i]): the 32 bits as an unsigned integer, no scaling and no offset (30_encoding.md R117). -/
def argU32 (s : State) (i : Fin 8) : Nat := (s.argl[i]).toNat

/-- f32bits(argl[i]): the bit pattern as a binary32 value (30_encoding.md R117). -/
def argF32 (s : State) (i : Fin 8) : Word := s.argl[i]

/-- The latch at acceptance: argl[i] takes ARGi for every i (10_state.md R43). -/
def State.latchArgs (s : State) : State := { s with argl := s.args }

end Sys2Proof.Machine
end

