-- ==== Sys2Proof/Machine/Ops.lean ====
section
/-! DEFINITION. The shared operations: the byte order (20_memory.md R82), the memories (10_state.md R66 to R68), regions (00_scope.md R14),
command completion and command errors (60_exceptions.md R272), the reverb rebuild (42_spatial.md R217).

DSPB has no exception entry and no return: an error ends the command that raised it, and nothing is
saved (60_exceptions.md R281). `raiseError` is that one shared operation; every `raise` of the spec and
every decode error goes through it. -/

namespace Sys2Proof.Machine

/-! ## Byte order (20_memory.md R82) -/

/-- Byte i of a word: bits 8i+7 .. 8i. Little-endian, it is the byte at byte address `addr + i` of a word moved
at `addr`. -/
def wordByte (w : Word) (i : Nat) : Byte := w.extractLsb' (8 * i) 8

/-- The four bytes of a word, the one at the lowest address first. -/
def wordBytes (w : Word) : List Byte := [wordByte w 0, wordByte w 1, wordByte w 2, wordByte w 3]

/-- The word of its bytes, the one at the lowest address first: the inverse of `wordBytes`. -/
def bytesWord : List Byte → Word
  | [] => 0#32
  | b :: bs => (bytesWord bs <<< 8) ||| b.zeroExtend 32

/-- The little-endian byte stream of a list of words. -/
def streamBytes (ws : List Word) : List Byte := ws.flatMap wordBytes

/-! ## Memories -/

/-- The listed word at an address, in a list by rising address. -/
def lookupCell : List (Nat × Word) → Nat → Option Word
  | [], _ => none
  | (k, w) :: rest, a => if k = a then some w else lookupCell rest a

/-- The list with the word at an address set, keeping the rising order. -/
def insertCell : List (Nat × Word) → Nat → Word → List (Nat × Word)
  | [], a, w => [(a, w)]
  | (k, v) :: rest, a, w =>
    if a < k then (a, w) :: (k, v) :: rest
    else if a = k then (a, w) :: rest
    else (k, v) :: insertCell rest a w

/-- The list without the word at an address. -/
def removeCell : List (Nat × Word) → Nat → List (Nat × Word)
  | [], _ => []
  | (k, v) :: rest, a => if k = a then removeCell rest a else (k, v) :: removeCell rest a

/-- What an unlisted word reads as: its free value after reset (log 4), or zero in a zeroed memory. -/
def RamBase.word : RamBase → Nat → Word
  | .powerOn id epoch, a => Config.powerOnWord id epoch a
  | .zero, _ => 0#32

/-- Read of one memory word. -/
def Ram.read (m : Ram) (a : Nat) : Word := (lookupCell m.cells a).getD (m.base.word a)

/-- Write of one memory word. In a zeroed memory a zero is not listed; before that every written word is
listed, since what the unlisted word held is unknown. -/
def Ram.write (m : Ram) (a : Nat) (w : Word) : Ram :=
  match m.base with
  | .powerOn _ _ => { m with cells := insertCell m.cells a w }
  | .zero => if w = 0#32 then { m with cells := removeCell m.cells a } else { m with cells := insertCell m.cells a w }

/-- A memory zeroed whole (43_ring.md R242, R246, 42_spatial.md R217). -/
def Ram.zeroed : Ram := { base := .zero, cells := [] }

/-- Keys rise strictly. -/
def cellsRising : List (Nat × Word) → Bool
  | [] => true
  | (k, _) :: rest => rest.all (fun c => decide (k < c.1)) && cellsRising rest

/-- The canonical form of a memory of `size` words: keys strictly rising and below `size`, and in a
zeroed memory no listed zero. -/
def Ram.wf (size : Nat) (m : Ram) : Bool :=
  cellsRising m.cells && m.cells.all (fun c => decide (c.1 < size)) &&
  match m.base with
  | .powerOn _ _ => true
  | .zero => m.cells.all (fun c => decide (c.2 ≠ 0#32))

/-- Words a, a+1, ... written in order. -/
def Ram.writeWords (m : Ram) (a : Nat) : List Word → Ram
  | [] => m
  | w :: ws => (m.write a w).writeWords (a + 1) ws

/-- The n words from a on. -/
def Ram.readWords (m : Ram) (a n : Nat) : List Word := (List.range n).map fun i => m.read (a + i)

/-- DRead (00_scope.md R12). -/
def State.dRead (s : State) (a : Nat) : Word := s.dmem.read a

/-- DWrite (00_scope.md R12). -/
def State.dWrite (s : State) (a : Nat) (w : Word) : State := { s with dmem := s.dmem.write a w }

/-- DWrite of consecutive words. -/
def State.dWriteWords (s : State) (a : Nat) (ws : List Word) : State :=
  { s with dmem := s.dmem.writeWords a ws }

/-- The n complex values from word address a on: real part first (00_scope.md R19, 40_transform.md
R141). -/
def State.dReadCpx (s : State) (a n : Nat) : List Cpx :=
  (List.range n).map fun k => { re := s.dRead (a + 2 * k), im := s.dRead (a + 2 * k + 1) }

/-- The words of complex values, real part first (R19). -/
def cpxWords : List Cpx → List Word
  | [] => []
  | x :: xs => x.re :: x.im :: cpxWords xs

/-! ## Regions (00_scope.md R14) -/

/-- region(a, n). -/
structure Region where
  base : Nat
  len  : Nat
  deriving DecidableEq, Repr

/-- inside(a, n), on naturals. -/
def inside (a n : Nat) : Bool := decide (a + n ≤ Config.dmemWords)

/-- overlap(r1, r2): the two sets share an address; an empty region overlaps nothing. -/
def overlap (r q : Region) : Bool :=
  decide (0 < r.len) && decide (0 < q.len) && decide (r.base < q.base + q.len) && decide (q.base < r.base + r.len)

/-- Some two regions of the list overlap (42_spatial.md R211). -/
def anyOverlap : List Region → Bool
  | [] => false
  | r :: rs => rs.any (overlap r) || anyOverlap rs

/-! ## Completion (60_exceptions.md R272) -/

/-- A successful completion with its two results: STATUS.ERR is 0, DONE is set, the engine is idle. -/
def completeOk (s : State) (r0 r1 : Word) : State :=
  { s with eng := .idle, err := none, result0 := r0, result1 := r1, irqPend := s.irqPend ||| pendDone }

/-- `raise E_X` (00_scope.md R13): the completion of a command that raised. STATUS.ERR takes the code,
both results are 0, DONE and ERR are set, and nothing else changes (R272). -/
def raiseError (s : State) (e : ErrCode) : State :=
  { s with eng := .idle, err := some e, result0 := 0#32, result1 := 0#32,
           irqPend := s.irqPend ||| (pendDone ||| pendErr) }

/-- What a command's effect answers: the state it leaves and the two result words its rule names. -/
structure Effect where
  state : State
  r0    : Word
  r1    : Word
  deriving DecidableEq, Repr

/-- One command (60_exceptions.md R270, R273): the first failing check decides the code; if none fails,
the whole effect happens. Every command completes, so the answer is always a next state. -/
def runCommand (check : State → Option ErrCode) (effect : State → Effect) (s : State) :
    Host.Outcome State Fault Refusal :=
  .next (match check s with
    | some e => raiseError s e
    | none => completeOk (effect s).state (effect s).r0 (effect s).r1)

/-- The code of a decode error (30_encoding.md R112). -/
def decodeErrCode : DecodeError → ErrCode
  | .illegal => .illegal
  | .rsvd => .rsvd

/-! ## Reverb length and rebuild -/

/-- REVLEN (42_spatial.md R216), from ACT_REV_DELAY and DEV_FS. -/
def revLength (s : State) : Nat :=
  let p := fmul s.act.revDelay (f32 s.devFs.toNat)
  if isNaN p || !flt 0x00000000#32 p then 0
  else if fle (f32 Config.revWords) p then Config.revWords
  else truncNat p

/-- REVERB_REBUILD (42_spatial.md R217): the length is computed again, the whole reverb RAM is zeroed,
the cursor returns to 0. -/
def reverbRebuild (s : State) : State :=
  { s with revLen := revLength s, revCur := 0, rev := Ram.zeroed }

/-- The least power of two not below n, for n ≥ 1 (41_filter.md R171, NEXTPOW2). -/
def nextPow2 (n : Nat) : Nat := if n ≤ 1 then 1 else 2 ^ (Nat.log2 (n - 1) + 1)

/-- ceil(a / b) on naturals, for b ≥ 1 (41_filter.md R173). -/
def ceilDiv (a b : Nat) : Nat := (a + b - 1) / b

end Sys2Proof.Machine
end

