-- ==== Sys2Proof/Machine/Bus.lean ====
section
/-! DEFINITION. The host port: the CSR map (10_state.md R33 to R65), host accesses and bus errors
(20_memory.md R80 to R88), and the reset input (70_reset_and_hazards.md R300). -/

namespace Sys2Proof.Machine

/-- Identification, parameters, command, status, interrupts and results. Offsets of 10_state.md R33. -/
def csrTableControl : List (Nat × Csr) :=
  [(0x000, .id), (0x004, .version), (0x008, .cfgDmemWords), (0x00C, .cfgRingWords),
   (0x010, .cfgRevWords), (0x014, .cfgLimits), (0x020, .cmd), (0x024, .status),
   (0x028, .irqPend), (0x02C, .irqEn), (0x030, .result0), (0x034, .result1)]

/-- The argument registers. Offsets of 10_state.md R33. -/
def csrTableArgs : List (Nat × Csr) :=
  [(0x040, .arg 0), (0x044, .arg 1), (0x048, .arg 2), (0x04C, .arg 3),
   (0x050, .arg 4), (0x054, .arg 5), (0x058, .arg 6), (0x05C, .arg 7)]

/-- Device and ring registers. Offsets of 10_state.md R33. -/
def csrTableDevice : List (Nat × Csr) :=
  [(0x080, .devFs), (0x084, .devChannels), (0x088, .devBlock), (0x08C, .ringMult),
   (0x090, .ringCap), (0x094, .ringRd), (0x098, .ringWr), (0x09C, .ringLevel),
   (0x0A0, .ringSpace), (0x0A4, .drainCount), (0x0A8, .xrunCount)]

/-- Tunables, settings, the active copy and the reverb registers. Offsets of 10_state.md R33. -/
def csrTableTunables : List (Nat × Csr) :=
  [(0x0C0, .tunMaster), (0x0C4, .tunLfe), (0x0C8, .tunBase), (0x0CC, .tunRevDelay),
   (0x0D0, .tunRevDecay), (0x0D4, .tunEnables), (0x0D8, .settings), (0x0E0, .actMaster),
   (0x0E4, .actLfe), (0x0E8, .actBase), (0x0EC, .actRevDelay), (0x0F0, .actRevDecay),
   (0x0F4, .actEnables), (0x0F8, .revLen), (0x0FC, .revCur)]

/-- The CSR map (10_state.md R33). -/
def csrTable : List (Nat × Csr) := csrTableControl ++ csrTableArgs ++ csrTableDevice ++ csrTableTunables

/-- The CSR at a byte offset, none at a reserved offset (10_state.md R33, R35). -/
def csrAt (off : Nat) : Option Csr := csrTable.lookup off

/-- CFG_LIMITS (10_state.md R41): FFT_LOG2_MAX in bits 4..0, MAX_V in bits 12..8, FIR_MAX_TAPS in bits
31..16. -/
def cfgLimitsWord : Word :=
  (BitVec.ofNat 16 Config.firMaxTaps ++ 0#3 ++ BitVec.ofNat 5 Config.maxV ++ 0#3 ++ BitVec.ofNat 5 Config.fftLog2Max :
    BitVec (16 + 3 + 5 + 3 + 5))

/-- RING_SPACE (10_state.md R58): RING_CAP - RING_LEVEL while RUNNING, 0 otherwise. -/
def ringSpace (s : State) : Nat := if s.runState = .running then s.ringCap - s.ringLevel else 0

/-- What a read of a CSR returns (10_state.md R33 and each register's rule). Reads have no side effect
(20_memory.md R88). -/
def csrRead (s : State) : Csr → Word
  | .id => 0x44535042#32
  | .version => 0x00000100#32
  | .cfgDmemWords => BitVec.ofNat 32 Config.dmemWords
  | .cfgRingWords => BitVec.ofNat 32 Config.ringWords
  | .cfgRevWords => BitVec.ofNat 32 Config.revWords
  | .cfgLimits => cfgLimitsWord
  | .cmd => s.cmd
  | .status => statusWord s
  | .irqPend => s.irqPend.zeroExtend 32
  | .irqEn => s.irqEn.zeroExtend 32
  | .result0 => s.result0
  | .result1 => s.result1
  | .arg i => s.args[i]
  | .devFs => s.devFs
  | .devChannels => BitVec.ofNat 32 s.layout.speakers
  | .devBlock => s.devBlock
  | .ringMult => s.ringMult
  | .ringCap => BitVec.ofNat 32 s.ringCap
  | .ringRd => BitVec.ofNat 32 s.ringRd
  | .ringWr => BitVec.ofNat 32 s.ringWr
  | .ringLevel => BitVec.ofNat 32 s.ringLevel
  | .ringSpace => BitVec.ofNat 32 (ringSpace s)
  | .drainCount => s.drainCount
  | .xrunCount => s.xrunCount
  | .tunMaster => s.tun.master
  | .tunLfe => s.tun.lfe
  | .tunBase => s.tun.base
  | .tunRevDelay => s.tun.revDelay
  | .tunRevDecay => s.tun.revDecay
  | .tunEnables => s.tun.enables.zeroExtend 32
  | .settings => (BitVec.ofBool s.changed).zeroExtend 32
  | .actMaster => s.act.master
  | .actLfe => s.act.lfe
  | .actBase => s.act.base
  | .actRevDelay => s.act.revDelay
  | .actRevDecay => s.act.revDecay
  | .actEnables => s.act.enables.zeroExtend 32
  | .revLen => BitVec.ofNat 32 s.revLen
  | .revCur => BitVec.ofNat 32 s.revCur

/-- A host write to CMD (10_state.md R45): accepted when the engine is idle, with the arguments latched
(R43); ignored with CMD_OVF when a command is pending (60_exceptions.md R276). -/
def writeCmd (s : State) (v : Word) : State :=
  match s.eng with
  | .idle => { s.latchArgs with cmd := v, eng := .pending v }
  | .pending _ => s.setPend pendCmdOvf

/-- The layout of a legal DEV_CHANNELS value (10_state.md R52). -/
def layoutOf (v : Word) : Option Layout :=
  if v = 1#32 then some .mono
  else if v = 2#32 then some .stereo
  else if v = 6#32 then some .surround51
  else if v = 8#32 then some .surround71
  else none

/-- A write to DEV_CHANNELS while STOPPED: an illegal value is ignored (10_state.md R52). -/
def writeDevChannels (s : State) (v : Word) : State :=
  match layoutOf v with
  | some l => { s with layout := l }
  | none => s

/-- A host write to a CSR, by access type (10_state.md R34). A TUN write also sets SETTINGS.CHANGED
(R62); an RWS write is ignored unless STOPPED. -/
def csrWrite (s : State) (r : Csr) (v : Word) : State :=
  match r with
  | .cmd => writeCmd s v
  | .irqPend => s.clearPend (v.truncate 6)
  | .irqEn => { s with irqEn := v.truncate 6 }
  | .arg i => { s with args := s.args.set i v }
  | .devFs => if s.runState = .stopped then { s with devFs := v } else s
  | .devChannels => if s.runState = .stopped then writeDevChannels s v else s
  | .devBlock => if s.runState = .stopped then { s with devBlock := v } else s
  | .ringMult => if s.runState = .stopped then { s with ringMult := v } else s
  | .tunMaster => { s with tun := { s.tun with master := v }, changed := true }
  | .tunLfe => { s with tun := { s.tun with lfe := v }, changed := true }
  | .tunBase => { s with tun := { s.tun with base := v }, changed := true }
  | .tunRevDelay => { s with tun := { s.tun with revDelay := v }, changed := true }
  | .tunRevDecay => { s with tun := { s.tun with revDecay := v }, changed := true }
  | .tunEnables => { s with tun := { s.tun with enables := v.truncate 4 }, changed := true }
  | .settings => if v.getLsbD 0 then { s with changed := true } else s
  | .id | .version | .cfgDmemWords | .cfgRingWords | .cfgRevWords | .cfgLimits | .status
  | .result0 | .result1 | .ringCap | .ringRd | .ringWr | .ringLevel | .ringSpace
  | .drainCount | .xrunCount | .actMaster | .actLfe | .actBase | .actRevDelay | .actRevDecay
  | .actEnables | .revLen | .revCur => s

/-- What a host access reaches (20_memory.md R81, R84 to R86). -/
inductive Target where
  /-- a listed CSR -/
  | csr (r : Csr)
  /-- a reserved offset of the CSR window (10_state.md R35) -/
  | reserved
  /-- DMEM word `a` -/
  | dmem (a : Nat)
  /-- a size other than 4, a misaligned or an unmapped address -/
  | busError
  deriving DecidableEq, Repr

/-- The first byte address of the DMEM window (20_memory.md R84). -/
def dmemWindow : Nat := 0x01000000

/-- The address map (20_memory.md R81, R84 to R86). -/
def target (addr : BitVec 32) (size : Nat) : Target :=
  let a := addr.toNat
  if size ≠ 4 ∨ a % 4 ≠ 0 then .busError
  else if a < 0x1000 then
    match csrAt a with
    | some r => .csr r
    | none => .reserved
  else if dmemWindow ≤ a ∧ a < dmemWindow + 4 * Config.dmemWords then .dmem ((a - dmemWindow) / 4)
  else .busError

/-- A read that gets a bus error returns 0 and sets BUS_ERR (20_memory.md R81, R86, R87). -/
def readError (s : State) : State := { s.setPend pendBusErr with rdata := 0#32 }

/-- A write that gets a bus error changes nothing but BUS_ERR (20_memory.md R81, R86, R87). -/
def writeError (s : State) : State := s.setPend pendBusErr

/-- One host read (20_memory.md R80): the word returned stands in `rdata`. DMEM is locked while a
command is pending (R87). -/
def hostRead (s : State) (addr : BitVec 32) (size : Nat) : State :=
  match target addr size with
  | .csr r => { s with rdata := csrRead s r }
  | .reserved => { s with rdata := 0#32 }
  | .dmem a => if busy s then readError s else { s with rdata := s.dRead a }
  | .busError => readError s

/-- One host write (20_memory.md R80). -/
def hostWrite (s : State) (addr : BitVec 32) (size : Nat) (v : Word) : State :=
  match target addr size with
  | .csr r => csrWrite s r v
  | .reserved => s
  | .dmem a => if busy s then writeError s else s.dWrite a v
  | .busError => writeError s

/-- What a byte-addressed host sees of a read (20_memory.md R82): the bytes of the returned word, the one at
`addr + i` at place i. -/
def hostReadBytes (s : State) (addr : BitVec 32) (size : Nat) : List Byte := wordBytes (hostRead s addr size).rdata

/-- A write by a byte-addressed host (20_memory.md R82): the bytes at `addr`, `addr + 1`, ... moved as one
access, with the word they form. -/
def hostWriteBytes (s : State) (addr : BitVec 32) (bytes : List Byte) : State :=
  hostWrite s addr bytes.length (bytesWord bytes)

/-- The reset input (70_reset_and_hazards.md R300): every register at its reset value, a pending command
discarded, the memories unspecified anew (R301, log 4). The events still to come are the outside
world's and stay. -/
def applyReset (s : State) : State :=
  { State.reset with
    dmem := Ram.afterReset .dmem (s.resets + 1)
    ring := Ram.afterReset .ring (s.resets + 1)
    rev := Ram.afterReset .rev (s.resets + 1)
    inputs := s.inputs
    resets := s.resets + 1 }

end Sys2Proof.Machine
end

