-- ==== Sys2Proof/Machine/Filter.lean ====
section
/-! DEFINITION. The filter designer: FIR_DESIGN and FIR_DESIGN.HP (41_filter.md R160 to R166). -/

namespace Sys2Proof.Machine

/-- The design frequency fc (41_filter.md R162): fcut / fs, mirrored around Nyquist for a high-pass. -/
def firFc (hp : Bool) (fs fcut : Word) : Word :=
  let fc := fdiv fcut fs
  if hp then fsub Config.half fc else fc

/-- The quotient q = 4.0 / bw with bw = ftr / fs (41_filter.md R162). -/
def firQuotient (fs ftr : Word) : Word := fdiv Config.four (fdiv ftr fs)

/-- The kernel length N: the least odd number not below ceil(q) (41_filter.md R163). -/
def firLength (q : Word) : Nat :=
  let n0 := ceilNat q
  if n0 % 2 = 1 then n0 else n0 + 1

/-- The checks of FIR_DESIGN in order (41_filter.md R161, R162). -/
def checkFir (s : State) : Option ErrCode :=
  let fs := argF32 s 0
  let fcut := argF32 s 1
  let ftr := argF32 s 2
  let half := fmul fs Config.half
  let q := firQuotient fs ftr
  if !(isFinite fs && flt 0x00000000#32 fs) then some .cfg
  else if !(flt 0x00000000#32 fcut && flt fcut half) then some .cfg
  else if !(flt 0x00000000#32 ftr && flt ftr half) then some .cfg
  else if !isFinite q then some .cfg
  else if Config.firMaxTaps < firLength q then some .cfg
  else if !inside (argU32 s 3) (argU32 s 4) then some .range
  else if argU32 s 4 < firLength q then some .size
  else none

/-- The tap at index n before taper and normalisation, for the center index c (41_filter.md R164). -/
def firTap (fc : Word) (c n : Nat) : Word :=
  let m : Int := (n : Int) - (c : Int)
  if m = 0 then fmul Config.two fc
  else fdiv (fSin (fmul (fmul Config.twoPi fc) (f32Int m))) (fmul Config.pi (f32Int m))

/-- The tapered taps of a kernel of N taps (41_filter.md R162), for a taper fraction α. -/
def firTapered (α fc : Word) (N : Nat) : List Word :=
  (List.range N).map fun n => fmul (firTap fc ((N - 1) / 2) n) (tukey N n α)

/-- Every odd-index tap negated (41_filter.md R166). -/
def negateOdd (h : List Word) : List Word :=
  List.zipWith (fun n x => if n % 2 = 1 then fneg x else x) (List.range h.length) h

/-- The normalised kernel (41_filter.md R165), with its odd taps negated for a high-pass (R166). -/
def firKernel (α : Word) (hp : Bool) (fc : Word) (N : Nat) : List Word :=
  let h := firTapered α fc N
  let S := fsum h
  let g := h.map fun x => fdiv x S
  if hp then negateOdd g else g

/-- The effect of FIR_DESIGN (41_filter.md R162): the kernel, tapered with ALPHA_FIR, written at A; N and S as
results. -/
def firEffect (hp : Bool) (s : State) : Effect :=
  let fc := firFc hp (argF32 s 0) (argF32 s 1)
  let N := firLength (firQuotient (argF32 s 0) (argF32 s 2))
  { state := s.dWriteWords (argU32 s 3) (firKernel Config.alphaFir hp fc N)
    r0 := BitVec.ofNat 32 N
    r1 := fsum (firTapered Config.alphaFir fc N) }

/-- FIR_DESIGN, HP = 0: a low-pass kernel (41_filter.md R162). -/
def execFirDesign (s : State) : Host.Outcome State Fault Refusal := runCommand checkFir (firEffect false) s

/-- FIR_DESIGN.HP, HP = 1: a high-pass kernel (41_filter.md R162). -/
def execFirDesignHp (s : State) : Host.Outcome State Fault Refusal := runCommand checkFir (firEffect true) s

end Sys2Proof.Machine
end

