-- ==== Sys2Proof/Machine/Transform.lean ====
section
/-! DEFINITION. The control command NOP and the transform engine: FFT and IFFT (40_transform.md). -/

namespace Sys2Proof.Machine

/-- NOP (40_transform.md R140): no operation, both results 0. -/
def execNop (s : State) : Host.Outcome State Fault Refusal :=
  runCommand (fun _ => none) (fun s => { state := s, r0 := 0#32, r1 := 0#32 }) s

/-- The direction of a transform (40_transform.md R143). -/
inductive Direction where
  | fwd
  | inv
  deriving DecidableEq, Repr

/-- The even-indexed half of a sequence. -/
def evens {α : Type} : List α → List α
  | [] => []
  | [x] => [x]
  | x :: _ :: rest => x :: evens rest

/-- The odd-indexed half of a sequence. -/
def odds {α : Type} : List α → List α
  | [] => []
  | [_] => []
  | _ :: y :: rest => y :: odds rest

/-- The twiddles W of one combine step of length 2^L: k = 0 .. 2^(L-1) - 1 (40_transform.md R142). -/
def twiddles (d : Direction) (L : Nat) : List Cpx :=
  (List.range (2 ^ (L - 1))).map fun k =>
    match d with
    | .fwd => tw L k
    | .inv => twi L k

/-- DIT(x, dir) on 2^L values (40_transform.md R143): transform the even and the odd half, multiply the
odd half by the twiddles, and give the sums followed by the differences. -/
def dit (d : Direction) : Nat → List Cpx → List Cpx
  | 0, x => x
  | L + 1, x =>
    let E := dit d L (evens x)
    let t := List.zipWith cmul (twiddles d (L + 1)) (dit d L (odds x))
    List.zipWith cadd E t ++ List.zipWith csub E t

/-- INVFFT(x) on 2^L values (40_transform.md R144): the inverse transform, then one division by N. -/
def invFft (L : Nat) (x : List Cpx) : List Cpx := (dit .inv L x).map fun c => cscale c (f32 (2 ^ L))

/-- The checks of FFT and IFFT (40_transform.md R145): L first, then the buffer region. -/
def checkTransform (s : State) : Option ErrCode :=
  if Config.fftLog2Max < argU32 s 1 then some .cfg
  else if !inside (argU32 s 0) (2 * 2 ^ argU32 s 1) then some .range
  else none

/-- The buffer at A of 2^L complex values replaced by a transform of itself, in place (40_transform.md
R145, R147). -/
def transformEffect (f : Nat → List Cpx → List Cpx) (s : State) : Effect :=
  let A := argU32 s 0
  let L := argU32 s 1
  { state := s.dWriteWords A (cpxWords (f L (s.dReadCpx A (2 ^ L))))
    r0 := BitVec.ofNat 32 (2 ^ L)
    r1 := 0#32 }

/-- FFT (40_transform.md R145). -/
def execFft (s : State) : Host.Outcome State Fault Refusal :=
  runCommand checkTransform (transformEffect (dit .fwd)) s

/-- IFFT (40_transform.md R146). -/
def execIfft (s : State) : Host.Outcome State Fault Refusal :=
  runCommand checkTransform (transformEffect invFft) s

end Sys2Proof.Machine
end

