-- ==== Sys2Proof/Machine/OverlapAdd.lean ====
section
/-! DEFINITION. The overlap-add engine: OLA contexts in DMEM, OLA_INIT, OLA_INIT.WIN and OLA_APPLY
(41_filter.md R170 to R178). -/

namespace Sys2Proof.Machine

/-- MAGIC, "OLA1" (41_filter.md R170). -/
def olaMagic : Word := 0x4F4C4131#32

/-- CTXSIZE(P, DEPTH), in words (41_filter.md R170). -/
def ctxSize (p depth : Nat) : Nat := 8 + 2 * p + 2 * p * depth

/-- Header word j of a context as a number (41_filter.md R170). -/
def ctxHeader (s : State) (cx j : Nat) : Nat := (s.dRead (cx + j)).toNat

/-- The header conditions of VALIDCTX (41_filter.md R171 (2)). -/
def ctxConsistent (s : State) (cx : Nat) : Bool :=
  let k := ctxHeader s cx 1
  let b := ctxHeader s cx 2
  let p := ctxHeader s cx 3
  let depth := ctxHeader s cx 4
  decide (s.dRead cx = olaMagic) && decide (1 ≤ k) && decide (1 ≤ b) &&
  decide (p = nextPow2 (k + b - 1)) && decide (Nat.log2 p ≤ Config.fftLog2Max) &&
  decide (depth = ceilDiv p b) && decide (ctxHeader s cx 5 < depth) &&
  decide (ctxHeader s cx 6 ≤ 1) && decide (ctxHeader s cx 7 = 0) &&
  inside cx (ctxSize p depth)

/-- VALIDCTX(CX) (41_filter.md R171): E_RANGE where the header does not fit, then E_CTX where it is not
consistent. -/
def validCtx (s : State) (cx : Nat) : Option ErrCode :=
  if !inside cx 8 then some .range
  else if !ctxConsistent s cx then some .ctx
  else none

/-- Where a context lies and the sizes its header gives. No command changes these header words while it
steps the context. -/
structure OlaShape where
  cx    : Nat
  b     : Nat
  p     : Nat
  depth : Nat
  deriving DecidableEq, Repr

/-- The shape of the context at CX, from its header. -/
def ctxShape (s : State) (cx : Nat) : OlaShape :=
  { cx := cx, b := ctxHeader s cx 2, p := ctxHeader s cx 3, depth := ctxHeader s cx 4 }

/-- The region of a context. -/
def OlaShape.region (c : OlaShape) : Region := { base := c.cx, len := ctxSize c.p c.depth }

/-- HBASE(CX) (41_filter.md R174). -/
def OlaShape.hBase (c : OlaShape) : Nat := c.cx + 8

/-- SEGBASE(CX, d) (41_filter.md R174). -/
def OlaShape.segBase (c : OlaShape) (d : Nat) : Nat := c.cx + 8 + 2 * c.p + 2 * c.p * d

/-- A chunk as P complex values, zero-padded (41_filter.md R175), with the Tukey window of fraction α on the
real parts where the context's WIN flag is 1 (R176). -/
def chunkSegment (α : Word) (win : Bool) (p : Nat) (xs : List Word) : List Cpx :=
  let padded := xs ++ List.replicate (p - xs.length) 0x00000000#32
  List.zipWith (fun i x => { re := if win then fmul x (tukey p i α) else x, im := 0x00000000#32 })
    (List.range p) padded

/-- The segment a chunk leaves: transformed, multiplied pointwise by H with the segment first,
transformed back (41_filter.md R175). -/
def filteredSegment (c : OlaShape) (s : State) (xs : List Word) : List Cpx :=
  let L := Nat.log2 c.p
  let spec := dit .fwd L (chunkSegment Config.alphaOla (decide (s.dRead (c.cx + 6) = 1#32)) c.p xs)
  invFft L (List.zipWith cmul spec (s.dReadCpx c.hBase c.p))

/-- Output sample n of a chunk (41_filter.md R177): the real parts of the segments still in flight,
newest first, read after SEG[cur] has been written. -/
def chunkOutput (c : OlaShape) (s : State) (cur n : Nat) : Word :=
  fsum (((List.range c.depth).filter fun i => decide (n + i * c.b < c.p)).map fun i =>
    s.dRead (c.segBase ((cur + c.depth - i) % c.depth) + 2 * (n + i * c.b)))

/-- The state after a chunk and the chunk's B output samples. -/
structure ChunkResult where
  state : State
  out   : List Word
  deriving DecidableEq, Repr

/-- OLA_STEP(CX, in[0..B-1]) (41_filter.md R175). -/
def olaStep (c : OlaShape) (xs : List Word) (s : State) : ChunkResult :=
  let cur := ctxHeader s c.cx 5
  let s1 := s.dWriteWords (c.segBase cur) (cpxWords (filteredSegment c s xs))
  { state := s1.dWrite (c.cx + 5) (BitVec.ofNat 32 ((cur + 1) % c.depth))
    out := (List.range c.b).map (chunkOutput c s1 cur) }

/-- The checks of OLA_INIT in order (41_filter.md R172). -/
def checkOlaInit (s : State) : Option ErrCode :=
  let cx := argU32 s 0
  let ka := argU32 s 1
  let k := argU32 s 2
  let b := argU32 s 3
  let p := nextPow2 (k + b - 1)
  let size := ctxSize p (ceilDiv p b)
  if k = 0 ∨ b = 0 then some .cfg
  else if Config.fftLog2Max < Nat.log2 p then some .cfg
  else if !inside ka k then some .range
  else if !inside cx size then some .range
  else if overlap { base := ka, len := k } { base := cx, len := size } then some .overlap
  else none

/-- The zero-padded kernel as P complex values (41_filter.md R172): the kernel words copied. -/
def paddedKernel (s : State) (ka k p : Nat) : List Cpx :=
  (s.dmem.readWords ka k ++ List.replicate (p - k) 0x00000000#32).map fun x => { re := x, im := 0x00000000#32 }

/-- The words of a new context (41_filter.md R170, R172): header, H, zeroed segments. -/
def newContext (k b p depth : Nat) (win : Bool) (H : List Cpx) : List Word :=
  [olaMagic, BitVec.ofNat 32 k, BitVec.ofNat 32 b, BitVec.ofNat 32 p, BitVec.ofNat 32 depth, 0#32,
    if win then 1#32 else 0#32, 0#32] ++ cpxWords H ++ List.replicate (2 * p * depth) 0#32

/-- The effect of OLA_INIT (41_filter.md R172). -/
def olaInitEffect (win : Bool) (s : State) : Effect :=
  let k := argU32 s 2
  let b := argU32 s 3
  let p := nextPow2 (k + b - 1)
  let depth := ceilDiv p b
  let H := dit .fwd (Nat.log2 p) (paddedKernel s (argU32 s 1) k p)
  { state := s.dWriteWords (argU32 s 0) (newContext k b p depth win H)
    r0 := BitVec.ofNat 32 p
    r1 := BitVec.ofNat 32 depth }

/-- OLA_INIT, WIN = 0 (41_filter.md R172). -/
def execOlaInit (s : State) : Host.Outcome State Fault Refusal := runCommand checkOlaInit (olaInitEffect false) s

/-- OLA_INIT.WIN, WIN = 1 (41_filter.md R172). -/
def execOlaInitWin (s : State) : Host.Outcome State Fault Refusal := runCommand checkOlaInit (olaInitEffect true) s

/-- The checks of OLA_APPLY in order (41_filter.md R178). -/
def checkOlaApply (s : State) : Option ErrCode :=
  let cx := argU32 s 0
  let i := argU32 s 1
  let o := argU32 s 2
  let m := argU32 s 3
  match validCtx s cx with
  | some e => some e
  | none =>
    let c := ctxShape s cx
    if m % c.b ≠ 0 then some .cfg
    else if !inside i m || !inside o m then some .range
    else if i ≠ o ∧ overlap { base := i, len := m } { base := o, len := m } then some .overlap
    else if overlap { base := i, len := m } c.region then some .overlap
    else if overlap { base := o, len := m } c.region then some .overlap
    else none

/-- Chunk j of OLA_APPLY (41_filter.md R178): read whole, stepped, its output written. -/
def olaApplyChunk (c : OlaShape) (i o : Nat) (s : State) (j : Nat) : State :=
  let r := olaStep c (s.dmem.readWords (i + j * c.b) c.b) s
  r.state.dWriteWords (o + j * c.b) r.out

/-- The effect of OLA_APPLY (41_filter.md R178): the chunks in order. -/
def olaApplyEffect (s : State) : Effect :=
  let c := ctxShape s (argU32 s 0)
  let m := argU32 s 3
  let t := (List.range (m / c.b)).foldl (olaApplyChunk c (argU32 s 1) (argU32 s 2)) s
  { state := t
    r0 := BitVec.ofNat 32 (m / c.b)
    r1 := t.dRead (c.cx + 5) }

/-- OLA_APPLY (41_filter.md R178). -/
def execOlaApply (s : State) : Host.Outcome State Fault Refusal := runCommand checkOlaApply olaApplyEffect s

end Sys2Proof.Machine
end

