-- ==== Sys2Proof/Machine/Ring.lean ====
section
/-! DEFINITION. The ring buffer and its coordinator: START, STOP, RING_PUSH, and the drain port
(43_ring.md). -/

namespace Sys2Proof.Machine

/-- The capacity C = RING_MULT · DEV_BLOCK · DEV_CHANNELS on naturals (43_ring.md R243). -/
def ringCapacity (s : State) : Nat := s.ringMult.toNat * s.devBlock.toNat * s.layout.speakers

/-- The checks of START in order (43_ring.md R241). -/
def checkStart (s : State) : Option ErrCode :=
  if s.runState ≠ .stopped then some .state
  else if ringCapacity s = 0 ∨ Config.ringWords < ringCapacity s then some .cfg
  else none

/-- The ring RAM zeroed and the four ring registers set for a capacity (43_ring.md R241, R246). -/
def ringCleared (s : State) (cap : Nat) : State :=
  { s with ring := Ram.zeroed, ringCap := cap, ringRd := 0, ringWr := 0, ringLevel := 0 }

/-- The effect of START (43_ring.md R241): STARTING, the ring zeroed, the reverb rebuilt, RUNNING. -/
def startEffect (s : State) : Effect :=
  let c := ringCapacity s
  let s1 := { s with runState := .starting }
  let s2 := reverbRebuild (ringCleared s1 c)
  { state := { s2 with runState := .running }, r0 := BitVec.ofNat 32 c, r1 := 0#32 }

/-- START (43_ring.md R241). -/
def execStart (s : State) : Host.Outcome State Fault Refusal := runCommand checkStart startEffect s

/-- The effect of STOP (43_ring.md R246): nothing while STOPPED, else the ring discarded with one DRAIN
notification that DRAIN_COUNT does not count (R247). -/
def stopEffect (s : State) : Effect :=
  match s.runState with
  | .stopped => { state := s, r0 := 0#32, r1 := 0#32 }
  | .starting | .running | .stopping =>
    let s1 := { s with runState := .stopping }
    let s2 := (ringCleared s1 0).setPend pendDrain
    { state := { s2 with runState := .stopped }, r0 := BitVec.ofNat 32 s.ringLevel, r1 := 0#32 }

/-- STOP (43_ring.md R246): never refused. -/
def execStop (s : State) : Host.Outcome State Fault Refusal := runCommand (fun _ => none) stopEffect s

/-- The checks of RING_PUSH in order (43_ring.md R251); F > C - level on integers is C < level + F. -/
def checkRingPush (s : State) : Option ErrCode :=
  if s.runState ≠ .running then some .state
  else if !inside (argU32 s 0) (argU32 s 1) then some .range
  else if s.ringCap < s.ringLevel + argU32 s 1 then some .noSpace
  else none

/-- Words written to a ring of `cap` words from offset `at0` on, modulo the capacity (43_ring.md R251). -/
def ringPut (m : Ram) (cap at0 : Nat) : List Word → Ram
  | [] => m
  | w :: ws => ringPut (m.write (at0 % cap) w) cap (at0 + 1) ws

/-- The effect of RING_PUSH (43_ring.md R251): the words copied, the write cursor and the level
advanced. -/
def ringPushEffect (s : State) : Effect :=
  let f := argU32 s 1
  { state := { s with ring := ringPut s.ring s.ringCap s.ringWr (s.dmem.readWords (argU32 s 0) f),
                      ringWr := (s.ringWr + f) % s.ringCap, ringLevel := s.ringLevel + f }
    r0 := BitVec.ofNat 32 f
    r1 := BitVec.ofNat 32 (s.ringLevel + f) }

/-- RING_PUSH (43_ring.md R251). -/
def execRingPush (s : State) : Host.Outcome State Fault Refusal := runCommand checkRingPush ringPushEffect s

/-! ## The drain port -/

/-- The L words from offset `rd` on, modulo the capacity (43_ring.md R258). -/
def ringGet (m : Ram) (cap rd L : Nat) : List Word := (List.range L).map fun i => m.read ((rd + i) % cap)

/-- LEVEL_UPDATE(L) (43_ring.md R259), after the read cursor has moved: an underrun empties the ring,
moves the write cursor to the read cursor and counts an XRUN. -/
def levelUpdate (s : State) (L : Nat) : State :=
  if L ≤ s.ringLevel then { s with ringLevel := s.ringLevel - L }
  else
    { s with ringLevel := 0, ringWr := s.ringRd, irqPend := s.irqPend ||| pendXrun,
             xrunCount := s.xrunCount + 1#32 }

/-- The state after a normal drain of L words (43_ring.md R258): the words zeroed, the read cursor
advanced, the level updated, the notification set and counted. -/
def normalDrain (s : State) (L : Nat) : State :=
  let s1 := { s with ring := ringPut s.ring s.ringCap s.ringRd (List.replicate L 0#32),
                     ringRd := (s.ringRd + L) % s.ringCap }
  let s2 := levelUpdate s1 L
  { s2 with irqPend := s2.irqPend ||| pendDrain, drainCount := s2.drainCount + 1#32 }

/-- One drain request (43_ring.md R256): exactly L words are returned, in `drainData`. While not RUNNING
or for L = 0 nothing changes (R257); a request larger than the ring returns zeros and counts an XRUN
(R260); any other is a normal drain (R258). -/
def drainRequest (s : State) (L : Nat) : State :=
  if s.runState ≠ .running ∨ L = 0 then { s with drainData := List.replicate L 0#32 }
  else if L ≤ s.ringCap then { normalDrain s L with drainData := ringGet s.ring s.ringCap s.ringRd L }
  else
    { s with drainData := List.replicate L 0#32, irqPend := s.irqPend ||| pendXrun,
             xrunCount := s.xrunCount + 1#32 }

/-- The drain request of the source's callback(userData, deviceBuffer, lengthBytes): lengthBytes / 4 samples. A
length that is no multiple of 4 is outside DSPB: the bridge forms no request from it (20_memory.md R98). -/
def callbackRequest (lengthBytes : Nat) : Option Event :=
  if lengthBytes % 4 = 0 then some (.drain (lengthBytes / 4)) else none

/-- The device byte stream of the last drain request: its words in ring order, each little-endian
(20_memory.md R98). -/
def State.deviceBytes (s : State) : List Byte := streamBytes s.drainData

end Sys2Proof.Machine
end

