-- ==== Sys2Proof/Machine/Spatial.lean ====
section
/-! DEFINITION. The spatializer and mixer: PAN_GAIN, PAN_TABLE, MIX with its snapshot, distance and LFE
stages and reverb (42_spatial.md). -/

namespace Sys2Proof.Machine

/-- The effect of PAN_GAIN (42_spatial.md R205): the panned sample and the weight as results. -/
def panGainEffect (s : State) : Effect :=
  let w := panW (argF32 s 1) (argF32 s 2)
  { state := s, r0 := fmul (softClip (argF32 s 0)) w, r1 := w }

/-- PAN_GAIN (42_spatial.md R205): every operand is accepted. -/
def execPanGain (s : State) : Host.Outcome State Fault Refusal := runCommand (fun _ => none) panGainEffect s

/-- The checks of PAN_TABLE in order (42_spatial.md R206). -/
def checkPanTable (s : State) : Option ErrCode :=
  let t := argU32 s 0
  let v := argU32 s 1
  let o := argU32 s 2
  let n := v * s.layout.speakers
  if v = 0 ∨ Config.maxV < v then some .cfg
  else if !inside t v || !inside o n then some .range
  else if overlap { base := t, len := v } { base := o, len := n } then some .overlap
  else none

/-- Row v of the weight matrix: the weight of each speaker, 0 in the LFE slot (42_spatial.md R206). -/
def panRow (l : Layout) (th : Word) : List Word :=
  (List.range l.speakers).map fun sp => if l.isLfeSlot sp then 0x00000000#32 else panW th (l.angle sp)

/-- The effect of PAN_TABLE (42_spatial.md R206): the rows, one for each virtual channel. -/
def panTableEffect (s : State) : Effect :=
  let v := argU32 s 1
  { state := s.dWriteWords (argU32 s 2) ((s.dmem.readWords (argU32 s 0) v).flatMap (panRow s.layout))
    r0 := BitVec.ofNat 32 s.layout.speakers
    r1 := BitVec.ofNat 32 (v * s.layout.speakers) }

/-- PAN_TABLE (42_spatial.md R206). -/
def execPanTable (s : State) : Host.Outcome State Fault Refusal := runCommand checkPanTable panTableEffect s

/-! ## MIX -/

/-- The operands of MIX (42_spatial.md R210). -/
structure MixOperands where
  v   : Nat
  b   : Nat
  x   : Nat
  y   : Nat
  t   : Nat
  cd  : Nat
  cl  : Nat
  scr : Nat
  deriving DecidableEq, Repr

/-- The operands of MIX from ARG0..ARG7 (42_spatial.md R210). -/
def mixOperands (s : State) : MixOperands :=
  { v := argU32 s 0, b := argU32 s 1, x := argU32 s 2, y := argU32 s 3, t := argU32 s 4,
    cd := argU32 s 5, cl := argU32 s 6, scr := argU32 s 7 }

/-- ENP, the enables the command will run with (42_spatial.md R211). -/
def prospective (s : State) : Tunables := if s.changed then s.tun else s.act

/-- The distance path will run (42_spatial.md R211, R221). -/
def runsDistance (s : State) : Bool := (prospective s).distEn

/-- The LFE low-pass path will run (42_spatial.md R211, R222). -/
def runsLfeLowPass (s : State) : Bool := s.layout.hasLfe && (prospective s).lfeLpEn

/-- The LFE context addresses D[CL+v], v = 0 .. V-1 (42_spatial.md R211). -/
def lfeBases (s : State) (m : MixOperands) : List Nat := (s.dmem.readWords m.cl m.v).map BitVec.toNat

/-- The check of one context MIX will step: VALIDCTX, then its block size must be B (42_spatial.md
R211). -/
def checkMixCtx (s : State) (b cx : Nat) : Option ErrCode :=
  match validCtx s cx with
  | some e => some e
  | none => if (ctxShape s cx).b ≠ b then some .ctx else none

/-- The distance part of MIX_CHECKS (42_spatial.md R211). -/
def checkDistance (s : State) (m : MixOperands) : Option ErrCode :=
  if runsDistance s then checkMixCtx s m.b m.cd else none

/-- The LFE part of MIX_CHECKS: the table, then its contexts in increasing v (42_spatial.md R211). -/
def checkLfe (s : State) (m : MixOperands) : Option ErrCode :=
  if runsLfeLowPass s then
    if !inside m.cl m.v then some .range
    else (lfeBases s m).findSome? (checkMixCtx s m.b)
  else none

/-- The list R of MIX_CHECKS (42_spatial.md R211). -/
def mixRegions (s : State) (m : MixOperands) : List Region :=
  [{ base := m.x, len := m.v * m.b }, { base := m.y, len := s.layout.speakers * m.b },
   { base := m.t, len := m.v }, { base := m.scr, len := 3 * m.b }] ++
  (if runsDistance s then [(ctxShape s m.cd).region] else []) ++
  (if runsLfeLowPass s then
    { base := m.cl, len := m.v } :: (lfeBases s m).map fun c => (ctxShape s c).region
   else [])

/-- MIX_CHECKS in order (42_spatial.md R211). -/
def checkMix (s : State) : Option ErrCode :=
  let m := mixOperands s
  if m.v = 0 ∨ Config.maxV < m.v ∨ m.b = 0 then some .cfg
  else if !inside m.x (m.v * m.b) || !inside m.y (s.layout.speakers * m.b) || !inside m.t m.v ||
      !inside m.scr (3 * m.b) then some .range
  else
    match checkDistance s m with
    | some e => some e
    | none =>
      match checkLfe s m with
      | some e => some e
      | none => if anyOverlap (mixRegions s m) then some .overlap else none

/-- SNAPSHOT (42_spatial.md R215): where CHANGED is set, every tunable is copied, the reverb is rebuilt
if the delay or decay bits changed, and the flag is cleared. -/
def snapshot (s : State) : State :=
  if s.changed then
    let s1 := { s with act := s.tun, changed := false }
    if s.tun.revDelay ≠ s.act.revDelay ∨ s.tun.revDecay ≠ s.act.revDecay then reverbRebuild s1 else s1
  else s

/-- The state after a reverb step and the sample it returns. -/
structure ReverbResult where
  state : State
  out   : Word
  deriving DecidableEq, Repr

/-- REVERB_STEP(u) (42_spatial.md R218). -/
def reverbStep (s : State) (u : Word) : ReverbResult :=
  if s.revLen = 0 then { state := s, out := 0x00000000#32 }
  else
    let y := s.rev.read s.revCur
    { state := { s with rev := s.rev.write s.revCur (fadd u (fmul s.act.revDecay y)),
                        revCur := (s.revCur + 1) % s.revLen }
      out := y }

/-- Input sample of frame f and channel v (42_spatial.md R212), from the DMEM the command finds. -/
def mixInput (d : Ram) (m : MixOperands) (f v : Nat) : Word := d.read (m.x + f * m.v + v)

/-- The sum of a frame's channels, channel 0 first (42_spatial.md R213, R214). -/
def channelSum (d : Ram) (m : MixOperands) (f : Nat) : Word := fsum ((List.range m.v).map (mixInput d m f))

/-- DIST_STAGE (42_spatial.md R213): the mono sum in SCR[0..B-1], filtered there by one chunk of CD. -/
def distStage (d : Ram) (m : MixOperands) (c : OlaShape) (s : State) : State :=
  let s1 := s.dWriteWords m.scr ((List.range m.b).map (channelSum d m))
  let r := olaStep c (s1.dmem.readWords m.scr m.b) s1
  r.state.dWriteWords m.scr r.out

/-- One channel of the LFE low-pass (42_spatial.md R214): copied to SCR[B..2B-1], filtered there, added
into SCR[2B..3B-1]. -/
def lfeChannel (d : Ram) (m : MixOperands) (s : State) (vc : Nat × OlaShape) : State :=
  let s1 := s.dWriteWords (m.scr + m.b) ((List.range m.b).map fun f => mixInput d m f vc.1)
  let r := olaStep vc.2 (s1.dmem.readWords (m.scr + m.b) m.b) s1
  let s2 := r.state.dWriteWords (m.scr + m.b) r.out
  s2.dWriteWords (m.scr + 2 * m.b)
    ((List.range m.b).map fun f => fadd (s2.dRead (m.scr + 2 * m.b + f)) (s2.dRead (m.scr + m.b + f)))

/-- LFE_STAGE (42_spatial.md R214): the channels filtered one by one and summed, or the raw sum. -/
def lfeStage (d : Ram) (m : MixOperands) (ctxs : List OlaShape) (s : State) : State :=
  if s.act.lfeLpEn then
    ((List.range m.v).zip ctxs).foldl (lfeChannel d m)
      (s.dWriteWords (m.scr + 2 * m.b) (List.replicate m.b 0x00000000#32))
  else s.dWriteWords (m.scr + 2 * m.b) ((List.range m.b).map (channelSum d m))

/-- The panned sum of a frame for a direct speaker (42_spatial.md R212): channel 0 first. -/
def directSum (d : Ram) (m : MixOperands) (l : Layout) (f sp : Nat) : Word :=
  fsum ((List.range m.v).map fun v =>
    fmul (softClip (mixInput d m f v)) (panW (d.read (m.t + v)) (l.angle sp)))

/-- The sample of frame f and speaker sp, with the frame's reverb output r (42_spatial.md R212, R219,
R220, R223). -/
def speakerSample (d : Ram) (m : MixOperands) (s : State) (r : Word) (f sp : Nat) : Word :=
  if s.layout.isLfeSlot sp then
    if s.act.lfEn then
      fmul s.act.master (fadd (fmul s.act.lfe (s.dRead (m.scr + 2 * m.b + f))) r)
    else 0x00000000#32
  else
    if s.act.hfEn then
      fmul s.act.master (fadd (fmul s.act.base (directSum d m s.layout f sp)) r)
    else 0x00000000#32

/-- FRAME_OUT(f) (42_spatial.md R212): one reverb step if the distance path is on, then the S samples of
the frame. -/
def frameOut (d : Ram) (m : MixOperands) (s : State) (f : Nat) : State :=
  let r :=
    if s.act.distEn then reverbStep s (fmul s.act.base (s.dRead (m.scr + f)))
    else { state := s, out := 0x00000000#32 }
  r.state.dWriteWords (m.y + f * s.layout.speakers)
    ((List.range s.layout.speakers).map (speakerSample d m r.state r.out f))

/-- The stages of MIX before the frames (42_spatial.md R210): snapshot, distance stage, LFE stage. The
contexts are those the checks found (log 12). -/
def mixStages (s : State) : State :=
  let m := mixOperands s
  let s1 := snapshot s
  let s2 := if s1.act.distEn then distStage s.dmem m (ctxShape s m.cd) s1 else s1
  if s.layout.hasLfe then lfeStage s.dmem m ((lfeBases s m).map (ctxShape s)) s2 else s2

/-- The effect of MIX (42_spatial.md R210): the stages, then the frames in order. -/
def mixEffect (s : State) : Effect :=
  let m := mixOperands s
  { state := (List.range m.b).foldl (frameOut s.dmem m) (mixStages s)
    r0 := BitVec.ofNat 32 (s.layout.speakers * m.b)
    r1 := BitVec.ofNat 32 s.layout.speakers }

/-- MIX (42_spatial.md R210). -/
def execMix (s : State) : Host.Outcome State Fault Refusal := runCommand checkMix mixEffect s

end Sys2Proof.Machine
end

