-- ==== Sys2Proof/Machine/Dispatch.lean ====
section
/-! DEFINITION. The dispatch: one arm per command (30_encoding.md R115). -/

namespace Sys2Proof.Machine

def exec (i : Instr) (s : State) : Host.Outcome State Fault Refusal :=
  match i with
  | .nop => Sys2Proof.Machine.execNop s
  | .fft => Sys2Proof.Machine.execFft s
  | .ifft => Sys2Proof.Machine.execIfft s
  | .firDesign => Sys2Proof.Machine.execFirDesign s
  | .firDesignHp => Sys2Proof.Machine.execFirDesignHp s
  | .olaInit => Sys2Proof.Machine.execOlaInit s
  | .olaInitWin => Sys2Proof.Machine.execOlaInitWin s
  | .olaApply => Sys2Proof.Machine.execOlaApply s
  | .panGain => Sys2Proof.Machine.execPanGain s
  | .panTable => Sys2Proof.Machine.execPanTable s
  | .mix => Sys2Proof.Machine.execMix s
  | .start => Sys2Proof.Machine.execStart s
  | .stop => Sys2Proof.Machine.execStop s
  | .ringPush => Sys2Proof.Machine.execRingPush s

end Sys2Proof.Machine
end

