-- ==== Sys2Proof/Machine/Step.lean ====
section
/-! DEFINITION. One step of DSPB: the next event of the schedule, or an engine turn when none is left
(20_memory.md R91, 60_exceptions.md R270, 70_reset_and_hazards.md R321). -/

namespace Sys2Proof.Machine

/-- The engine step (60_exceptions.md R270): a pending word is decoded (30_encoding.md R112) and its
command executed; a word that is no command completes with its error. An idle engine takes no step:
the state stays. -/
def engineStep (s : State) : Host.Outcome State Fault Refusal :=
  match s.eng with
  | .idle => .next s
  | .pending cw =>
    match decode cw with
    | .error e => .next (raiseError s (decodeErrCode e))
    | .ok i => exec i s

/-- One atomic step of one agent (20_memory.md R91): the first event of `inputs`, which is taken off;
with no event left the engine moves (log 7). -/
def step (s : State) : Host.Outcome State Fault Refusal :=
  match s.inputs with
  | [] => engineStep s
  | e :: rest =>
    let s1 := { s with inputs := rest }
    match e with
    | .reset => .next (applyReset s1)
    | .read addr size => .next (hostRead s1 addr size)
    | .write addr size v => .next (hostWrite s1 addr size v)
    | .drain samples => .next (drainRequest s1 samples)
    | .engine => engineStep s1

/-- The state whose very next step executes the given command word: the word accepted as a CMD write of
it is on an idle engine (10_state.md R45, R43), and the engine's turn next. DSPB fetches nothing
(R31): the program is the host's sequence of such writes (log 7). -/
def State.withFetchWord (s : State) (nbits w : Nat) : State :=
  let cw : Word := BitVec.ofNat 32 (w % 2 ^ nbits)
  { s with eng := .pending cw, cmd := cw, argl := s.args, inputs := .engine :: s.inputs }

end Sys2Proof.Machine
end

