-- ==== Sys2Proof/Machine/Assembler.lean ====
section
/-! DEFINITION. The assembler of host programs: literals and the expansion of statements and
pseudo-instructions to bus accesses (30_encoding.md R122, R123). -/

namespace Sys2Proof.Machine

/-- The word of a literal (30_encoding.md R122): a u32, the binary32 nearest to a decimal literal (ties
to even), or an exact pattern. -/
def literalWord : Literal → Word
  | .int n => BitVec.ofNat 32 n
  | .dec neg digits exp10 =>
    if 0 ≤ exp10 then fPack neg (roundMag (digits * 10 ^ exp10.toNat * 2 ^ 149) 1)
    else fPack neg (roundMag (digits * 2 ^ 149) (10 ^ (-exp10).toNat))
  | .raw w => w

/-- MemWrite at a CSR offset or a byte address below 2^32. -/
def wrEvent (addr : Nat) (v : Word) : Event := .write (BitVec.ofNat 32 addr) 4 v

/-- MemRead at a byte address below 2^32. -/
def rdEvent (addr : Nat) : Event := .read (BitVec.ofNat 32 addr) 4

/-- The ARG writes of a command statement, ARGi first to last, from index i on (30_encoding.md R122). -/
def argWrites (i : Nat) : List Literal → List Event
  | [] => []
  | op :: ops => wrEvent (0x040 + 4 * i) (literalWord op) :: argWrites (i + 1) ops

/-- A command statement: the ARG writes in order, then the CMD write (30_encoding.md R122). -/
def commandEvents (i : Instr) (ops : List Literal) : List Event :=
  argWrites 0 ops ++ [wrEvent 0x020 (encode i)]

/-- The expansion of a statement (30_encoding.md R122, R123). WAIT and WAITIRQ are polling loops: the
polls that fail change nothing but the returned word (20_memory.md R88), so the last poll stands for
the loop, with an engine turn before it in WAIT (log 15). -/
def statementEvents : Statement → List Event
  | .command i ops => commandEvents i ops
  | .wr off v => [wrEvent off (literalWord v)]
  | .rd off => [rdEvent off]
  | .dw a v => [wrEvent (dmemWindow + 4 * a) (literalWord v)]
  | .dr a => [rdEvent (dmemWindow + 4 * a)]
  | .wait => [.engine, rdEvent 0x024]
  | .run i ops => commandEvents i ops ++ [.engine, rdEvent 0x024]
  | .clrIrq m => [wrEvent 0x028 (literalWord m)]
  | .waitIrq _ => [rdEvent 0x028]
  | .drain samples => [.drain samples]

/-- The events of a host program, statement after statement. -/
def programEvents (p : List Statement) : List Event := p.flatMap statementEvents

end Sys2Proof.Machine
end

