-- ==== Sys2Proof/Safety.lean ====
section
/-! DEFINITION. What claims about DSPB are stated in: the invariant of its states between steps, the
check list and the effect of each command, and what a frame leaves unchanged. -/

namespace Sys2Proof.Machine

/-- The check list of each command (60_exceptions.md R279). -/
def checkOf : Instr → State → Option ErrCode
  | .nop | .panGain | .stop => fun _ => none
  | .fft | .ifft => checkTransform
  | .firDesign | .firDesignHp => checkFir
  | .olaInit | .olaInitWin => checkOlaInit
  | .olaApply => checkOlaApply
  | .panTable => checkPanTable
  | .mix => checkMix
  | .start => checkStart
  | .ringPush => checkRingPush

/-- The invariant of every state between steps: the memories are canonical, RUNSTATE shows only STOPPED
or RUNNING (10_state.md R47), the ring rules of 10_state.md R72 and 43_ring.md R263, the reverb bounds
of 10_state.md R65, and CMD is the word of a pending command (R45). -/
structure Inv (s : State) : Prop where
  dmemCanonical : s.dmem.wf Config.dmemWords = true
  ringCanonical : s.ring.wf Config.ringWords = true
  revCanonical  : s.rev.wf Config.revWords = true
  visible       : s.runState = .stopped ∨ s.runState = .running
  stoppedEmpty  : s.runState = .stopped → s.ringCap = 0 ∧ s.ringRd = 0 ∧ s.ringWr = 0 ∧ s.ringLevel = 0
  capBound      : s.runState = .running → 0 < s.ringCap ∧ s.ringCap ≤ Config.ringWords
  readCursor    : s.runState = .running → s.ringRd < s.ringCap
  levelBound    : s.runState = .running → s.ringLevel ≤ s.ringCap
  writeCursor   : s.runState = .running → s.ringWr = (s.ringRd + s.ringLevel) % s.ringCap
  freeSpaceZero : s.runState = .running → ∀ j, j < s.ringCap - s.ringLevel →
      s.ring.read ((s.ringWr + j) % s.ringCap) = 0#32
  beyondZero    : s.runState = .running → ∀ i, s.ringCap ≤ i → s.ring.read i = 0#32
  revLenBound   : s.revLen ≤ Config.revWords
  revCurBound   : s.revCur < max s.revLen 1
  revZeroed     : 0 < s.revLen → s.rev.base = .zero
  cmdHeld       : ∀ cw, s.eng = .pending cw → s.cmd = cw

/-- The registers only the host or the outside writes: no command changes one. -/
def HostSideUnchanged (s t : State) : Prop :=
  t.args = s.args ∧ t.argl = s.argl ∧ t.cmd = s.cmd ∧ t.irqEn = s.irqEn ∧ t.devFs = s.devFs ∧
  t.layout = s.layout ∧ t.devBlock = s.devBlock ∧ t.ringMult = s.ringMult ∧ t.tun = s.tun ∧
  t.drainCount = s.drainCount ∧ t.xrunCount = s.xrunCount ∧
  t.rdata = s.rdata ∧ t.drainData = s.drainData ∧ t.inputs = s.inputs ∧ t.resets = s.resets

/-- The coordinator, the ring registers and the ring RAM unchanged. -/
def RingUnchanged (s t : State) : Prop :=
  t.runState = s.runState ∧ t.ringCap = s.ringCap ∧ t.ringRd = s.ringRd ∧ t.ringWr = s.ringWr ∧
  t.ringLevel = s.ringLevel ∧ t.ring = s.ring

/-- The reverb registers and the reverb RAM unchanged. -/
def ReverbUnchanged (s t : State) : Prop := t.revLen = s.revLen ∧ t.revCur = s.revCur ∧ t.rev = s.rev

/-- The active tunables and SETTINGS.CHANGED unchanged. -/
def SettingsUnchanged (s t : State) : Prop := t.act = s.act ∧ t.changed = s.changed

/-- The address lies in region(base, len) (00_scope.md R14). -/
def InRegion (base len a : Nat) : Prop := base ≤ a ∧ a < base + len

/-- Every DMEM word outside the given addresses reads as before. -/
def DmemUnchangedOutside (s t : State) (written : Nat → Prop) : Prop :=
  ∀ a, ¬ written a → t.dRead a = s.dRead a

/-- Every DMEM word reads as before. -/
def DmemUnchanged (s t : State) : Prop := ∀ a, t.dRead a = s.dRead a

/-- What a successful completion writes (60_exceptions.md R272): the engine idle, STATUS.ERR = 0, the
results, and DONE alone added to IRQ_PEND. -/
def CompletedOk (s t : State) (r0 r1 : Word) : Prop :=
  t.eng = .idle ∧ t.err = none ∧ t.result0 = r0 ∧ t.result1 = r1 ∧ t.irqPend = s.irqPend ||| 0x01#6

/-- What a command that raised E_X leaves (60_exceptions.md R272): the code, both results 0, DONE and ERR
added to IRQ_PEND, the engine idle, and nothing else changed. -/
def refusedState (s : State) (e : ErrCode) : State :=
  { s with eng := .idle, err := some e, result0 := 0#32, result1 := 0#32, irqPend := s.irqPend ||| 0x03#6 }

/-- The next step is a turn of the engine: no event is left, or an engine turn is the next one. -/
def EngineTurn (s : State) : Prop := s.inputs = [] ∨ s.inputs.head? = some .engine

/-- The next step executes a pending command word, whatever it decodes to. -/
def Completes (s : State) : Prop := EngineTurn s ∧ s.eng ≠ .idle

/-- The next step executes the given command. -/
def Executes (s : State) (i : Instr) : Prop := EngineTurn s ∧ ∃ cw, s.eng = .pending cw ∧ decode cw = .ok i

/-- The next step is the given outside event. -/
def NextEvent (s : State) (e : Event) : Prop := s.inputs.head? = some e

/-- A host access that gets a bus error (60_exceptions.md R278): not 4 bytes, misaligned, outside the CSR and
DMEM windows, or in the DMEM window while a command is pending. -/
def BusErrorAccess (s : State) (addr : BitVec 32) (size : Nat) : Prop :=
  size ≠ 4 ∨ addr.toNat % 4 ≠ 0 ∨
  (0x1000 ≤ addr.toNat ∧ ¬ (0x01000000 ≤ addr.toNat ∧ addr.toNat < 0x01000000 + 4 * Config.dmemWords)) ∨
  (0x01000000 ≤ addr.toNat ∧ addr.toNat < 0x01000000 + 4 * Config.dmemWords ∧ s.eng ≠ .idle)

/-- Chunks passed one after another through one context (41_filter.md R175, R178): the state left, and the
outputs in order. -/
def olaRun (c : OlaShape) : State → List (List Word) → ChunkResult
  | s, [] => { state := s, out := [] }
  | s, xs :: rest =>
    let r := olaStep c xs s
    let q := olaRun c r.state rest
    { state := q.state, out := r.out ++ q.out }

/-- Inputs passed one after another through the reverb (42_spatial.md R218): the state left, and the
outputs in order. -/
def reverbRun : State → List Word → ChunkResult
  | s, [] => { state := s, out := [] }
  | s, u :: us =>
    let r := reverbStep s u
    let q := reverbRun r.state us
    { state := q.state, out := r.out :: q.out }

/-- A DMEM word that `n` chunks through the context at CX write (41_filter.md R175): a word of one of the
next n segments from the cursor on, or the cursor itself. -/
def ChunksWrite (s : State) (cx n a : Nat) : Prop :=
  let p := ctxHeader s cx 3
  let depth := ctxHeader s cx 4
  let cur := ctxHeader s cx 5
  (∃ j, j < n ∧ InRegion (cx + 8 + 2 * p + 2 * p * ((cur + j) % depth)) (2 * p) a) ∨ (0 < n ∧ a = cx + 5)

/-- A DMEM word a MIX that passes its checks writes (42_spatial.md R210, R221, R222): the output; with the
distance path on SCR[0..B-1] and one chunk of the context at CD; in 5.1 and 7.1 SCR[2B..3B-1]; with the
LFE low-pass on SCR[B..2B-1] and one chunk of each context D[CL+v]. -/
def MixWrites (s : State) (a : Nat) : Prop :=
  let m := mixOperands s
  InRegion m.y (s.layout.speakers * m.b) a ∨
  (runsDistance s = true ∧ (InRegion m.scr m.b a ∨ ChunksWrite s m.cd 1 a)) ∨
  (s.layout.hasLfe = true ∧ InRegion (m.scr + 2 * m.b) m.b a) ∨
  (runsLfeLowPass s = true ∧
    (InRegion (m.scr + m.b) m.b a ∨ ∃ v, v < m.v ∧ ChunksWrite s (s.dRead (m.cl + v)).toNat 1 a))

end Sys2Proof.Machine
end

