-- ==== Sys2Proof/Certificates/Slice0/Obligations.lean ====
section
/-! DEFINITION. The statements for the provers. Each formalises rules of spec/; OBLIGATIONS.json gives the
rules and their sentences. Every command completes, so a statement of the form "exec i s = .next t and, as
the checks decide, t is refused or t is the effect" holds of every state and says for each state which. -/

open Sys2Proof Sys2Proof.Machine

/-! ## Encoding -/

/-- 30_encoding.md R115: the command word of each assigned opcode with F = 0 is its OP value, and the two words
with F = 1. -/
def Obligations.DecodesSpecWords : Prop :=
  decode 0x00000000#32 = .ok .nop ∧ decode 0x00000001#32 = .ok .fft ∧ decode 0x00000002#32 = .ok .ifft ∧
  decode 0x00000010#32 = .ok .firDesign ∧ decode 0x00000110#32 = .ok .firDesignHp ∧
  decode 0x00000011#32 = .ok .olaInit ∧ decode 0x00000111#32 = .ok .olaInitWin ∧
  decode 0x00000012#32 = .ok .olaApply ∧ decode 0x00000020#32 = .ok .panGain ∧
  decode 0x00000021#32 = .ok .panTable ∧ decode 0x00000022#32 = .ok .mix ∧
  decode 0x00000030#32 = .ok .start ∧ decode 0x00000031#32 = .ok .stop ∧ decode 0x00000032#32 = .ok .ringPush

/-- Decode and encode agree for every instruction and every one of the 2^32 words (30_encoding.md R118): the
decoder reads an instruction from a word exactly when the word is that instruction's encoding. -/
def Obligations.DecodeInvertsEncode : Prop := ∀ (w : Word) (i : Instr), decode w = .ok i ↔ w = encode i

/-- 30_encoding.md R112: what executing a pending word does, decode first, in the order of the rule. -/
def Obligations.DecodeOrder : Prop :=
  ∀ (s : State) (cw : Word), s.eng = .pending cw →
    let op := cw.toNat % 256
    if op ∉ [0x00, 0x01, 0x02, 0x10, 0x11, 0x12, 0x20, 0x21, 0x22, 0x30, 0x31, 0x32] then
      engineStep s = .next (refusedState s .illegal)
    else if cw.toNat / 512 ≠ 0 then engineStep s = .next (refusedState s .rsvd)
    else if cw.toNat / 256 % 2 = 1 ∧ op ∉ [0x10, 0x11] then engineStep s = .next (refusedState s .rsvd)
    else ∃ i, cw = encode i ∧ engineStep s = exec i s

/-! ## Steps -/

/-- A step runs the decoded command (60_exceptions.md R270): when it is the engine's turn, the step is the engine's in
the state with that turn taken off the schedule. There a pending word that decodes to i executes i, one that does not
decode is refused with its code (30_encoding.md R112), and an idle engine leaves the state. The schedule, and the
engine's turn when nothing is left in it, are the model's (log 7). -/
def Obligations.StepRunsDecodedCommand : Prop :=
  ∀ s : State, let s1 := { s with inputs := s.inputs.tail }
    (∀ i, Executes s i → step s = exec i s1) ∧
    (EngineTurn s →
      step s = engineStep s1 ∧
      (s.eng = .idle → step s = .next s1) ∧
      ∀ cw, s.eng = .pending cw →
        (decode cw = .error .illegal → step s = .next (refusedState s1 .illegal)) ∧
        (decode cw = .error .rsvd → step s = .next (refusedState s1 .rsvd)))

/-- A step is one host access, one drain request, a reset, or a turn of the engine (20_memory.md R91); an idle
engine takes no step (60_exceptions.md R270). The order of steps is the model's schedule (log 7). -/
def Obligations.StepTakesEvent : Prop :=
  ∀ (s : State) (e : Event), NextEvent s e →
    let s1 := { s with inputs := s.inputs.tail }
    (e = .reset → step s = .next (applyReset s1)) ∧
    (∀ addr size, e = .read addr size → step s = .next (hostRead s1 addr size)) ∧
    (∀ addr size v, e = .write addr size v → step s = .next (hostWrite s1 addr size v)) ∧
    (∀ n, e = .drain n → step s = .next (drainRequest s1 n)) ∧
    (e = .engine → s.eng = .idle → step s = .next s1)

/-- Nothing stops DSPB (60_exceptions.md R281, 70_reset_and_hazards.md R310): every step of every state answers
a next state. -/
def Obligations.StepAlwaysAnswers : Prop := ∀ s : State, ∃ t, step s = .next t

/-- Progress (70_reset_and_hazards.md R321): a pending command is completed, or discarded by a reset, within as
many steps as there are events left and one more: the model's schedule (log 7) gives the engine the turn then. -/
def Obligations.PendingCommandCompletes : Prop :=
  ∀ (s : State), s.eng ≠ .idle → ∃ k t, k ≤ s.inputs.length + 1 ∧ core.run k s = .next t ∧ t.eng = .idle

/-- Completion and precise errors (60_exceptions.md R272, R273): every command of every state completes, with
the code of its first failing check and nothing else changed, or with its effect, STATUS.ERR = 0 and added to IRQ_PEND
DONE and DRAIN for a STOP that does not find the ring STOPPED, DONE alone otherwise; and no command writes a register that only the host
or the device side writes (10_state.md R42, R50 to R54, R59, R60). -/
def Obligations.EveryCommandCompletes : Prop :=
  ∀ (i : Instr) (s : State), ∃ t, exec i s = .next t ∧ HostSideUnchanged s t ∧
    match checkOf i s with
    | some e => t = refusedState s e
    | none => t.eng = .idle ∧ t.err = none ∧
        t.irqPend = s.irqPend ||| (if i = .stop ∧ s.runState ≠ .stopped then 0x05#6 else 0x01#6)

/-- 10_state.md R43: acceptance latches ARG0..ARG7; a later ARG write leaves the latched arguments; a command
reads only the latched arguments, so other ARG values change nothing but themselves. The two operand forms (30_encoding.md
R117) read the latched argument of their index. -/
def Obligations.CommandReadsLatchedArguments : Prop :=
  (∀ (s : State) (v : Word), s.eng = .idle → (hostWrite s 0x020#32 4 v).argl = s.args) ∧
  (∀ (s : State) (k : Fin 8) (v : Word),
    hostWrite s (BitVec.ofNat 32 (0x040 + 4 * k.val)) 4 v = { s with args := s.args.set k v }) ∧
  (∀ (i : Instr) (s t : State) (a : Vector Word 8), exec i s = .next t →
    exec i { s with args := a } = .next { t with args := a }) ∧
  (∀ (s : State) (k : Fin 8), argU32 s k = (s.argl[k]).toNat ∧ argF32 s k = s.argl[k])

/-! ## The host port -/

/-- The reset value of every CSR, read at its offset (10_state.md R33). -/
def Obligations.ResetRegisterValues : Prop :=
  ∀ p ∈ ([(0x000, 0x44535042#32), (0x004, 0x00000100#32), (0x008, 0x00040000#32), (0x00C, 0x00010000#32),
      (0x010, 0x00020000#32), (0x014, 0x3FFF1010#32), (0x020, 0#32), (0x024, 0#32), (0x028, 0#32), (0x02C, 0#32),
      (0x030, 0#32), (0x034, 0#32), (0x040, 0#32), (0x044, 0#32), (0x048, 0#32), (0x04C, 0#32), (0x050, 0#32),
      (0x054, 0#32), (0x058, 0#32), (0x05C, 0#32), (0x080, 0x0000AC44#32), (0x084, 2#32), (0x088, 0x00000200#32),
      (0x08C, 4#32), (0x090, 0#32), (0x094, 0#32), (0x098, 0#32), (0x09C, 0#32), (0x0A0, 0#32), (0x0A4, 0#32),
      (0x0A8, 0#32), (0x0C0, 0x3F800000#32), (0x0C4, 0x3F800000#32), (0x0C8, 0x3F800000#32), (0x0CC, 0#32),
      (0x0D0, 0#32), (0x0D4, 3#32), (0x0D8, 0#32), (0x0E0, 0x3F800000#32), (0x0E4, 0x3F800000#32),
      (0x0E8, 0x3F800000#32), (0x0EC, 0#32), (0x0F0, 0#32), (0x0F4, 3#32), (0x0F8, 0#32), (0x0FC, 0#32)] :
      List (Nat × Word)),
    (hostRead State.reset (BitVec.ofNat 32 p.1) 4).rdata = p.2

/-- 10_state.md R40, R41: the identification and parameter registers, in every state. -/
def Obligations.IdentificationRegisters : Prop :=
  ∀ (s : State) (v : Word),
    (hostRead s 0x000#32 4).rdata = 0x44535042#32 ∧ (hostRead s 0x004#32 4).rdata = 0x00000100#32 ∧
    (hostRead s 0x008#32 4).rdata.toNat = Config.dmemWords ∧ (hostRead s 0x00C#32 4).rdata.toNat = Config.ringWords ∧
    (hostRead s 0x010#32 4).rdata.toNat = Config.revWords ∧
    (hostRead s 0x014#32 4).rdata.toNat = Config.fftLog2Max + 2 ^ 8 * Config.maxV + 2 ^ 16 * Config.firMaxTaps ∧
    (hostRead s 0x014#32 4).rdata = 0x3FFF1010#32 ∧
    ∀ off ∈ [0x000, 0x004, 0x008, 0x00C, 0x010, 0x014], hostWrite s (BitVec.ofNat 32 off) 4 v = s

/-- The reset input (70_reset_and_hazards.md R300, R301): from every state, every CSR as after power-on, the
pending command discarded, the latched arguments zero, the interrupt output low, a drain served as STOPPED, and every
memory word unspecified anew: it reads as the model's free value for that reset (log 4). -/
def Obligations.ResetEvent : Prop :=
  ∀ s : State, let t := applyReset s
    t.eng = .idle ∧ (∀ k : Fin 8, t.argl[k] = 0#32) ∧ irqLevel t = false ∧
    (∀ off, off < 0x1000 → off % 4 = 0 →
      (hostRead t (BitVec.ofNat 32 off) 4).rdata = (hostRead State.reset (BitVec.ofNat 32 off) 4).rdata) ∧
    (∀ n, drainRequest t n = { t with drainData := List.replicate n 0#32 }) ∧
    t.dmem.cells = [] ∧ t.ring.cells = [] ∧ t.rev.cells = [] ∧
    ∀ a, t.dRead a = Config.powerOnWord .dmem (s.resets + 1) a ∧ t.ring.read a = Config.powerOnWord .ring (s.resets + 1) a ∧
      t.rev.read a = Config.powerOnWord .rev (s.resets + 1) a

/-- 10_state.md R45: a CMD write is accepted by an idle engine whatever the word, and otherwise lost with CMD_OVF;
a read returns the last accepted word. -/
def Obligations.CmdWrite : Prop :=
  ∀ (s : State) (v : Word),
    (s.eng = .idle →
      hostWrite s 0x020#32 4 v = { s with cmd := v, argl := s.args, eng := .pending v } ∧
      (hostRead (hostWrite s 0x020#32 4 v) 0x024#32 4).rdata.getLsbD 0 = true) ∧
    (s.eng ≠ .idle → hostWrite s 0x020#32 4 v = { s with irqPend := s.irqPend ||| 0x10#6 }) ∧
    (hostRead s 0x020#32 4).rdata = s.cmd

/-- 20_memory.md R81, R86: an access that is not 4 bytes, not aligned or unmapped, and a DMEM access while a
command is pending (R87), gets a bus error: a read returns 0, a write changes nothing, BUS_ERR is set. -/
def Obligations.BusErrors : Prop :=
  ∀ (s : State) (addr : BitVec 32) (size : Nat) (v : Word), BusErrorAccess s addr size →
    hostRead s addr size = { s with irqPend := s.irqPend ||| 0x20#6, rdata := 0#32 } ∧
    hostWrite s addr size v = { s with irqPend := s.irqPend ||| 0x20#6 }

/-- 20_memory.md R85: with the engine idle, the DMEM window reads and writes word a at byte address
0x0100_0000 + 4a, and no other word. With R82, the byte order of every access: byte i of a word read or written at an
address is its bits 8i+7 .. 8i, four bytes written by a byte-addressed host are the word whose bytes they are and read
back, and bit 31 is the sign of a sample. -/
def Obligations.DmemHostAccess : Prop :=
  (∀ (s : State) (a : Nat) (v : Word), s.eng = .idle → a < Config.dmemWords →
    let addr := BitVec.ofNat 32 (0x01000000 + 4 * a)
    let t := hostWrite s addr 4 v
    hostRead s addr 4 = { s with rdata := s.dRead a } ∧
    t = { s with dmem := t.dmem } ∧ t.dRead a = v ∧ (∀ b, b ≠ a → t.dRead b = s.dRead b) ∧
    (hostRead t addr 4).rdata = v ∧
    ∀ b0 b1 b2 b3 : Byte, let u := hostWriteBytes s addr [b0, b1, b2, b3]
      u = hostWrite s addr 4 (b3 ++ b2 ++ b1 ++ b0) ∧ hostReadBytes u addr 4 = [b0, b1, b2, b3]) ∧
  (∀ (s : State) (addr : BitVec 32) (size : Nat),
    (hostReadBytes s addr size).length = 4 ∧
    ∀ i k, i < 4 → k < 8 →
      ((hostReadBytes s addr size).getD i 0#8).getLsbD k = (hostRead s addr size).rdata.getLsbD (8 * i + k)) ∧
  (∀ (s : State) (addr : BitVec 32) (v : Word), hostWriteBytes s addr (wordBytes v) = hostWrite s addr 4 v) ∧
  ∀ x : Word, fSign x = x.getLsbD 31

/-- 10_state.md R35: a CSR offset the map does not list reads 0 and ignores writes, without a bus error. -/
def Obligations.ReservedOffsets : Prop :=
  ∀ (s : State) (off : Nat) (v : Word), off < 0x1000 → off % 4 = 0 →
    off ∉ [0x000, 0x004, 0x008, 0x00C, 0x010, 0x014, 0x020, 0x024, 0x028, 0x02C, 0x030, 0x034,
      0x040, 0x044, 0x048, 0x04C, 0x050, 0x054, 0x058, 0x05C, 0x080, 0x084, 0x088, 0x08C, 0x090, 0x094, 0x098, 0x09C,
      0x0A0, 0x0A4, 0x0A8, 0x0C0, 0x0C4, 0x0C8, 0x0CC, 0x0D0, 0x0D4, 0x0D8, 0x0E0, 0x0E4, 0x0E8, 0x0EC, 0x0F0, 0x0F4,
      0x0F8, 0x0FC] →
    hostRead s (BitVec.ofNat 32 off) 4 = { s with rdata := 0#32 } ∧ hostWrite s (BitVec.ofNat 32 off) 4 v = s

/-- Reads have no side effect and are idempotent (20_memory.md R88): a read that gets no bus error changes the
returned word only, and the same read again returns the same word. -/
def Obligations.ReadsHaveNoSideEffects : Prop :=
  ∀ (s : State) (addr : BitVec 32) (size : Nat), ¬ BusErrorAccess s addr size →
    hostRead s addr size = { s with rdata := (hostRead s addr size).rdata } ∧
    hostRead (hostRead s addr size) addr size = hostRead s addr size

/-- The access types RO and RW (10_state.md R34, with 20_memory.md R88): a write to a read-only register changes nothing;
a register the host may write at any time takes the writable bits written and reads them back, and but for a TUN
register (TunWriteSetsChanged) nothing else changes. And what each register with state behind it reads, in every state
(the fixed registers, CMD, STATUS, IRQ_PEND, RING_SPACE and SETTINGS have statements of their own); the counts and offsets
under the invariant, which bounds them (log 14). -/
def Obligations.AccessTypes : Prop :=
  ∀ (s : State) (v : Word),
    (∀ off ∈ [0x024, 0x030, 0x034, 0x090, 0x094, 0x098, 0x09C, 0x0A0, 0x0A4, 0x0A8, 0x0E0, 0x0E4, 0x0E8, 0x0EC,
      0x0F0, 0x0F4, 0x0F8, 0x0FC], hostWrite s (BitVec.ofNat 32 off) 4 v = s) ∧
    (∀ off ∈ [0x040, 0x044, 0x048, 0x04C, 0x050, 0x054, 0x058, 0x05C, 0x0C0, 0x0C4, 0x0C8, 0x0CC, 0x0D0],
      (hostRead (hostWrite s (BitVec.ofNat 32 off) 4 v) (BitVec.ofNat 32 off) 4).rdata = v) ∧
    (∀ k : Fin 8, hostWrite s (BitVec.ofNat 32 (0x040 + 4 * k.val)) 4 v = { s with args := s.args.set k v }) ∧
    hostWrite s 0x02C#32 4 v = { s with irqEn := v.truncate 6 } ∧
    (hostRead (hostWrite s 0x02C#32 4 v) 0x02C#32 4).rdata = v &&& 0x3F#32 ∧
    (hostRead (hostWrite s 0x0D4#32 4 v) 0x0D4#32 4).rdata = v &&& 0xF#32 ∧
    (∀ p ∈ ([(0x030, s.result0), (0x034, s.result1), (0x080, s.devFs), (0x088, s.devBlock), (0x08C, s.ringMult),
        (0x0A4, s.drainCount), (0x0A8, s.xrunCount), (0x0C0, s.tun.master), (0x0C4, s.tun.lfe), (0x0C8, s.tun.base),
        (0x0CC, s.tun.revDelay), (0x0D0, s.tun.revDecay), (0x0E0, s.act.master), (0x0E4, s.act.lfe), (0x0E8, s.act.base),
        (0x0EC, s.act.revDelay), (0x0F0, s.act.revDecay)] : List (Nat × Word)),
      (hostRead s (BitVec.ofNat 32 p.1) 4).rdata = p.2) ∧
    (∀ k : Fin 8, (hostRead s (BitVec.ofNat 32 (0x040 + 4 * k.val)) 4).rdata = s.args[k]) ∧
    (∀ p ∈ [(0x02C, s.irqEn.toNat), (0x084, s.layout.speakers), (0x0D4, s.tun.enables.toNat), (0x0F4, s.act.enables.toNat)],
      (hostRead s (BitVec.ofNat 32 p.1) 4).rdata.toNat = p.2) ∧
    (Inv s →
      ∀ p ∈ [(0x090, s.ringCap), (0x094, s.ringRd), (0x098, s.ringWr), (0x09C, s.ringLevel), (0x0F8, s.revLen),
        (0x0FC, s.revCur)], (hostRead s (BitVec.ofNat 32 p.1) 4).rdata.toNat = p.2)

/-- 10_state.md R52, with the RWS registers R51, R53, R54: while STOPPED a write is stored and nothing else changes, to
DEV_CHANNELS only one of the legal values 1, 2, 6, 8, which selects the layout; otherwise the write is ignored. -/
def Obligations.DeviceRegisterWrites : Prop :=
  ∀ (s : State) (v : Word),
    hostWrite s 0x080#32 4 v = (if s.runState = .stopped then { s with devFs := v } else s) ∧
    hostWrite s 0x088#32 4 v = (if s.runState = .stopped then { s with devBlock := v } else s) ∧
    hostWrite s 0x08C#32 4 v = (if s.runState = .stopped then { s with ringMult := v } else s) ∧
    (∀ off ∈ [0x080, 0x088, 0x08C],
      if s.runState = .stopped then
        (hostRead (hostWrite s (BitVec.ofNat 32 off) 4 v) (BitVec.ofNat 32 off) 4).rdata = v
      else hostWrite s (BitVec.ofNat 32 off) 4 v = s) ∧
    (if s.runState = .stopped ∧ v ∈ [1#32, 2#32, 6#32, 8#32] then
        hostWrite s 0x084#32 4 v = { s with layout := (hostWrite s 0x084#32 4 v).layout } ∧
        (hostWrite s 0x084#32 4 v).layout.speakers = v.toNat ∧
        (hostRead (hostWrite s 0x084#32 4 v) 0x084#32 4).rdata = v
      else hostWrite s 0x084#32 4 v = s) ∧
    (hostRead s 0x084#32 4).rdata ∈ [1#32, 2#32, 6#32, 8#32] ∧ (hostRead State.reset 0x084#32 4).rdata = 2#32

/-- 10_state.md R62: a write to any of the six TUN registers sets SETTINGS.CHANGED in the same access, and changes that
register alone besides; with R63, a SETTINGS write with bit 0 set does too and any other has no effect, and a read returns the flag. -/
def Obligations.TunWriteSetsChanged : Prop :=
  ∀ (s : State) (v : Word),
    hostWrite s 0x0C0#32 4 v = { s with tun := { s.tun with master := v }, changed := true } ∧
    hostWrite s 0x0C4#32 4 v = { s with tun := { s.tun with lfe := v }, changed := true } ∧
    hostWrite s 0x0C8#32 4 v = { s with tun := { s.tun with base := v }, changed := true } ∧
    hostWrite s 0x0CC#32 4 v = { s with tun := { s.tun with revDelay := v }, changed := true } ∧
    hostWrite s 0x0D0#32 4 v = { s with tun := { s.tun with revDecay := v }, changed := true } ∧
    hostWrite s 0x0D4#32 4 v = { s with tun := { s.tun with enables := v.truncate 4 }, changed := true } ∧
    hostWrite s 0x0D8#32 4 v = (if v.getLsbD 0 then { s with changed := true } else s) ∧
    (hostRead s 0x0D8#32 4).rdata.toNat = if s.changed then 1 else 0

/-- 10_state.md R46, with the encodings of R47 and 60_exceptions.md R271 and the interrupt level of R280: the whole
STATUS word of every state, read-only, 0 after reset. -/
def Obligations.StatusFields : Prop :=
  (∀ (s : State) (v : Word), hostWrite s 0x024#32 4 v = s) ∧ (hostRead State.reset 0x024#32 4).rdata = 0#32 ∧
  ∀ s : State, (hostRead s 0x024#32 4).rdata.toNat =
    (if s.eng = .idle then 0 else 1) +
    2 * (match s.runState with | .stopped => 0 | .starting => 1 | .running => 2 | .stopping => 3) +
    8 * (if ∃ k : Fin 6, s.irqPend.getLsbD k && s.irqEn.getLsbD k then 1 else 0) +
    16 * (match s.err with
      | none => 0
      | some .illegal => 1
      | some .rsvd => 2
      | some .state => 3
      | some .cfg => 4
      | some .range => 5
      | some .overlap => 6
      | some .ctx => 7
      | some .size => 8
      | some .noSpace => 9)

/-- 10_state.md R58: RING_SPACE reads RING_CAP - RING_LEVEL while RUNNING and 0 otherwise. -/
def Obligations.RingSpace : Prop :=
  ∀ (s : State) (v : Word), Inv s →
    (hostRead s 0x0A0#32 4).rdata.toNat = (if s.runState = .running then s.ringCap - s.ringLevel else 0) ∧
    hostWrite s 0x0A0#32 4 v = s

/-! ## Who changes what -/

/-- 60_exceptions.md R274 to R278: each IRQ_PEND bit is set by exactly the events its rule names. The
premise, that RUNSTATE shows STOPPED or RUNNING, is part of Inv (10_state.md R47). -/
def Obligations.InterruptSources : Prop :=
  ∀ s t : State, step s = .next t → s.runState = .stopped ∨ s.runState = .running →
    let sets := fun (k : Nat) (event : Prop) =>
      (event → t.irqPend.getLsbD k = true) ∧ (s.irqPend.getLsbD k = false → t.irqPend.getLsbD k = true → event)
    sets 0 (Completes s) ∧
    sets 1 (Completes s ∧ t.err ≠ none) ∧
    sets 2 ((∃ n, NextEvent s (.drain n) ∧ s.runState = .running ∧ 0 < n ∧ n ≤ s.ringCap) ∨
      (Executes s .stop ∧ s.runState = .running)) ∧
    sets 3 (∃ n, NextEvent s (.drain n) ∧ s.runState = .running ∧ 0 < n ∧ (s.ringLevel < n ∨ s.ringCap < n)) ∧
    sets 4 (∃ v, NextEvent s (.write 0x020#32 4 v) ∧ s.eng ≠ .idle) ∧
    sets 5 (∃ addr size, (NextEvent s (.read addr size) ∨ ∃ v, NextEvent s (.write addr size v)) ∧
      BusErrorAccess s addr size)

/-- IRQ_PEND bits are sticky (10_state.md R49, R34): a set bit is cleared only by reset or by a host write of 1 to
it, and such a write clears exactly the bits written as 1. -/
def Obligations.PendingBitsSticky : Prop :=
  (∀ s t : State, step s = .next t → ∀ k : Nat, s.irqPend.getLsbD k = true → t.irqPend.getLsbD k = false →
    NextEvent s .reset ∨ ∃ v, NextEvent s (.write 0x028#32 4 v) ∧ v.getLsbD k = true) ∧
  (∀ (s : State) (v : Word), let t := hostWrite s 0x028#32 4 v
    t = { s with irqPend := t.irqPend } ∧
    (∀ k, k < 6 → t.irqPend.getLsbD k = (s.irqPend.getLsbD k && !v.getLsbD k)) ∧
    (hostRead s 0x028#32 4).rdata.toNat = s.irqPend.toNat)

/-- Which steps change the coordinator, the ring, the reverb, DMEM, the active settings, SETTINGS.CHANGED (which steps set
it and which clear it), the completion registers and the host's registers (10_state.md R42, R45, R47, R48, R55 to R57,
R59, R62 to R65, R67, R68), other than reset. -/
def Obligations.RegisterWriters : Prop :=
  ∀ s t : State, step s = .next t → ¬ NextEvent s .reset →
    let hostWrites := ∃ addr size v, NextEvent s (.write addr size v)
    let drains := ∃ n, NextEvent s (.drain n)
    (t.runState ≠ s.runState ∨ t.ringCap ≠ s.ringCap → Executes s .start ∨ Executes s .stop) ∧
    (t.ringRd ≠ s.ringRd → Executes s .start ∨ Executes s .stop ∨ drains) ∧
    (t.ringWr ≠ s.ringWr ∨ t.ringLevel ≠ s.ringLevel ∨ t.ring ≠ s.ring →
      Executes s .start ∨ Executes s .stop ∨ Executes s .ringPush ∨ drains) ∧
    (t.drainCount ≠ s.drainCount ∨ t.xrunCount ≠ s.xrunCount → drains) ∧
    (t.act ≠ s.act ∨ (s.changed = true ∧ t.changed = false) → Executes s .mix) ∧
    (s.changed = false ∧ t.changed = true →
      (∃ off ∈ [0x0C0, 0x0C4, 0x0C8, 0x0CC, 0x0D0, 0x0D4], ∃ v, NextEvent s (.write (BitVec.ofNat 32 off) 4 v)) ∨
      ∃ v, NextEvent s (.write 0x0D8#32 4 v) ∧ v.getLsbD 0 = true) ∧
    (t.revLen ≠ s.revLen ∨ t.revCur ≠ s.revCur ∨ t.rev ≠ s.rev → Executes s .mix ∨ Executes s .start) ∧
    (t.err ≠ s.err ∨ t.result0 ≠ s.result0 ∨ t.result1 ≠ s.result1 → Completes s) ∧
    (t.dmem ≠ s.dmem → (hostWrites ∧ s.eng = .idle) ∨
      ∃ i ∈ [.fft, .ifft, .firDesign, .firDesignHp, .olaInit, .olaInitWin, .olaApply, .panTable, .mix], Executes s i) ∧
    (t.args ≠ s.args ∨ t.irqEn ≠ s.irqEn ∨ t.tun ≠ s.tun → hostWrites) ∧
    (t.devFs ≠ s.devFs ∨ t.layout ≠ s.layout ∨ t.devBlock ≠ s.devBlock ∨ t.ringMult ≠ s.ringMult →
      hostWrites ∧ s.runState = .stopped) ∧
    (t.cmd ≠ s.cmd ∨ t.argl ≠ s.argl → ∃ v, NextEvent s (.write 0x020#32 4 v) ∧ s.eng = .idle)

/-! ## Numbers -/

/-- 00_scope.md R15: every sum, difference, product and quotient. Of finite operands the result has the sign of the
exact one (an exact zero sum is +0.0 unless both terms are -0.0); below the overflow bound 2^128 - 2^103 it is finite and
a nearest binary32 value, in units of 2^-149 (2^-298 for the product): no other finite word is nearer, and if another
value is as near, the last bit of the result is 0; from the bound on it is an infinity. Then infinite operands, division
by zero, invalid operations and NaN operands. The bound, the signs of zero results and these special cases are the
standard's, which R15 adopts without stating them (PRESUMED, log 20). -/
def Obligations.ArithmeticRoundsToNearest : Prop :=
  ∀ a b w : Word,
    let inf := fun (sg : Bool) => if sg then 0xFF800000#32 else 0x7F800000#32
    let nan := 0x7FC00000#32
    let xor := fSign a != fSign b
    let rounds := fun (r : Word) (sg : Bool) (scale exact : Int) =>
      fSign r = sg ∧
      if |exact| < (2 ^ 25 - 1) * 2 ^ 252 * |scale| then
        isFinite r = true ∧ (isFinite w = true →
          |fVal r * scale - exact| ≤ |fVal w * scale - exact| ∧
          (fVal w ≠ fVal r → |fVal r * scale - exact| = |fVal w * scale - exact| → r.toNat % 2 = 0))
      else r = inf sg
    (isFinite a = true → isFinite b = true →
      rounds (fadd a b) (if fVal a + fVal b = 0 then fSign a && fSign b else decide (fVal a + fVal b < 0)) 1
        (fVal a + fVal b) ∧
      rounds (fsub a b) (if fVal a - fVal b = 0 then fSign a && !fSign b else decide (fVal a - fVal b < 0)) 1
        (fVal a - fVal b) ∧
      rounds (fmul a b) xor (2 ^ 149) (fVal a * fVal b) ∧
      (if isZero b = true then fdiv a b = (if isZero a = true then nan else inf xor)
       else rounds (fdiv a b) xor (fVal b) (fVal a * 2 ^ 149))) ∧
    (isInf a = true → isFinite b = true →
      fadd a b = a ∧ fadd b a = a ∧ fsub a b = a ∧ fsub b a = fneg a ∧
      fmul a b = (if isZero b = true then nan else inf xor) ∧ fmul b a = (if isZero b = true then nan else inf xor) ∧
      fdiv a b = inf xor ∧ fdiv b a = if xor then 0x80000000#32 else 0x00000000#32) ∧
    (isInf a = true → isInf b = true →
      fadd a b = (if xor then nan else a) ∧ fsub a b = (if xor then a else nan) ∧ fmul a b = inf xor ∧ fdiv a b = nan) ∧
    (isNaN a = true ∨ isNaN b = true → fadd a b = nan ∧ fsub a b = nan ∧ fmul a b = nan ∧ fdiv a b = nan)

/-- NaN results are the canonical NaN, and fneg flips bit 31 alone (00_scope.md R16); an integer converts to no
NaN. -/
def Obligations.NanResultsCanonical : Prop :=
  ∀ (a b : Word) (n : Nat),
    (∀ r ∈ [fadd a b, fsub a b, fmul a b, fdiv a b, fSin a, fCos a, fExp a, fTanh a],
      isNaN r = true → r = 0x7FC00000#32) ∧
    isNaN (f32 n) = false ∧
    (∀ k, k < 32 → (fneg a).getLsbD k = (a.getLsbD k ^^ decide (k = 31)))

/-- Binary32 words by their fields, conversions, comparisons and sums (00_scope.md R17, R18): a NaN, an infinity, a zero
and a finite value, in units of 2^-149, by sign, exponent and fraction; f32 of a natural number is exact below 2^24, and up to the overflow
bound a nearest binary32 value, the even one on a tie; f32 of a negative integer is its opposite's negated; ceil_nat is
the least natural not below; a comparison with a NaN is false, and any other compares the values, an infinity beyond
every finite one; fsum starts from +0.0 and adds its operands in index order. The fields, the overflow bound and the
order of infinities are the standard's (log 20). -/
def Obligations.ConversionsAndComparisons : Prop :=
  let value := fun x : Word => if isInf x = true then (if fSign x then -(2 ^ 128 * 2 ^ 149) else 2 ^ 128 * 2 ^ 149) else fVal x
  (∀ x : Word,
    let e := x.toNat / 2 ^ 23 % 2 ^ 8
    let m := x.toNat % 2 ^ 23
    (isNaN x = true ↔ e = 255 ∧ m ≠ 0) ∧ (isInf x = true ↔ e = 255 ∧ m = 0) ∧ (isFinite x = true ↔ e < 255) ∧
    (isZero x = true ↔ e = 0 ∧ m = 0) ∧
    fVal x = (if x.getLsbD 31 then -1 else 1) * (if e = 0 then m else (2 ^ 23 + m) * 2 ^ (e - 1) : Nat)) ∧
  (fsum [] = 0x00000000#32 ∧ ∀ (xs : List Word) (x : Word), fsum (xs ++ [x]) = fadd (fsum xs) x) ∧
  (∀ n, n < 2 ^ 24 → isFinite (f32 n) = true ∧ fVal (f32 n) = n * 2 ^ 149) ∧
  (∀ (n : Nat) (w : Word), n < 2 ^ 128 - 2 ^ 103 →
    isFinite (f32 n) = true ∧ fSign (f32 n) = false ∧ (isFinite w = true →
      |fVal (f32 n) - n * 2 ^ 149| ≤ |fVal w - n * 2 ^ 149| ∧
      (fVal w ≠ fVal (f32 n) → |fVal (f32 n) - n * 2 ^ 149| = |fVal w - n * 2 ^ 149| → (f32 n).toNat % 2 = 0))) ∧
  (∀ n : Nat, f32Int n = f32 n ∧ (0 < n → f32Int (-n) = fneg (f32 n))) ∧
  (∀ x : Word, isFinite x = true → 0 ≤ fVal x →
    fVal x ≤ ceilNat x * 2 ^ 149 ∧ ∀ m : Nat, fVal x ≤ m * 2 ^ 149 → ceilNat x ≤ m) ∧
  (∀ x y : Word, isNaN x = true ∨ isNaN y = true → flt x y = false ∧ fle x y = false) ∧
  (∀ x : Word, isFinite x = true → |fVal x| < 2 ^ 128 * 2 ^ 149) ∧
  (∀ x y : Word, isNaN x = false → isNaN y = false →
    (flt x y = true ↔ value x < value y) ∧ (fle x y = true ↔ value x ≤ value y))

/-- The properties of F_SIN, F_COS, F_EXP and F_TANH (00_scope.md R20), for every configuration. Oddness holds up to
the canonical NaN, which R16 has both signs give (the model's reading, log 2). -/
def Obligations.NumericFunctionProperties : Prop :=
  ∀ x : Word,
    fSin 0x00000000#32 = 0x00000000#32 ∧ fCos 0x00000000#32 = 0x3F800000#32 ∧ fCos 0x80000000#32 = 0x3F800000#32 ∧
    fTanh 0x00000000#32 = 0x00000000#32 ∧ fTanh 0x80000000#32 = 0x80000000#32 ∧
    (isNaN (fSin x) = false → fSin (fneg x) = fneg (fSin x)) ∧ fCos (fneg x) = fCos x ∧
    (isNaN (fTanh x) = false → fTanh (fneg x) = fneg (fTanh x)) ∧
    (isFinite x = true → fle 0xC2AE0000#32 x = true → flt 0x00000000#32 (fExp x) = true) ∧
    (isNaN x = true → fSin x = 0x7FC00000#32 ∧ fCos x = 0x7FC00000#32 ∧ fExp x = 0x7FC00000#32 ∧
      fTanh x = 0x7FC00000#32)

/-! ## NOP and the transform engine -/

/-- 40_transform.md R140: NOP completes in every state and changes nothing but its completion; the word with F = 1
is no NOP. -/
def Obligations.NopCompletes : Prop :=
  (∀ s : State, exec .nop s = .next
    { s with eng := .idle, err := none, result0 := 0#32, result1 := 0#32, irqPend := s.irqPend ||| 0x01#6 }) ∧
  decode 0x00000100#32 = .error .rsvd

/-- 40_transform.md R145, R146: FFT and IFFT, the checks in order, the result words (DIT forward, or the scaled
inverse transform), the results and the frame. -/
def Obligations.TransformCompletes : Prop :=
  ∀ (inverse : Bool) (s : State), ∃ t, exec (if inverse then .ifft else .fft) s = .next t ∧
    let A := argU32 s 0
    let L := argU32 s 1
    let x := (List.range (2 ^ L)).map fun k => (⟨s.dRead (A + 2 * k), s.dRead (A + 2 * k + 1)⟩ : Cpx)
    let X := if inverse then invFft L x else dit .fwd L x
    if Config.fftLog2Max < L then t = refusedState s .cfg
    else if Config.dmemWords < A + 2 * 2 ^ L then t = refusedState s .range
    else
      CompletedOk s t (BitVec.ofNat 32 (2 ^ L)) 0#32 ∧
      (∀ k, k < 2 ^ L → X[k]? = some ⟨t.dRead (A + 2 * k), t.dRead (A + 2 * k + 1)⟩) ∧
      DmemUnchangedOutside s t (InRegion A (2 * 2 ^ L)) ∧
      HostSideUnchanged s t ∧ RingUnchanged s t ∧ ReverbUnchanged s t ∧ SettingsUnchanged s t

/-- 40_transform.md R143: DIT by index. One value is returned as it is; otherwise the even and odd halves are
transformed and combined with the twiddles, the twiddle the first operand of the product. With 00_scope.md R19, the
complex operations by their real and imaginary parts. -/
def Obligations.DitCombine : Prop :=
  (∀ (a b c d : Word),
    cadd ⟨a, b⟩ ⟨c, d⟩ = ⟨fadd a c, fadd b d⟩ ∧ csub ⟨a, b⟩ ⟨c, d⟩ = ⟨fsub a c, fsub b d⟩ ∧
    cmul ⟨a, b⟩ ⟨c, d⟩ = ⟨fsub (fmul a c) (fmul b d), fadd (fmul a d) (fmul b c)⟩ ∧
    cscale ⟨a, b⟩ c = ⟨fdiv a c, fdiv b c⟩) ∧
  ∀ (d : Direction) (L : Nat) (x : List Cpx),
    (x.length = 1 → dit d 0 x = x) ∧
    (x.length = 2 ^ (L + 1) →
      let zero : Cpx := ⟨0#32, 0#32⟩
      let E := dit d L ((List.range (2 ^ L)).map fun k => x.getD (2 * k) zero)
      let O := dit d L ((List.range (2 ^ L)).map fun k => x.getD (2 * k + 1) zero)
      let W := fun k => match d with | .fwd => tw (L + 1) k | .inv => twi (L + 1) k
      (dit d (L + 1) x).length = 2 ^ (L + 1) ∧
      ∀ k, k < 2 ^ L →
        (dit d (L + 1) x)[k]? = some (cadd (E.getD k zero) (cmul (W k) (O.getD k zero))) ∧
        (dit d (L + 1) x)[k + 2 ^ L]? = some (csub (E.getD k zero) (cmul (W k) (O.getD k zero))))

/-- 40_transform.md R144: the inverse transform is DIT in the inverse direction with every part divided once by
f32(N), which is exact. -/
def Obligations.InverseScaling : Prop :=
  ∀ (L : Nat) (x : List Cpx), x.length = 2 ^ L → L ≤ 20 →
    (invFft L x).length = 2 ^ L ∧ fVal (f32 (2 ^ L)) = 2 ^ L * 2 ^ 149 ∧
    ∀ k, k < 2 ^ L → ∃ y, (dit .inv L x)[k]? = some y ∧
      (invFft L x)[k]? = some ⟨fdiv y.re (f32 (2 ^ L)), fdiv y.im (f32 (2 ^ L))⟩

/-- 40_transform.md R142: the twiddles come from one table with two exact points, and the inverse twiddle is the
conjugate. -/
def Obligations.TwiddleFactors : Prop :=
  twRom 0 = ⟨0x3F800000#32, 0x80000000#32⟩ ∧ twRom (2 ^ Config.fftLog2Max / 4) = ⟨0x00000000#32, 0xBF800000#32⟩ ∧
  ∀ L k, tw L k = twRom (k * 2 ^ (Config.fftLog2Max - L)) ∧ twi L k = ⟨(tw L k).re, fneg (tw L k).im⟩

/-! ## The filter designer -/

/-- 41_filter.md R161, R162, R163, R165, R166: FIR_DESIGN and FIR_DESIGN.HP, the checks in order, every tap word, the
results and the frame. The taper is TUKEY with ALPHA_FIR, a free parameter (log 13); FirTapSymmetry spells TUKEY out. -/
def Obligations.FirDesignCompletes : Prop :=
  ∀ (hp : Bool) (s : State), ∃ t, exec (if hp then .firDesignHp else .firDesign) s = .next t ∧
    let fs := argF32 s 0
    let fcut := argF32 s 1
    let ftr := argF32 s 2
    let A := argU32 s 3
    let CAP := argU32 s 4
    let half := fmul fs 0x3F000000#32
    let fc := if hp then fsub 0x3F000000#32 (fdiv fcut fs) else fdiv fcut fs
    let q := fdiv 0x40800000#32 (fdiv ftr fs)
    let N := if ceilNat q % 2 = 1 then ceilNat q else ceilNat q + 1
    let c := (N - 1) / 2
    let tap := fun n : Nat =>
      let m : Int := (n : Int) - c
      if m = 0 then fmul 0x40000000#32 fc
      else fdiv (fSin (fmul (fmul 0x40C90FDB#32 fc) (f32Int m))) (fmul 0x40490FDB#32 (f32Int m))
    let h := fun n => fmul (tap n) (tukey N n Config.alphaFir)
    let S := fsum ((List.range N).map h)
    if ¬ (isFinite fs = true ∧ flt 0#32 fs = true) then t = refusedState s .cfg
    else if ¬ (flt 0#32 fcut = true ∧ flt fcut half = true) then t = refusedState s .cfg
    else if ¬ (flt 0#32 ftr = true ∧ flt ftr half = true) then t = refusedState s .cfg
    else if ¬ (isFinite q = true) then t = refusedState s .cfg
    else if Config.firMaxTaps < N then t = refusedState s .cfg
    else if Config.dmemWords < A + CAP then t = refusedState s .range
    else if CAP < N then t = refusedState s .size
    else
      CompletedOk s t (BitVec.ofNat 32 N) S ∧
      (∀ n, n < N → t.dRead (A + n) = if hp = true ∧ n % 2 = 1 then fneg (fdiv (h n) S) else fdiv (h n) S) ∧
      DmemUnchangedOutside s t (InRegion A N) ∧
      HostSideUnchanged s t ∧ RingUnchanged s t ∧ ReverbUnchanged s t ∧ SettingsUnchanged s t

/-- TUKEY(M, n, α) by its formula (41_filter.md R160), 1.0 for M = 1; with α = 0.5 and M up to 2^20 it is symmetric
bit for bit, and +0.0 at both ends of a longer taper. The taps are symmetric bit for bit before the taper (R164), and
so is the whole designed kernel with α = 0.5, low-pass and high-pass. All for every design frequency and every free F_SIN
and F_COS. -/
def Obligations.FirTapSymmetry : Prop :=
  let half := 0x3F000000#32
  (∀ (M n : Nat) (α : Word),
    let Lm := f32 (M - 1)
    let t := f32 n
    let aL := fmul α Lm
    let e := fmul aL half
    let slope := fun x => fmul half (fsub 0x3F800000#32 (fCos (fdiv (fmul 0x40C90FDB#32 x) aL)))
    tukey M n α = if M = 1 then 0x3F800000#32
      else if flt t e = true then slope t
      else if flt (fsub Lm e) t = true then slope (fsub Lm t)
      else 0x3F800000#32) ∧
  (∀ M n : Nat, M ≤ 2 ^ 20 → n < M → tukey M n half = tukey M (M - 1 - n) half) ∧
  (∀ M : Nat, 2 ≤ M → M ≤ 2 ^ 20 → tukey M 0 half = 0x00000000#32 ∧ tukey M (M - 1) half = 0x00000000#32) ∧
  (∀ (fc : Word) (c m : Nat), m ≤ c → firTap fc c (c + m) = firTap fc c (c - m)) ∧
  ∀ (hp : Bool) (fc : Word) (c k : Nat), 2 * c + 1 ≤ 2 ^ 20 → k ≤ 2 * c →
    (firKernel half hp fc (2 * c + 1))[k]? = (firKernel half hp fc (2 * c + 1))[2 * c - k]?

/-! ## The overlap-add engine -/

/-- 41_filter.md R171: VALIDCTX in order, with NEXTPOW2 and the ceiling by what they mean, and the header words by their
place (R170). -/
def Obligations.ValidContext : Prop :=
  ∀ (s : State) (cx : Nat),
    let K := ctxHeader s cx 1
    let B := ctxHeader s cx 2
    let P := ctxHeader s cx 3
    let DEPTH := ctxHeader s cx 4
    (∀ j, ctxHeader s cx j = (s.dRead (cx + j)).toNat) ∧
    (Config.dmemWords < cx + 8 → validCtx s cx = some .range) ∧
    (cx + 8 ≤ Config.dmemWords →
      (validCtx s cx = none ↔
        s.dRead cx = 0x4F4C4131#32 ∧ 1 ≤ K ∧ 1 ≤ B ∧
        (∃ e, P = 2 ^ e ∧ e ≤ Config.fftLog2Max ∧ K + B - 1 ≤ 2 ^ e ∧ ∀ e', K + B - 1 ≤ 2 ^ e' → e ≤ e') ∧
        P ≤ DEPTH * B ∧ (∀ d, P ≤ d * B → DEPTH ≤ d) ∧
        ctxHeader s cx 5 < DEPTH ∧ (s.dRead (cx + 6) = 0#32 ∨ s.dRead (cx + 6) = 1#32) ∧
        s.dRead (cx + 7) = 0#32 ∧ cx + (8 + 2 * P + 2 * P * DEPTH) ≤ Config.dmemWords) ∧
      (validCtx s cx ≠ none → validCtx s cx = some .ctx))

/-- 41_filter.md R172: OLA_INIT and OLA_INIT.WIN, the checks in order, every word of the new context, the results and
the frame. -/
def Obligations.OlaInitCompletes : Prop :=
  ∀ (win : Bool) (s : State), ∃ t, exec (if win then .olaInitWin else .olaInit) s = .next t ∧
    let CX := argU32 s 0
    let KA := argU32 s 1
    let K := argU32 s 2
    let B := argU32 s 3
    let P := nextPow2 (K + B - 1)
    let DEPTH := ceilDiv P B
    let size := 8 + 2 * P + 2 * P * DEPTH
    let hx := (List.range P).map fun i => (⟨if i < K then s.dRead (KA + i) else 0#32, 0#32⟩ : Cpx)
    if K = 0 ∨ B = 0 then t = refusedState s .cfg
    else if Config.fftLog2Max < Nat.log2 P then t = refusedState s .cfg
    else if Config.dmemWords < KA + K then t = refusedState s .range
    else if Config.dmemWords < CX + size then t = refusedState s .range
    else if KA < CX + size ∧ CX < KA + K then t = refusedState s .overlap
    else
      CompletedOk s t (BitVec.ofNat 32 P) (BitVec.ofNat 32 DEPTH) ∧
      t.dRead CX = 0x4F4C4131#32 ∧ ctxHeader t CX 1 = K ∧ ctxHeader t CX 2 = B ∧ ctxHeader t CX 3 = P ∧
      ctxHeader t CX 4 = DEPTH ∧ ctxHeader t CX 5 = 0 ∧ ctxHeader t CX 6 = (if win then 1 else 0) ∧
      ctxHeader t CX 7 = 0 ∧
      (∀ i, i < P → (dit .fwd (Nat.log2 P) hx)[i]? = some ⟨t.dRead (CX + 8 + 2 * i), t.dRead (CX + 9 + 2 * i)⟩) ∧
      (∀ a, InRegion (CX + 8 + 2 * P) (2 * P * DEPTH) a → t.dRead a = 0#32) ∧
      DmemUnchangedOutside s t (InRegion CX size) ∧
      HostSideUnchanged s t ∧ RingUnchanged s t ∧ ReverbUnchanged s t ∧ SettingsUnchanged s t

/-- NEXTPOW2 and DEPTH (41_filter.md R171, R173): the least power of two, and the least depth whose chunks cover it;
a chunk's linear convolution with the kernel fits the padded length. -/
def Obligations.PaddedLengthAndDepth : Prop :=
  ∀ K B : Nat, 1 ≤ K → 1 ≤ B →
    let P := nextPow2 (K + B - 1)
    (∃ e, P = 2 ^ e ∧ ∀ e', K + B - 1 ≤ 2 ^ e' → e ≤ e') ∧ K + B - 1 ≤ P ∧ B ≤ P ∧
    1 ≤ ceilDiv P B ∧ P ≤ ceilDiv P B * B ∧ ∀ d, P ≤ d * B → ceilDiv P B ≤ d

/-- A context an OLA_INIT builds passes VALIDCTX (41_filter.md R171, R172). -/
def Obligations.OlaInitMakesValidContext : Prop :=
  ∀ (win : Bool) (s : State), checkOlaInit s = none →
    ∃ t, exec (if win then .olaInitWin else .olaInit) s = .next t ∧ validCtx t (argU32 s 0) = none

/-- 41_filter.md R175, R176: one chunk through a valid context: the segment at the cursor, the cursor, and nothing else.
The window is TUKEY with ALPHA_OLA, a free parameter (log 13); FirTapSymmetry spells TUKEY out. -/
def Obligations.OlaStepWrites : Prop :=
  ∀ (s : State) (cx : Nat) (xs : List Word), validCtx s cx = none → xs.length = ctxHeader s cx 2 →
    let t := (olaStep (ctxShape s cx) xs s).state
    let P := ctxHeader s cx 3
    let L := Nat.log2 P
    let cur := ctxHeader s cx 5
    let seg := cx + 8 + 2 * P + 2 * P * cur
    let win := s.dRead (cx + 6) = 1#32
    let padded := (List.range P).map fun i =>
      let x := xs.getD i 0#32
      (⟨if win then fmul x (tukey P i Config.alphaOla) else x, 0#32⟩ : Cpx)
    let spec := dit .fwd L padded
    let H := fun i => (⟨s.dRead (cx + 8 + 2 * i), s.dRead (cx + 8 + 2 * i + 1)⟩ : Cpx)
    let product := (List.range P).map fun i => cmul (spec.getD i ⟨0#32, 0#32⟩) (H i)
    (∀ i, i < P → (invFft L product)[i]? = some ⟨t.dRead (seg + 2 * i), t.dRead (seg + 2 * i + 1)⟩) ∧
    ctxHeader t cx 5 = (cur + 1) % ctxHeader s cx 4 ∧
    t = { s with dmem := t.dmem } ∧
    DmemUnchangedOutside s t (fun a => InRegion seg (2 * P) a ∨ a = cx + 5)

/-- 41_filter.md R177: the output of a chunk sums the real parts of the segments in flight, this chunk's own first,
read after it was written. -/
def Obligations.OlaStepOutput : Prop :=
  ∀ (s : State) (cx : Nat) (xs : List Word), validCtx s cx = none → xs.length = ctxHeader s cx 2 →
    let r := olaStep (ctxShape s cx) xs s
    let B := ctxHeader s cx 2
    let P := ctxHeader s cx 3
    let DEPTH := ctxHeader s cx 4
    let cur := ctxHeader s cx 5
    r.out.length = B ∧
    ∀ n, n < B → r.out[n]? = some (fsum (((List.range DEPTH).filter fun i => n + i * B < P).map fun i =>
      r.state.dRead (cx + 8 + 2 * P + 2 * P * ((cur + DEPTH - i) % DEPTH) + 2 * (n + i * B))))

/-- 41_filter.md R178: OLA_APPLY, the checks in order, the output words and the context it leaves, the results and the
frame. Every chunk of input is the one the command found, also in place. -/
def Obligations.OlaApplyCompletes : Prop :=
  ∀ s : State, ∃ t, exec .olaApply s = .next t ∧
    let CX := argU32 s 0
    let I := argU32 s 1
    let O := argU32 s 2
    let M := argU32 s 3
    let B := ctxHeader s CX 2
    let P := ctxHeader s CX 3
    let DEPTH := ctxHeader s CX 4
    let size := 8 + 2 * P + 2 * P * DEPTH
    let meets := fun a n b k => 0 < n ∧ 0 < k ∧ a < b + k ∧ b < a + n
    let r := olaRun (ctxShape s CX) s
      ((List.range (M / B)).map fun j => (List.range B).map fun i => s.dRead (I + j * B + i))
    if validCtx s CX = some .range then t = refusedState s .range
    else if validCtx s CX ≠ none then t = refusedState s .ctx
    else if M % B ≠ 0 then t = refusedState s .cfg
    else if Config.dmemWords < I + M ∨ Config.dmemWords < O + M then t = refusedState s .range
    else if (I ≠ O ∧ meets I M O M) ∨ meets I M CX size ∨ meets O M CX size then t = refusedState s .overlap
    else
      CompletedOk s t (BitVec.ofNat 32 (M / B)) (t.dRead (CX + 5)) ∧
      ctxHeader t CX 5 = (ctxHeader s CX 5 + M / B) % DEPTH ∧
      (∀ n, n < M → r.out[n]? = some (t.dRead (O + n))) ∧
      (∀ a, InRegion CX size a → t.dRead a = r.state.dRead a) ∧
      DmemUnchangedOutside s t (fun a => InRegion O M a ∨ ChunksWrite s CX (M / B) a) ∧
      HostSideUnchanged s t ∧ RingUnchanged s t ∧ ReverbUnchanged s t ∧ SettingsUnchanged s t

/-! ## The spatializer and mixer -/

/-- 42_spatial.md R205, with the pan law of R201 and R202: PAN_GAIN completes in every state, with the gain and the
weight as results and nothing else changed; its corner cases, -0.0 (-0.0 times a finite positive weight is -0.0) and NaN. -/
def Obligations.PanGainCompletes : Prop :=
  ∀ s : State,
    let w := fExp (fsub (fmul (fmul 0x40000000#32 0x3F000000#32) (fCos (fsub (argF32 s 1) (argF32 s 2)))) 0x3F000000#32)
    let g := fmul (fTanh (fmul 0x3F99999A#32 (argF32 s 0))) w
    exec .panGain s = .next
      { s with eng := .idle, err := none, result0 := g, result1 := w, irqPend := s.irqPend ||| 0x01#6 } ∧
    (argF32 s 0 = 0x80000000#32 →
      g = if isFinite w = true ∧ flt 0#32 w = true then 0x80000000#32 else fmul 0x80000000#32 w) ∧
    (isNaN (argF32 s 0) = true → g = 0x7FC00000#32) ∧
    (isNaN (argF32 s 1) = true ∨ isNaN (argF32 s 2) = true → g = 0x7FC00000#32 ∧ w = 0x7FC00000#32)

/-- The weight of a source for a speaker is that of the speaker's angle for the source's, bit for bit, for finite
angles and every free F_COS and F_EXP (42_spatial.md R201). -/
def Obligations.PanWeightSymmetric : Prop :=
  ∀ th ph : Word, isFinite th = true → isFinite ph = true → panW th ph = panW ph th

/-- 42_spatial.md R206: PAN_TABLE, the checks in order, every word of the table, the results and the frame. -/
def Obligations.PanTableCompletes : Prop :=
  ∀ s : State, ∃ t, exec .panTable s = .next t ∧
    let T := argU32 s 0
    let V := argU32 s 1
    let O := argU32 s 2
    let S := s.layout.speakers
    if V = 0 ∨ Config.maxV < V then t = refusedState s .cfg
    else if Config.dmemWords < T + V ∨ Config.dmemWords < O + V * S then t = refusedState s .range
    else if T < O + V * S ∧ O < T + V then t = refusedState s .overlap
    else
      CompletedOk s t (BitVec.ofNat 32 S) (BitVec.ofNat 32 (V * S)) ∧
      (∀ v sp, v < V → sp < S → t.dRead (O + v * S + sp) =
        if (S = 6 ∨ S = 8) ∧ sp = 3 then 0#32 else panW (s.dRead (T + v)) (Config.spkAngle S sp)) ∧
      DmemUnchangedOutside s t (InRegion O (V * S)) ∧
      HostSideUnchanged s t ∧ RingUnchanged s t ∧ ReverbUnchanged s t ∧ SettingsUnchanged s t

/-- 42_spatial.md R211: MIX_CHECKS in order; a refused MIX changes nothing but its completion, and a MIX that passes
completes without error. -/
def Obligations.MixChecks : Prop :=
  ∀ s : State, ∃ t, exec .mix s = .next t ∧
    let V := argU32 s 0
    let B := argU32 s 1
    let X := argU32 s 2
    let Y := argU32 s 3
    let T := argU32 s 4
    let CD := argU32 s 5
    let CL := argU32 s 6
    let SCR := argU32 s 7
    let S := s.layout.speakers
    let ENP := if s.changed then s.tun.enables else s.act.enables
    let dist := ENP.getLsbD 2 = true
    let lfe := (S = 6 ∨ S = 8) ∧ ENP.getLsbD 3 = true
    let ctxError := fun c : Nat =>
      match validCtx s c with
      | some e => some e
      | none => if ctxHeader s c 2 ≠ B then some ErrCode.ctx else none
    let ctxRegion := fun c : Nat => (⟨c, ctxSize (ctxHeader s c 3) (ctxHeader s c 4)⟩ : Region)
    let table := (List.range V).map fun v => (s.dRead (CL + v)).toNat
    let R := [⟨X, V * B⟩, ⟨Y, S * B⟩, ⟨T, V⟩, ⟨SCR, 3 * B⟩] ++ (if dist then [ctxRegion CD] else []) ++
      (if lfe then (⟨CL, V⟩ : Region) :: table.map ctxRegion else [])
    if V = 0 ∨ Config.maxV < V ∨ B = 0 then t = refusedState s .cfg
    else if Config.dmemWords < X + V * B ∨ Config.dmemWords < Y + S * B ∨ Config.dmemWords < T + V ∨
        Config.dmemWords < SCR + 3 * B then t = refusedState s .range
    else
      match (if dist then ctxError CD else none) with
      | some e => t = refusedState s e
      | none =>
        if lfe ∧ Config.dmemWords < CL + V then t = refusedState s .range
        else
          match (if lfe then table.findSome? ctxError else none) with
          | some e => t = refusedState s e
          | none =>
            if ∃ j, j < R.length ∧ ∃ i, i < j ∧ overlap (R.getD i ⟨0, 0⟩) (R.getD j ⟨0, 0⟩) = true then
              t = refusedState s .overlap
            else checkMix s = none ∧ t.err = none

/-- MIX completes (42_spatial.md R210, R215, R217, R221, R222): its results, the snapshot, and the frame: only the output,
the scratch words and context words its stages name are written, and the reverb only with the distance path on or at a
rebuild. -/
def Obligations.MixCompletes : Prop :=
  ∀ s : State, checkMix s = none → ∃ t, exec .mix s = .next t ∧
    let S := s.layout.speakers
    let rebuilt := s.changed = true ∧ (s.tun.revDelay ≠ s.act.revDelay ∨ s.tun.revDecay ≠ s.act.revDecay)
    CompletedOk s t (BitVec.ofNat 32 (S * argU32 s 1)) (BitVec.ofNat 32 S) ∧
    t.act = (if s.changed then s.tun else s.act) ∧ t.changed = false ∧
    t.revLen = (if rebuilt then revLength { s with act := s.tun } else s.revLen) ∧
    (runsDistance s = false → t.revCur = (if rebuilt then 0 else s.revCur) ∧
      ∀ a, t.rev.read a = if rebuilt then 0#32 else s.rev.read a) ∧
    DmemUnchangedOutside s t (MixWrites s) ∧ HostSideUnchanged s t ∧ RingUnchanged s t

/-- 42_spatial.md R212, R213, R214: every output word of MIX, as a function of the state the command found: the panned
sum, the filtered or raw LFE sum, the reverb of the filtered distance signal, the volumes and the enables. -/
def Obligations.MixWords : Prop :=
  ∀ s : State, checkMix s = none → ∃ t, exec .mix s = .next t ∧
    let V := argU32 s 0
    let B := argU32 s 1
    let S := s.layout.speakers
    let act := if s.changed then s.tun else s.act
    let x := fun f v => s.dRead (argU32 s 2 + f * V + v)
    let raw := fun f => fsum ((List.range V).map (x f))
    let dist := (olaStep (ctxShape s (argU32 s 5)) ((List.range B).map raw) s).out
    let low := fun v =>
      (olaStep (ctxShape s (s.dRead (argU32 s 6 + v)).toNat) ((List.range B).map fun f => x f v) s).out
    let lfe := fun f => if act.enables.getLsbD 3 then fsum ((List.range V).map fun v => (low v).getD f 0#32) else raw f
    let rv := reverbRun (snapshot s) ((List.range B).map fun f => fmul act.base (dist.getD f 0#32))
    let r := fun f => if act.enables.getLsbD 2 then rv.out.getD f 0#32 else 0#32
    let direct := fun f sp => fsum ((List.range V).map fun v =>
      fmul (fTanh (fmul 0x3F99999A#32 (x f v))) (panW (s.dRead (argU32 s 4 + v)) (Config.spkAngle S sp)))
    (∀ f sp, f < B → sp < S → t.dRead (argU32 s 3 + f * S + sp) =
      if (S = 6 ∨ S = 8) ∧ sp = 3 then
        if act.enables.getLsbD 1 then fmul act.master (fadd (fmul act.lfe (lfe f)) (r f)) else 0#32
      else if act.enables.getLsbD 0 then fmul act.master (fadd (fmul act.base (direct f sp)) (r f)) else 0#32) ∧
    (act.enables.getLsbD 2 = true → t.rev = rv.state.rev ∧ t.revCur = rv.state.revCur)

/-- The contexts and scratch MIX leaves (42_spatial.md R213, R214): each context it steps holds exactly what one chunk of
its input leaves it with; SCR[0..B-1] holds the filtered distance signal, SCR[B..2B-1] the last filtered channel,
SCR[2B..3B-1] the LFE signal, each when its path runs (MixCompletes says that it keeps its words otherwise). -/
def Obligations.MixContexts : Prop :=
  ∀ s : State, checkMix s = none → ∃ t, exec .mix s = .next t ∧
    let V := argU32 s 0
    let B := argU32 s 1
    let SCR := argU32 s 7
    let x := fun f v => s.dRead (argU32 s 2 + f * V + v)
    let mono := (List.range B).map fun f => fsum ((List.range V).map (x f))
    let channel := fun v => (List.range B).map fun f => x f v
    let lfeCtx := fun v => ctxShape s (s.dRead (argU32 s 6 + v)).toNat
    let low := fun v => (olaStep (lfeCtx v) (channel v) s).out
    let left := fun (c : OlaShape) (xs : List Word) =>
      ∀ a, InRegion c.cx (ctxSize c.p c.depth) a → t.dRead a = (olaStep c xs s).state.dRead a
    let holds := fun (base : Nat) (xs : List Word) => xs.length = B ∧ ∀ f, f < B → xs[f]? = some (t.dRead (base + f))
    (runsDistance s = true →
      left (ctxShape s (argU32 s 5)) mono ∧ holds SCR (olaStep (ctxShape s (argU32 s 5)) mono s).out) ∧
    (runsLfeLowPass s = true →
      (∀ v, v < V → left (lfeCtx v) (channel v)) ∧ holds (SCR + B) (low (V - 1)) ∧
      holds (SCR + 2 * B) ((List.range B).map fun f => fsum ((List.range V).map fun v => (low v).getD f 0#32))) ∧
    (s.layout.speakers = 6 ∨ s.layout.speakers = 8 → runsLfeLowPass s = false → holds (SCR + 2 * B) mono)

/-- 42_spatial.md R216: the reverb length by what it means, with its bound (10_state.md R65). -/
def Obligations.ReverbLength : Prop :=
  ∀ s : State,
    let p := fmul s.act.revDelay (f32 s.devFs.toNat)
    (if isNaN p = true ∨ flt 0#32 p = false then revLength s = 0
     else if fle (f32 Config.revWords) p = true then revLength s = Config.revWords
     else (revLength s : Int) * 2 ^ 149 ≤ fVal p ∧ fVal p < (revLength s + 1) * 2 ^ 149) ∧
    revLength s ≤ Config.revWords

/-- 42_spatial.md R218: one reverb step of every state. -/
def Obligations.ReverbStep : Prop :=
  ∀ (s : State) (u : Word), let r := reverbStep s u
    if s.revLen = 0 then r.state = s ∧ r.out = 0#32
    else
      r.out = s.rev.read s.revCur ∧
      r.state.rev.read s.revCur = fadd u (fmul s.act.revDecay (s.rev.read s.revCur)) ∧
      (∀ a, a ≠ s.revCur → r.state.rev.read a = s.rev.read a) ∧
      r.state.revCur = (s.revCur + 1) % s.revLen ∧
      r.state = { s with rev := r.state.rev, revCur := r.state.revCur }

/-! ## The ring -/

/-- 43_ring.md R241, with R242, R243 and 42_spatial.md R217: START, the checks in order, the ring and reverb it leaves,
and the frame. -/
def Obligations.StartCompletes : Prop :=
  ∀ s : State, ∃ t, exec .start s = .next t ∧
    let C := s.ringMult.toNat * s.devBlock.toNat * s.layout.speakers
    if s.runState ≠ .stopped then t = refusedState s .state
    else if C = 0 ∨ Config.ringWords < C then t = refusedState s .cfg
    else
      CompletedOk s t (BitVec.ofNat 32 C) 0#32 ∧ t.runState = .running ∧ t.ringCap = C ∧ t.ringRd = 0 ∧
      t.ringWr = 0 ∧ t.ringLevel = 0 ∧ (∀ i, t.ring.read i = 0#32) ∧
      t.revLen = revLength s ∧ t.revCur = 0 ∧ (∀ i, t.rev.read i = 0#32) ∧
      t.dmem = s.dmem ∧ HostSideUnchanged s t ∧ SettingsUnchanged s t

/-- 43_ring.md R246, R247: STOP in every state: no effect while STOPPED, else the ring discarded with one DRAIN
notification that DRAIN_COUNT does not count. -/
def Obligations.StopCompletes : Prop :=
  ∀ s : State, ∃ t, exec .stop s = .next t ∧
    HostSideUnchanged s t ∧ ReverbUnchanged s t ∧ SettingsUnchanged s t ∧ t.dmem = s.dmem ∧
    if s.runState = .stopped then CompletedOk s t 0#32 0#32 ∧ RingUnchanged s t
    else
      t.eng = .idle ∧ t.err = none ∧ t.result0 = BitVec.ofNat 32 s.ringLevel ∧ t.result1 = 0#32 ∧
      t.irqPend = s.irqPend ||| 0x05#6 ∧ t.runState = .stopped ∧
      t.ringCap = 0 ∧ t.ringRd = 0 ∧ t.ringWr = 0 ∧ t.ringLevel = 0 ∧ ∀ i, t.ring.read i = 0#32

/-- 43_ring.md R251: RING_PUSH, the checks in order, the words copied to the ring, the cursor, the level, the results
and the frame. -/
def Obligations.RingPushCompletes : Prop :=
  ∀ s : State, ∃ t, exec .ringPush s = .next t ∧
    let SRC := argU32 s 0
    let F := argU32 s 1
    if s.runState ≠ .running then t = refusedState s .state
    else if Config.dmemWords < SRC + F then t = refusedState s .range
    else if (s.ringCap : Int) - s.ringLevel < F then t = refusedState s .noSpace
    else
      CompletedOk s t (BitVec.ofNat 32 F) (BitVec.ofNat 32 (s.ringLevel + F)) ∧
      (∀ i, i < F → t.ring.read ((s.ringWr + i) % s.ringCap) = s.dRead (SRC + i)) ∧
      (∀ a, (∀ i, i < F → a ≠ (s.ringWr + i) % s.ringCap) → t.ring.read a = s.ring.read a) ∧
      t.ringWr = (s.ringWr + F) % s.ringCap ∧ t.ringLevel = s.ringLevel + F ∧
      t.runState = s.runState ∧ t.ringCap = s.ringCap ∧ t.ringRd = s.ringRd ∧
      t.dmem = s.dmem ∧ HostSideUnchanged s t ∧ ReverbUnchanged s t ∧ SettingsUnchanged s t

/-- 43_ring.md R257 to R260: a drain request of every state and length returns exactly L words, in the cases of the
rules. With 20_memory.md R98, the callback's request is one of lengthBytes / 4 samples, none for a length that is no
multiple of 4, and the device byte stream has the words' bytes in order, each word little-endian. -/
def Obligations.DrainRequest : Prop :=
  (∀ n : Nat, callbackRequest (4 * n) = some (.drain n) ∧ (n % 4 ≠ 0 → callbackRequest n = none)) ∧
  ∀ (s : State) (L : Nat), let t := drainRequest s L
    t.drainData.length = L ∧ t.deviceBytes.length = 4 * L ∧
    (∀ j i k, j < L → i < 4 → k < 8 →
      (t.deviceBytes.getD (4 * j + i) 0#8).getLsbD k = (t.drainData.getD j 0#32).getLsbD (8 * i + k)) ∧
    if s.runState ≠ .running ∨ L = 0 then t = { s with drainData := List.replicate L 0#32 }
    else if s.ringCap < L then
      t = { s with drainData := List.replicate L 0#32, irqPend := s.irqPend ||| 0x08#6, xrunCount := s.xrunCount + 1#32 }
    else
      (∀ i, i < L → t.drainData[i]? = some (s.ring.read ((s.ringRd + i) % s.ringCap)) ∧
        t.ring.read ((s.ringRd + i) % s.ringCap) = 0#32) ∧
      (∀ a, (∀ i, i < L → a ≠ (s.ringRd + i) % s.ringCap) → t.ring.read a = s.ring.read a) ∧
      t.ringRd = (s.ringRd + L) % s.ringCap ∧ t.drainCount = s.drainCount + 1#32 ∧
      (if L ≤ s.ringLevel then
        t.ringLevel = s.ringLevel - L ∧ t.ringWr = s.ringWr ∧ t.irqPend = s.irqPend ||| 0x04#6 ∧ t.xrunCount = s.xrunCount
       else
        t.ringLevel = 0 ∧ t.ringWr = (s.ringRd + L) % s.ringCap ∧ t.irqPend = s.irqPend ||| 0x0C#6 ∧
        t.xrunCount = s.xrunCount + 1#32) ∧
      t = { s with ring := t.ring, ringRd := t.ringRd, ringWr := t.ringWr, ringLevel := t.ringLevel, irqPend := t.irqPend,
                   drainCount := t.drainCount, xrunCount := t.xrunCount, drainData := t.drainData }

/-- In an underrun the words delivered are the committed samples followed by zeros, and nothing stale (43_ring.md
R259, R263). -/
def Obligations.UnderrunDeliversSilence : Prop :=
  ∀ (s : State) (L : Nat), Inv s → s.runState = .running → s.ringLevel < L → L ≤ s.ringCap →
    (drainRequest s L).drainData =
      ((List.range s.ringLevel).map fun i => s.ring.read ((s.ringRd + i) % s.ringCap)) ++
      List.replicate (L - s.ringLevel) 0#32

/-! ## Invariant -/

/-- The invariant holds after reset (70_reset_and_hazards.md R300); its clauses on the form of the memories and on the run
states are the model's choice (logs 5, 6, 11). -/
def Obligations.ResetSatisfiesInv : Prop := Inv State.reset

/-- Every step keeps the invariant: the ring rules (10_state.md R72, 43_ring.md R263), the reverb bounds (10_state.md R65),
CMD the word of a pending command (R45), the visible run states (R47). The canonical form of the memories and the zeroed
base of a rebuilt reverb RAM are the model's choice (logs 5, 6), and so is holding STARTING and STOPPING in no state
between steps (log 11). -/
def Obligations.StepKeepsInv : Prop := ∀ s t : State, Inv s → step s = .next t → Inv t

/-! ## Host programs -/

/-- A command statement of the assembler (30_encoding.md R122) stands for the ARG writes in order, then the CMD write:
run on an idle engine they leave its command pending with its operands latched, the other ARGs as they were. The
events are the model's schedule (log 7). -/
def Obligations.CommandStatement : Prop :=
  ∀ (i : Instr) (ops : List Literal) (s : State), ops.length ≤ 8 → s.eng = .idle →
    s.inputs = statementEvents (.command i ops) →
    ∃ t, core.run (ops.length + 1) s = .next t ∧ t.eng = .pending (encode i) ∧ t.inputs = [] ∧
      ∀ k : Fin 8, t.argl[k] = if h : k.val < ops.length then literalWord ops[k.val] else s.args[k]
end

