-- ==== Sys2Proof/Laws/State.lean ====
section
/-! SUPPORT. One lemma per field per update of the shared state operations, so that no later proof
unfolds a record update. -/

namespace Sys2Proof.Machine

variable (s : State)

@[simp] theorem setPend_eng (bits : BitVec 6) : (s.setPend bits).eng = s.eng := rfl
@[simp] theorem setPend_argl (bits : BitVec 6) : (s.setPend bits).argl = s.argl := rfl
@[simp] theorem setPend_cmd (bits : BitVec 6) : (s.setPend bits).cmd = s.cmd := rfl
@[simp] theorem setPend_err (bits : BitVec 6) : (s.setPend bits).err = s.err := rfl
@[simp] theorem setPend_runState (bits : BitVec 6) : (s.setPend bits).runState = s.runState := rfl
@[simp] theorem setPend_irqPend (bits : BitVec 6) : (s.setPend bits).irqPend = s.irqPend ||| bits := rfl
@[simp] theorem setPend_irqEn (bits : BitVec 6) : (s.setPend bits).irqEn = s.irqEn := rfl
@[simp] theorem setPend_result0 (bits : BitVec 6) : (s.setPend bits).result0 = s.result0 := rfl
@[simp] theorem setPend_result1 (bits : BitVec 6) : (s.setPend bits).result1 = s.result1 := rfl
@[simp] theorem setPend_args (bits : BitVec 6) : (s.setPend bits).args = s.args := rfl
@[simp] theorem setPend_devFs (bits : BitVec 6) : (s.setPend bits).devFs = s.devFs := rfl
@[simp] theorem setPend_layout (bits : BitVec 6) : (s.setPend bits).layout = s.layout := rfl
@[simp] theorem setPend_devBlock (bits : BitVec 6) : (s.setPend bits).devBlock = s.devBlock := rfl
@[simp] theorem setPend_ringMult (bits : BitVec 6) : (s.setPend bits).ringMult = s.ringMult := rfl
@[simp] theorem setPend_ringCap (bits : BitVec 6) : (s.setPend bits).ringCap = s.ringCap := rfl
@[simp] theorem setPend_ringRd (bits : BitVec 6) : (s.setPend bits).ringRd = s.ringRd := rfl
@[simp] theorem setPend_ringWr (bits : BitVec 6) : (s.setPend bits).ringWr = s.ringWr := rfl
@[simp] theorem setPend_ringLevel (bits : BitVec 6) : (s.setPend bits).ringLevel = s.ringLevel := rfl
@[simp] theorem setPend_drainCount (bits : BitVec 6) : (s.setPend bits).drainCount = s.drainCount := rfl
@[simp] theorem setPend_xrunCount (bits : BitVec 6) : (s.setPend bits).xrunCount = s.xrunCount := rfl
@[simp] theorem setPend_tun (bits : BitVec 6) : (s.setPend bits).tun = s.tun := rfl
@[simp] theorem setPend_changed (bits : BitVec 6) : (s.setPend bits).changed = s.changed := rfl
@[simp] theorem setPend_act (bits : BitVec 6) : (s.setPend bits).act = s.act := rfl
@[simp] theorem setPend_revLen (bits : BitVec 6) : (s.setPend bits).revLen = s.revLen := rfl
@[simp] theorem setPend_revCur (bits : BitVec 6) : (s.setPend bits).revCur = s.revCur := rfl
@[simp] theorem setPend_dmem (bits : BitVec 6) : (s.setPend bits).dmem = s.dmem := rfl
@[simp] theorem setPend_ring (bits : BitVec 6) : (s.setPend bits).ring = s.ring := rfl
@[simp] theorem setPend_rev (bits : BitVec 6) : (s.setPend bits).rev = s.rev := rfl
@[simp] theorem setPend_rdata (bits : BitVec 6) : (s.setPend bits).rdata = s.rdata := rfl
@[simp] theorem setPend_drainData (bits : BitVec 6) : (s.setPend bits).drainData = s.drainData := rfl
@[simp] theorem setPend_inputs (bits : BitVec 6) : (s.setPend bits).inputs = s.inputs := rfl
@[simp] theorem setPend_resets (bits : BitVec 6) : (s.setPend bits).resets = s.resets := rfl

@[simp] theorem clearPend_eng (bits : BitVec 6) : (s.clearPend bits).eng = s.eng := rfl
@[simp] theorem clearPend_argl (bits : BitVec 6) : (s.clearPend bits).argl = s.argl := rfl
@[simp] theorem clearPend_cmd (bits : BitVec 6) : (s.clearPend bits).cmd = s.cmd := rfl
@[simp] theorem clearPend_err (bits : BitVec 6) : (s.clearPend bits).err = s.err := rfl
@[simp] theorem clearPend_runState (bits : BitVec 6) : (s.clearPend bits).runState = s.runState := rfl
@[simp] theorem clearPend_irqPend (bits : BitVec 6) : (s.clearPend bits).irqPend = s.irqPend &&& ~~~bits := rfl
@[simp] theorem clearPend_irqEn (bits : BitVec 6) : (s.clearPend bits).irqEn = s.irqEn := rfl
@[simp] theorem clearPend_result0 (bits : BitVec 6) : (s.clearPend bits).result0 = s.result0 := rfl
@[simp] theorem clearPend_result1 (bits : BitVec 6) : (s.clearPend bits).result1 = s.result1 := rfl
@[simp] theorem clearPend_args (bits : BitVec 6) : (s.clearPend bits).args = s.args := rfl
@[simp] theorem clearPend_devFs (bits : BitVec 6) : (s.clearPend bits).devFs = s.devFs := rfl
@[simp] theorem clearPend_layout (bits : BitVec 6) : (s.clearPend bits).layout = s.layout := rfl
@[simp] theorem clearPend_devBlock (bits : BitVec 6) : (s.clearPend bits).devBlock = s.devBlock := rfl
@[simp] theorem clearPend_ringMult (bits : BitVec 6) : (s.clearPend bits).ringMult = s.ringMult := rfl
@[simp] theorem clearPend_ringCap (bits : BitVec 6) : (s.clearPend bits).ringCap = s.ringCap := rfl
@[simp] theorem clearPend_ringRd (bits : BitVec 6) : (s.clearPend bits).ringRd = s.ringRd := rfl
@[simp] theorem clearPend_ringWr (bits : BitVec 6) : (s.clearPend bits).ringWr = s.ringWr := rfl
@[simp] theorem clearPend_ringLevel (bits : BitVec 6) : (s.clearPend bits).ringLevel = s.ringLevel := rfl
@[simp] theorem clearPend_drainCount (bits : BitVec 6) : (s.clearPend bits).drainCount = s.drainCount := rfl
@[simp] theorem clearPend_xrunCount (bits : BitVec 6) : (s.clearPend bits).xrunCount = s.xrunCount := rfl
@[simp] theorem clearPend_tun (bits : BitVec 6) : (s.clearPend bits).tun = s.tun := rfl
@[simp] theorem clearPend_changed (bits : BitVec 6) : (s.clearPend bits).changed = s.changed := rfl
@[simp] theorem clearPend_act (bits : BitVec 6) : (s.clearPend bits).act = s.act := rfl
@[simp] theorem clearPend_revLen (bits : BitVec 6) : (s.clearPend bits).revLen = s.revLen := rfl
@[simp] theorem clearPend_revCur (bits : BitVec 6) : (s.clearPend bits).revCur = s.revCur := rfl
@[simp] theorem clearPend_dmem (bits : BitVec 6) : (s.clearPend bits).dmem = s.dmem := rfl
@[simp] theorem clearPend_ring (bits : BitVec 6) : (s.clearPend bits).ring = s.ring := rfl
@[simp] theorem clearPend_rev (bits : BitVec 6) : (s.clearPend bits).rev = s.rev := rfl
@[simp] theorem clearPend_rdata (bits : BitVec 6) : (s.clearPend bits).rdata = s.rdata := rfl
@[simp] theorem clearPend_drainData (bits : BitVec 6) : (s.clearPend bits).drainData = s.drainData := rfl
@[simp] theorem clearPend_inputs (bits : BitVec 6) : (s.clearPend bits).inputs = s.inputs := rfl
@[simp] theorem clearPend_resets (bits : BitVec 6) : (s.clearPend bits).resets = s.resets := rfl

@[simp] theorem latchArgs_eng : s.latchArgs.eng = s.eng := rfl
@[simp] theorem latchArgs_argl : s.latchArgs.argl = s.args := rfl
@[simp] theorem latchArgs_cmd : s.latchArgs.cmd = s.cmd := rfl
@[simp] theorem latchArgs_err : s.latchArgs.err = s.err := rfl
@[simp] theorem latchArgs_runState : s.latchArgs.runState = s.runState := rfl
@[simp] theorem latchArgs_irqPend : s.latchArgs.irqPend = s.irqPend := rfl
@[simp] theorem latchArgs_irqEn : s.latchArgs.irqEn = s.irqEn := rfl
@[simp] theorem latchArgs_result0 : s.latchArgs.result0 = s.result0 := rfl
@[simp] theorem latchArgs_result1 : s.latchArgs.result1 = s.result1 := rfl
@[simp] theorem latchArgs_args : s.latchArgs.args = s.args := rfl
@[simp] theorem latchArgs_devFs : s.latchArgs.devFs = s.devFs := rfl
@[simp] theorem latchArgs_layout : s.latchArgs.layout = s.layout := rfl
@[simp] theorem latchArgs_devBlock : s.latchArgs.devBlock = s.devBlock := rfl
@[simp] theorem latchArgs_ringMult : s.latchArgs.ringMult = s.ringMult := rfl
@[simp] theorem latchArgs_ringCap : s.latchArgs.ringCap = s.ringCap := rfl
@[simp] theorem latchArgs_ringRd : s.latchArgs.ringRd = s.ringRd := rfl
@[simp] theorem latchArgs_ringWr : s.latchArgs.ringWr = s.ringWr := rfl
@[simp] theorem latchArgs_ringLevel : s.latchArgs.ringLevel = s.ringLevel := rfl
@[simp] theorem latchArgs_drainCount : s.latchArgs.drainCount = s.drainCount := rfl
@[simp] theorem latchArgs_xrunCount : s.latchArgs.xrunCount = s.xrunCount := rfl
@[simp] theorem latchArgs_tun : s.latchArgs.tun = s.tun := rfl
@[simp] theorem latchArgs_changed : s.latchArgs.changed = s.changed := rfl
@[simp] theorem latchArgs_act : s.latchArgs.act = s.act := rfl
@[simp] theorem latchArgs_revLen : s.latchArgs.revLen = s.revLen := rfl
@[simp] theorem latchArgs_revCur : s.latchArgs.revCur = s.revCur := rfl
@[simp] theorem latchArgs_dmem : s.latchArgs.dmem = s.dmem := rfl
@[simp] theorem latchArgs_ring : s.latchArgs.ring = s.ring := rfl
@[simp] theorem latchArgs_rev : s.latchArgs.rev = s.rev := rfl
@[simp] theorem latchArgs_rdata : s.latchArgs.rdata = s.rdata := rfl
@[simp] theorem latchArgs_drainData : s.latchArgs.drainData = s.drainData := rfl
@[simp] theorem latchArgs_inputs : s.latchArgs.inputs = s.inputs := rfl
@[simp] theorem latchArgs_resets : s.latchArgs.resets = s.resets := rfl

@[simp] theorem dWrite_eng (a : Nat) (w : Word) : (s.dWrite a w).eng = s.eng := rfl
@[simp] theorem dWrite_argl (a : Nat) (w : Word) : (s.dWrite a w).argl = s.argl := rfl
@[simp] theorem dWrite_cmd (a : Nat) (w : Word) : (s.dWrite a w).cmd = s.cmd := rfl
@[simp] theorem dWrite_err (a : Nat) (w : Word) : (s.dWrite a w).err = s.err := rfl
@[simp] theorem dWrite_runState (a : Nat) (w : Word) : (s.dWrite a w).runState = s.runState := rfl
@[simp] theorem dWrite_irqPend (a : Nat) (w : Word) : (s.dWrite a w).irqPend = s.irqPend := rfl
@[simp] theorem dWrite_irqEn (a : Nat) (w : Word) : (s.dWrite a w).irqEn = s.irqEn := rfl
@[simp] theorem dWrite_result0 (a : Nat) (w : Word) : (s.dWrite a w).result0 = s.result0 := rfl
@[simp] theorem dWrite_result1 (a : Nat) (w : Word) : (s.dWrite a w).result1 = s.result1 := rfl
@[simp] theorem dWrite_args (a : Nat) (w : Word) : (s.dWrite a w).args = s.args := rfl
@[simp] theorem dWrite_devFs (a : Nat) (w : Word) : (s.dWrite a w).devFs = s.devFs := rfl
@[simp] theorem dWrite_layout (a : Nat) (w : Word) : (s.dWrite a w).layout = s.layout := rfl
@[simp] theorem dWrite_devBlock (a : Nat) (w : Word) : (s.dWrite a w).devBlock = s.devBlock := rfl
@[simp] theorem dWrite_ringMult (a : Nat) (w : Word) : (s.dWrite a w).ringMult = s.ringMult := rfl
@[simp] theorem dWrite_ringCap (a : Nat) (w : Word) : (s.dWrite a w).ringCap = s.ringCap := rfl
@[simp] theorem dWrite_ringRd (a : Nat) (w : Word) : (s.dWrite a w).ringRd = s.ringRd := rfl
@[simp] theorem dWrite_ringWr (a : Nat) (w : Word) : (s.dWrite a w).ringWr = s.ringWr := rfl
@[simp] theorem dWrite_ringLevel (a : Nat) (w : Word) : (s.dWrite a w).ringLevel = s.ringLevel := rfl
@[simp] theorem dWrite_drainCount (a : Nat) (w : Word) : (s.dWrite a w).drainCount = s.drainCount := rfl
@[simp] theorem dWrite_xrunCount (a : Nat) (w : Word) : (s.dWrite a w).xrunCount = s.xrunCount := rfl
@[simp] theorem dWrite_tun (a : Nat) (w : Word) : (s.dWrite a w).tun = s.tun := rfl
@[simp] theorem dWrite_changed (a : Nat) (w : Word) : (s.dWrite a w).changed = s.changed := rfl
@[simp] theorem dWrite_act (a : Nat) (w : Word) : (s.dWrite a w).act = s.act := rfl
@[simp] theorem dWrite_revLen (a : Nat) (w : Word) : (s.dWrite a w).revLen = s.revLen := rfl
@[simp] theorem dWrite_revCur (a : Nat) (w : Word) : (s.dWrite a w).revCur = s.revCur := rfl
@[simp] theorem dWrite_dmem (a : Nat) (w : Word) : (s.dWrite a w).dmem = s.dmem.write a w := rfl
@[simp] theorem dWrite_ring (a : Nat) (w : Word) : (s.dWrite a w).ring = s.ring := rfl
@[simp] theorem dWrite_rev (a : Nat) (w : Word) : (s.dWrite a w).rev = s.rev := rfl
@[simp] theorem dWrite_rdata (a : Nat) (w : Word) : (s.dWrite a w).rdata = s.rdata := rfl
@[simp] theorem dWrite_drainData (a : Nat) (w : Word) : (s.dWrite a w).drainData = s.drainData := rfl
@[simp] theorem dWrite_inputs (a : Nat) (w : Word) : (s.dWrite a w).inputs = s.inputs := rfl
@[simp] theorem dWrite_resets (a : Nat) (w : Word) : (s.dWrite a w).resets = s.resets := rfl

@[simp] theorem dWriteWords_eng (a : Nat) (ws : List Word) : (s.dWriteWords a ws).eng = s.eng := rfl
@[simp] theorem dWriteWords_argl (a : Nat) (ws : List Word) : (s.dWriteWords a ws).argl = s.argl := rfl
@[simp] theorem dWriteWords_cmd (a : Nat) (ws : List Word) : (s.dWriteWords a ws).cmd = s.cmd := rfl
@[simp] theorem dWriteWords_err (a : Nat) (ws : List Word) : (s.dWriteWords a ws).err = s.err := rfl
@[simp] theorem dWriteWords_runState (a : Nat) (ws : List Word) : (s.dWriteWords a ws).runState = s.runState := rfl
@[simp] theorem dWriteWords_irqPend (a : Nat) (ws : List Word) : (s.dWriteWords a ws).irqPend = s.irqPend := rfl
@[simp] theorem dWriteWords_irqEn (a : Nat) (ws : List Word) : (s.dWriteWords a ws).irqEn = s.irqEn := rfl
@[simp] theorem dWriteWords_result0 (a : Nat) (ws : List Word) : (s.dWriteWords a ws).result0 = s.result0 := rfl
@[simp] theorem dWriteWords_result1 (a : Nat) (ws : List Word) : (s.dWriteWords a ws).result1 = s.result1 := rfl
@[simp] theorem dWriteWords_args (a : Nat) (ws : List Word) : (s.dWriteWords a ws).args = s.args := rfl
@[simp] theorem dWriteWords_devFs (a : Nat) (ws : List Word) : (s.dWriteWords a ws).devFs = s.devFs := rfl
@[simp] theorem dWriteWords_layout (a : Nat) (ws : List Word) : (s.dWriteWords a ws).layout = s.layout := rfl
@[simp] theorem dWriteWords_devBlock (a : Nat) (ws : List Word) : (s.dWriteWords a ws).devBlock = s.devBlock := rfl
@[simp] theorem dWriteWords_ringMult (a : Nat) (ws : List Word) : (s.dWriteWords a ws).ringMult = s.ringMult := rfl
@[simp] theorem dWriteWords_ringCap (a : Nat) (ws : List Word) : (s.dWriteWords a ws).ringCap = s.ringCap := rfl
@[simp] theorem dWriteWords_ringRd (a : Nat) (ws : List Word) : (s.dWriteWords a ws).ringRd = s.ringRd := rfl
@[simp] theorem dWriteWords_ringWr (a : Nat) (ws : List Word) : (s.dWriteWords a ws).ringWr = s.ringWr := rfl
@[simp] theorem dWriteWords_ringLevel (a : Nat) (ws : List Word) : (s.dWriteWords a ws).ringLevel = s.ringLevel := rfl
@[simp] theorem dWriteWords_drainCount (a : Nat) (ws : List Word) : (s.dWriteWords a ws).drainCount = s.drainCount := rfl
@[simp] theorem dWriteWords_xrunCount (a : Nat) (ws : List Word) : (s.dWriteWords a ws).xrunCount = s.xrunCount := rfl
@[simp] theorem dWriteWords_tun (a : Nat) (ws : List Word) : (s.dWriteWords a ws).tun = s.tun := rfl
@[simp] theorem dWriteWords_changed (a : Nat) (ws : List Word) : (s.dWriteWords a ws).changed = s.changed := rfl
@[simp] theorem dWriteWords_act (a : Nat) (ws : List Word) : (s.dWriteWords a ws).act = s.act := rfl
@[simp] theorem dWriteWords_revLen (a : Nat) (ws : List Word) : (s.dWriteWords a ws).revLen = s.revLen := rfl
@[simp] theorem dWriteWords_revCur (a : Nat) (ws : List Word) : (s.dWriteWords a ws).revCur = s.revCur := rfl
@[simp] theorem dWriteWords_dmem (a : Nat) (ws : List Word) : (s.dWriteWords a ws).dmem = s.dmem.writeWords a ws := rfl
@[simp] theorem dWriteWords_ring (a : Nat) (ws : List Word) : (s.dWriteWords a ws).ring = s.ring := rfl
@[simp] theorem dWriteWords_rev (a : Nat) (ws : List Word) : (s.dWriteWords a ws).rev = s.rev := rfl
@[simp] theorem dWriteWords_rdata (a : Nat) (ws : List Word) : (s.dWriteWords a ws).rdata = s.rdata := rfl
@[simp] theorem dWriteWords_drainData (a : Nat) (ws : List Word) : (s.dWriteWords a ws).drainData = s.drainData := rfl
@[simp] theorem dWriteWords_inputs (a : Nat) (ws : List Word) : (s.dWriteWords a ws).inputs = s.inputs := rfl
@[simp] theorem dWriteWords_resets (a : Nat) (ws : List Word) : (s.dWriteWords a ws).resets = s.resets := rfl

@[simp] theorem completeOk_eng (r0 r1 : Word) : (completeOk s r0 r1).eng = .idle := rfl
@[simp] theorem completeOk_argl (r0 r1 : Word) : (completeOk s r0 r1).argl = s.argl := rfl
@[simp] theorem completeOk_cmd (r0 r1 : Word) : (completeOk s r0 r1).cmd = s.cmd := rfl
@[simp] theorem completeOk_err (r0 r1 : Word) : (completeOk s r0 r1).err = none := rfl
@[simp] theorem completeOk_runState (r0 r1 : Word) : (completeOk s r0 r1).runState = s.runState := rfl
@[simp] theorem completeOk_irqPend (r0 r1 : Word) : (completeOk s r0 r1).irqPend = s.irqPend ||| pendDone := rfl
@[simp] theorem completeOk_irqEn (r0 r1 : Word) : (completeOk s r0 r1).irqEn = s.irqEn := rfl
@[simp] theorem completeOk_result0 (r0 r1 : Word) : (completeOk s r0 r1).result0 = r0 := rfl
@[simp] theorem completeOk_result1 (r0 r1 : Word) : (completeOk s r0 r1).result1 = r1 := rfl
@[simp] theorem completeOk_args (r0 r1 : Word) : (completeOk s r0 r1).args = s.args := rfl
@[simp] theorem completeOk_devFs (r0 r1 : Word) : (completeOk s r0 r1).devFs = s.devFs := rfl
@[simp] theorem completeOk_layout (r0 r1 : Word) : (completeOk s r0 r1).layout = s.layout := rfl
@[simp] theorem completeOk_devBlock (r0 r1 : Word) : (completeOk s r0 r1).devBlock = s.devBlock := rfl
@[simp] theorem completeOk_ringMult (r0 r1 : Word) : (completeOk s r0 r1).ringMult = s.ringMult := rfl
@[simp] theorem completeOk_ringCap (r0 r1 : Word) : (completeOk s r0 r1).ringCap = s.ringCap := rfl
@[simp] theorem completeOk_ringRd (r0 r1 : Word) : (completeOk s r0 r1).ringRd = s.ringRd := rfl
@[simp] theorem completeOk_ringWr (r0 r1 : Word) : (completeOk s r0 r1).ringWr = s.ringWr := rfl
@[simp] theorem completeOk_ringLevel (r0 r1 : Word) : (completeOk s r0 r1).ringLevel = s.ringLevel := rfl
@[simp] theorem completeOk_drainCount (r0 r1 : Word) : (completeOk s r0 r1).drainCount = s.drainCount := rfl
@[simp] theorem completeOk_xrunCount (r0 r1 : Word) : (completeOk s r0 r1).xrunCount = s.xrunCount := rfl
@[simp] theorem completeOk_tun (r0 r1 : Word) : (completeOk s r0 r1).tun = s.tun := rfl
@[simp] theorem completeOk_changed (r0 r1 : Word) : (completeOk s r0 r1).changed = s.changed := rfl
@[simp] theorem completeOk_act (r0 r1 : Word) : (completeOk s r0 r1).act = s.act := rfl
@[simp] theorem completeOk_revLen (r0 r1 : Word) : (completeOk s r0 r1).revLen = s.revLen := rfl
@[simp] theorem completeOk_revCur (r0 r1 : Word) : (completeOk s r0 r1).revCur = s.revCur := rfl
@[simp] theorem completeOk_dmem (r0 r1 : Word) : (completeOk s r0 r1).dmem = s.dmem := rfl
@[simp] theorem completeOk_ring (r0 r1 : Word) : (completeOk s r0 r1).ring = s.ring := rfl
@[simp] theorem completeOk_rev (r0 r1 : Word) : (completeOk s r0 r1).rev = s.rev := rfl
@[simp] theorem completeOk_rdata (r0 r1 : Word) : (completeOk s r0 r1).rdata = s.rdata := rfl
@[simp] theorem completeOk_drainData (r0 r1 : Word) : (completeOk s r0 r1).drainData = s.drainData := rfl
@[simp] theorem completeOk_inputs (r0 r1 : Word) : (completeOk s r0 r1).inputs = s.inputs := rfl
@[simp] theorem completeOk_resets (r0 r1 : Word) : (completeOk s r0 r1).resets = s.resets := rfl

@[simp] theorem raiseError_eng (e : ErrCode) : (raiseError s e).eng = .idle := rfl
@[simp] theorem raiseError_argl (e : ErrCode) : (raiseError s e).argl = s.argl := rfl
@[simp] theorem raiseError_cmd (e : ErrCode) : (raiseError s e).cmd = s.cmd := rfl
@[simp] theorem raiseError_err (e : ErrCode) : (raiseError s e).err = some e := rfl
@[simp] theorem raiseError_runState (e : ErrCode) : (raiseError s e).runState = s.runState := rfl
@[simp] theorem raiseError_irqPend (e : ErrCode) : (raiseError s e).irqPend = s.irqPend ||| (pendDone ||| pendErr) := rfl
@[simp] theorem raiseError_irqEn (e : ErrCode) : (raiseError s e).irqEn = s.irqEn := rfl
@[simp] theorem raiseError_result0 (e : ErrCode) : (raiseError s e).result0 = 0#32 := rfl
@[simp] theorem raiseError_result1 (e : ErrCode) : (raiseError s e).result1 = 0#32 := rfl
@[simp] theorem raiseError_args (e : ErrCode) : (raiseError s e).args = s.args := rfl
@[simp] theorem raiseError_devFs (e : ErrCode) : (raiseError s e).devFs = s.devFs := rfl
@[simp] theorem raiseError_layout (e : ErrCode) : (raiseError s e).layout = s.layout := rfl
@[simp] theorem raiseError_devBlock (e : ErrCode) : (raiseError s e).devBlock = s.devBlock := rfl
@[simp] theorem raiseError_ringMult (e : ErrCode) : (raiseError s e).ringMult = s.ringMult := rfl
@[simp] theorem raiseError_ringCap (e : ErrCode) : (raiseError s e).ringCap = s.ringCap := rfl
@[simp] theorem raiseError_ringRd (e : ErrCode) : (raiseError s e).ringRd = s.ringRd := rfl
@[simp] theorem raiseError_ringWr (e : ErrCode) : (raiseError s e).ringWr = s.ringWr := rfl
@[simp] theorem raiseError_ringLevel (e : ErrCode) : (raiseError s e).ringLevel = s.ringLevel := rfl
@[simp] theorem raiseError_drainCount (e : ErrCode) : (raiseError s e).drainCount = s.drainCount := rfl
@[simp] theorem raiseError_xrunCount (e : ErrCode) : (raiseError s e).xrunCount = s.xrunCount := rfl
@[simp] theorem raiseError_tun (e : ErrCode) : (raiseError s e).tun = s.tun := rfl
@[simp] theorem raiseError_changed (e : ErrCode) : (raiseError s e).changed = s.changed := rfl
@[simp] theorem raiseError_act (e : ErrCode) : (raiseError s e).act = s.act := rfl
@[simp] theorem raiseError_revLen (e : ErrCode) : (raiseError s e).revLen = s.revLen := rfl
@[simp] theorem raiseError_revCur (e : ErrCode) : (raiseError s e).revCur = s.revCur := rfl
@[simp] theorem raiseError_dmem (e : ErrCode) : (raiseError s e).dmem = s.dmem := rfl
@[simp] theorem raiseError_ring (e : ErrCode) : (raiseError s e).ring = s.ring := rfl
@[simp] theorem raiseError_rev (e : ErrCode) : (raiseError s e).rev = s.rev := rfl
@[simp] theorem raiseError_rdata (e : ErrCode) : (raiseError s e).rdata = s.rdata := rfl
@[simp] theorem raiseError_drainData (e : ErrCode) : (raiseError s e).drainData = s.drainData := rfl
@[simp] theorem raiseError_inputs (e : ErrCode) : (raiseError s e).inputs = s.inputs := rfl
@[simp] theorem raiseError_resets (e : ErrCode) : (raiseError s e).resets = s.resets := rfl

@[simp] theorem reverbRebuild_eng : (reverbRebuild s).eng = s.eng := rfl
@[simp] theorem reverbRebuild_argl : (reverbRebuild s).argl = s.argl := rfl
@[simp] theorem reverbRebuild_cmd : (reverbRebuild s).cmd = s.cmd := rfl
@[simp] theorem reverbRebuild_err : (reverbRebuild s).err = s.err := rfl
@[simp] theorem reverbRebuild_runState : (reverbRebuild s).runState = s.runState := rfl
@[simp] theorem reverbRebuild_irqPend : (reverbRebuild s).irqPend = s.irqPend := rfl
@[simp] theorem reverbRebuild_irqEn : (reverbRebuild s).irqEn = s.irqEn := rfl
@[simp] theorem reverbRebuild_result0 : (reverbRebuild s).result0 = s.result0 := rfl
@[simp] theorem reverbRebuild_result1 : (reverbRebuild s).result1 = s.result1 := rfl
@[simp] theorem reverbRebuild_args : (reverbRebuild s).args = s.args := rfl
@[simp] theorem reverbRebuild_devFs : (reverbRebuild s).devFs = s.devFs := rfl
@[simp] theorem reverbRebuild_layout : (reverbRebuild s).layout = s.layout := rfl
@[simp] theorem reverbRebuild_devBlock : (reverbRebuild s).devBlock = s.devBlock := rfl
@[simp] theorem reverbRebuild_ringMult : (reverbRebuild s).ringMult = s.ringMult := rfl
@[simp] theorem reverbRebuild_ringCap : (reverbRebuild s).ringCap = s.ringCap := rfl
@[simp] theorem reverbRebuild_ringRd : (reverbRebuild s).ringRd = s.ringRd := rfl
@[simp] theorem reverbRebuild_ringWr : (reverbRebuild s).ringWr = s.ringWr := rfl
@[simp] theorem reverbRebuild_ringLevel : (reverbRebuild s).ringLevel = s.ringLevel := rfl
@[simp] theorem reverbRebuild_drainCount : (reverbRebuild s).drainCount = s.drainCount := rfl
@[simp] theorem reverbRebuild_xrunCount : (reverbRebuild s).xrunCount = s.xrunCount := rfl
@[simp] theorem reverbRebuild_tun : (reverbRebuild s).tun = s.tun := rfl
@[simp] theorem reverbRebuild_changed : (reverbRebuild s).changed = s.changed := rfl
@[simp] theorem reverbRebuild_act : (reverbRebuild s).act = s.act := rfl
@[simp] theorem reverbRebuild_revLen : (reverbRebuild s).revLen = revLength s := rfl
@[simp] theorem reverbRebuild_revCur : (reverbRebuild s).revCur = 0 := rfl
@[simp] theorem reverbRebuild_dmem : (reverbRebuild s).dmem = s.dmem := rfl
@[simp] theorem reverbRebuild_ring : (reverbRebuild s).ring = s.ring := rfl
@[simp] theorem reverbRebuild_rev : (reverbRebuild s).rev = Ram.zeroed := rfl
@[simp] theorem reverbRebuild_rdata : (reverbRebuild s).rdata = s.rdata := rfl
@[simp] theorem reverbRebuild_drainData : (reverbRebuild s).drainData = s.drainData := rfl
@[simp] theorem reverbRebuild_inputs : (reverbRebuild s).inputs = s.inputs := rfl
@[simp] theorem reverbRebuild_resets : (reverbRebuild s).resets = s.resets := rfl

@[simp] theorem ringCleared_eng (cap : Nat) : (ringCleared s cap).eng = s.eng := rfl
@[simp] theorem ringCleared_argl (cap : Nat) : (ringCleared s cap).argl = s.argl := rfl
@[simp] theorem ringCleared_cmd (cap : Nat) : (ringCleared s cap).cmd = s.cmd := rfl
@[simp] theorem ringCleared_err (cap : Nat) : (ringCleared s cap).err = s.err := rfl
@[simp] theorem ringCleared_runState (cap : Nat) : (ringCleared s cap).runState = s.runState := rfl
@[simp] theorem ringCleared_irqPend (cap : Nat) : (ringCleared s cap).irqPend = s.irqPend := rfl
@[simp] theorem ringCleared_irqEn (cap : Nat) : (ringCleared s cap).irqEn = s.irqEn := rfl
@[simp] theorem ringCleared_result0 (cap : Nat) : (ringCleared s cap).result0 = s.result0 := rfl
@[simp] theorem ringCleared_result1 (cap : Nat) : (ringCleared s cap).result1 = s.result1 := rfl
@[simp] theorem ringCleared_args (cap : Nat) : (ringCleared s cap).args = s.args := rfl
@[simp] theorem ringCleared_devFs (cap : Nat) : (ringCleared s cap).devFs = s.devFs := rfl
@[simp] theorem ringCleared_layout (cap : Nat) : (ringCleared s cap).layout = s.layout := rfl
@[simp] theorem ringCleared_devBlock (cap : Nat) : (ringCleared s cap).devBlock = s.devBlock := rfl
@[simp] theorem ringCleared_ringMult (cap : Nat) : (ringCleared s cap).ringMult = s.ringMult := rfl
@[simp] theorem ringCleared_ringCap (cap : Nat) : (ringCleared s cap).ringCap = cap := rfl
@[simp] theorem ringCleared_ringRd (cap : Nat) : (ringCleared s cap).ringRd = 0 := rfl
@[simp] theorem ringCleared_ringWr (cap : Nat) : (ringCleared s cap).ringWr = 0 := rfl
@[simp] theorem ringCleared_ringLevel (cap : Nat) : (ringCleared s cap).ringLevel = 0 := rfl
@[simp] theorem ringCleared_drainCount (cap : Nat) : (ringCleared s cap).drainCount = s.drainCount := rfl
@[simp] theorem ringCleared_xrunCount (cap : Nat) : (ringCleared s cap).xrunCount = s.xrunCount := rfl
@[simp] theorem ringCleared_tun (cap : Nat) : (ringCleared s cap).tun = s.tun := rfl
@[simp] theorem ringCleared_changed (cap : Nat) : (ringCleared s cap).changed = s.changed := rfl
@[simp] theorem ringCleared_act (cap : Nat) : (ringCleared s cap).act = s.act := rfl
@[simp] theorem ringCleared_revLen (cap : Nat) : (ringCleared s cap).revLen = s.revLen := rfl
@[simp] theorem ringCleared_revCur (cap : Nat) : (ringCleared s cap).revCur = s.revCur := rfl
@[simp] theorem ringCleared_dmem (cap : Nat) : (ringCleared s cap).dmem = s.dmem := rfl
@[simp] theorem ringCleared_ring (cap : Nat) : (ringCleared s cap).ring = Ram.zeroed := rfl
@[simp] theorem ringCleared_rev (cap : Nat) : (ringCleared s cap).rev = s.rev := rfl
@[simp] theorem ringCleared_rdata (cap : Nat) : (ringCleared s cap).rdata = s.rdata := rfl
@[simp] theorem ringCleared_drainData (cap : Nat) : (ringCleared s cap).drainData = s.drainData := rfl
@[simp] theorem ringCleared_inputs (cap : Nat) : (ringCleared s cap).inputs = s.inputs := rfl
@[simp] theorem ringCleared_resets (cap : Nat) : (ringCleared s cap).resets = s.resets := rfl

@[simp] theorem readError_eng : (readError s).eng = s.eng := rfl
@[simp] theorem readError_argl : (readError s).argl = s.argl := rfl
@[simp] theorem readError_cmd : (readError s).cmd = s.cmd := rfl
@[simp] theorem readError_err : (readError s).err = s.err := rfl
@[simp] theorem readError_runState : (readError s).runState = s.runState := rfl
@[simp] theorem readError_irqPend : (readError s).irqPend = s.irqPend ||| pendBusErr := rfl
@[simp] theorem readError_irqEn : (readError s).irqEn = s.irqEn := rfl
@[simp] theorem readError_result0 : (readError s).result0 = s.result0 := rfl
@[simp] theorem readError_result1 : (readError s).result1 = s.result1 := rfl
@[simp] theorem readError_args : (readError s).args = s.args := rfl
@[simp] theorem readError_devFs : (readError s).devFs = s.devFs := rfl
@[simp] theorem readError_layout : (readError s).layout = s.layout := rfl
@[simp] theorem readError_devBlock : (readError s).devBlock = s.devBlock := rfl
@[simp] theorem readError_ringMult : (readError s).ringMult = s.ringMult := rfl
@[simp] theorem readError_ringCap : (readError s).ringCap = s.ringCap := rfl
@[simp] theorem readError_ringRd : (readError s).ringRd = s.ringRd := rfl
@[simp] theorem readError_ringWr : (readError s).ringWr = s.ringWr := rfl
@[simp] theorem readError_ringLevel : (readError s).ringLevel = s.ringLevel := rfl
@[simp] theorem readError_drainCount : (readError s).drainCount = s.drainCount := rfl
@[simp] theorem readError_xrunCount : (readError s).xrunCount = s.xrunCount := rfl
@[simp] theorem readError_tun : (readError s).tun = s.tun := rfl
@[simp] theorem readError_changed : (readError s).changed = s.changed := rfl
@[simp] theorem readError_act : (readError s).act = s.act := rfl
@[simp] theorem readError_revLen : (readError s).revLen = s.revLen := rfl
@[simp] theorem readError_revCur : (readError s).revCur = s.revCur := rfl
@[simp] theorem readError_dmem : (readError s).dmem = s.dmem := rfl
@[simp] theorem readError_ring : (readError s).ring = s.ring := rfl
@[simp] theorem readError_rev : (readError s).rev = s.rev := rfl
@[simp] theorem readError_rdata : (readError s).rdata = 0#32 := rfl
@[simp] theorem readError_drainData : (readError s).drainData = s.drainData := rfl
@[simp] theorem readError_inputs : (readError s).inputs = s.inputs := rfl
@[simp] theorem readError_resets : (readError s).resets = s.resets := rfl

@[simp] theorem writeError_eng : (writeError s).eng = s.eng := rfl
@[simp] theorem writeError_argl : (writeError s).argl = s.argl := rfl
@[simp] theorem writeError_cmd : (writeError s).cmd = s.cmd := rfl
@[simp] theorem writeError_err : (writeError s).err = s.err := rfl
@[simp] theorem writeError_runState : (writeError s).runState = s.runState := rfl
@[simp] theorem writeError_irqPend : (writeError s).irqPend = s.irqPend ||| pendBusErr := rfl
@[simp] theorem writeError_irqEn : (writeError s).irqEn = s.irqEn := rfl
@[simp] theorem writeError_result0 : (writeError s).result0 = s.result0 := rfl
@[simp] theorem writeError_result1 : (writeError s).result1 = s.result1 := rfl
@[simp] theorem writeError_args : (writeError s).args = s.args := rfl
@[simp] theorem writeError_devFs : (writeError s).devFs = s.devFs := rfl
@[simp] theorem writeError_layout : (writeError s).layout = s.layout := rfl
@[simp] theorem writeError_devBlock : (writeError s).devBlock = s.devBlock := rfl
@[simp] theorem writeError_ringMult : (writeError s).ringMult = s.ringMult := rfl
@[simp] theorem writeError_ringCap : (writeError s).ringCap = s.ringCap := rfl
@[simp] theorem writeError_ringRd : (writeError s).ringRd = s.ringRd := rfl
@[simp] theorem writeError_ringWr : (writeError s).ringWr = s.ringWr := rfl
@[simp] theorem writeError_ringLevel : (writeError s).ringLevel = s.ringLevel := rfl
@[simp] theorem writeError_drainCount : (writeError s).drainCount = s.drainCount := rfl
@[simp] theorem writeError_xrunCount : (writeError s).xrunCount = s.xrunCount := rfl
@[simp] theorem writeError_tun : (writeError s).tun = s.tun := rfl
@[simp] theorem writeError_changed : (writeError s).changed = s.changed := rfl
@[simp] theorem writeError_act : (writeError s).act = s.act := rfl
@[simp] theorem writeError_revLen : (writeError s).revLen = s.revLen := rfl
@[simp] theorem writeError_revCur : (writeError s).revCur = s.revCur := rfl
@[simp] theorem writeError_dmem : (writeError s).dmem = s.dmem := rfl
@[simp] theorem writeError_ring : (writeError s).ring = s.ring := rfl
@[simp] theorem writeError_rev : (writeError s).rev = s.rev := rfl
@[simp] theorem writeError_rdata : (writeError s).rdata = s.rdata := rfl
@[simp] theorem writeError_drainData : (writeError s).drainData = s.drainData := rfl
@[simp] theorem writeError_inputs : (writeError s).inputs = s.inputs := rfl
@[simp] theorem writeError_resets : (writeError s).resets = s.resets := rfl

end Sys2Proof.Machine
end

