-- ==== Sys2Proof/Laws/Ram.lean ====
section
/-! SUPPORT. The memory laws: read after write, other words left alone, the canonical form kept, and
memories in canonical form determined by their words. -/

namespace Sys2Proof.Machine

/-! ## Lookup in the list of listed words -/

@[simp] theorem lookupCell_insert_same (l : List (Nat × Word)) (a : Nat) (w : Word) :
    lookupCell (insertCell l a w) a = some w := by
  induction l with
  | nil => simp [insertCell, lookupCell]
  | cons c rest ih =>
    obtain ⟨k, v⟩ := c
    rcases lt_trichotomy a k with h | h | h
    · simp [insertCell, lookupCell, h]
    · simp [insertCell, lookupCell, h]
    · simp [insertCell, lookupCell, show ¬ a < k by omega, show ¬ a = k by omega, show ¬ k = a by omega, ih]

theorem lookupCell_insert_other (l : List (Nat × Word)) {a b : Nat} (w : Word) (h : b ≠ a) :
    lookupCell (insertCell l a w) b = lookupCell l b := by
  induction l with
  | nil => simp [insertCell, lookupCell, h.symm]
  | cons c rest ih =>
    obtain ⟨k, v⟩ := c
    rcases lt_trichotomy a k with h1 | h1 | h1
    · simp [insertCell, lookupCell, h1, h.symm]
    · subst h1; simp [insertCell, lookupCell, h.symm]
    · simp [insertCell, lookupCell, show ¬ a < k by omega, show ¬ a = k by omega, ih]

@[simp] theorem lookupCell_remove_same (l : List (Nat × Word)) (a : Nat) : lookupCell (removeCell l a) a = none := by
  induction l with
  | nil => rfl
  | cons c rest ih =>
    obtain ⟨k, v⟩ := c
    by_cases h : k = a <;> simp [removeCell, lookupCell, h, ih]

theorem lookupCell_remove_other (l : List (Nat × Word)) {a b : Nat} (h : b ≠ a) :
    lookupCell (removeCell l a) b = lookupCell l b := by
  induction l with
  | nil => rfl
  | cons c rest ih =>
    obtain ⟨k, v⟩ := c
    by_cases hk : k = a
    · subst hk; simp [removeCell, lookupCell, ih, h.symm]
    · simp [removeCell, lookupCell, hk, ih]

/-! ## Reads after writes -/

@[simp] theorem Ram.write_base (m : Ram) (a : Nat) (w : Word) : (m.write a w).base = m.base := by
  unfold Ram.write; split
  · simp [*]
  · split <;> simp [*]

theorem Ram.read_write_same (m : Ram) (a : Nat) (w : Word) : (m.write a w).read a = w := by
  unfold Ram.write Ram.read
  split
  · simp
  · rename_i hb
    split <;> simp_all [RamBase.word]

theorem Ram.read_write_other (m : Ram) {a b : Nat} (w : Word) (h : b ≠ a) : (m.write a w).read b = m.read b := by
  unfold Ram.write Ram.read
  split
  · simp [lookupCell_insert_other _ _ h]
  · split
    · simp [lookupCell_remove_other _ h]
    · simp [lookupCell_insert_other _ _ h]

/-- One equation for a read after a write. -/
theorem Ram.read_write (m : Ram) (a b : Nat) (w : Word) :
    (m.write a w).read b = if b = a then w else m.read b := by
  by_cases h : b = a
  · subst h; simp [Ram.read_write_same]
  · simp [Ram.read_write_other m w h, h]

@[simp] theorem Ram.writeWords_base (m : Ram) (a : Nat) (ws : List Word) : (m.writeWords a ws).base = m.base := by
  induction ws generalizing m a with
  | nil => rfl
  | cons w ws ih => simp [Ram.writeWords, ih]

/-- A word below the written ones is untouched. -/
theorem Ram.read_writeWords_below (m : Ram) (a : Nat) (ws : List Word) {b : Nat} (h : b < a) :
    (m.writeWords a ws).read b = m.read b := by
  induction ws generalizing m a with
  | nil => rfl
  | cons w ws ih =>
    rw [Ram.writeWords, ih (m.write a w) (a + 1) (by omega), Ram.read_write_other m w (by omega)]

/-- Words outside the written ones are untouched. -/
theorem Ram.read_writeWords_other (m : Ram) (a : Nat) (ws : List Word) {b : Nat} (h : b < a ∨ a + ws.length ≤ b) :
    (m.writeWords a ws).read b = m.read b := by
  induction ws generalizing m a with
  | nil => rfl
  | cons w ws ih =>
    simp only [List.length_cons] at h
    rw [Ram.writeWords, ih (m.write a w) (a + 1) (by omega), Ram.read_write_other m w (by omega)]

/-- Word i of the written ones reads back. -/
theorem Ram.read_writeWords_at (m : Ram) (a : Nat) (ws : List Word) {i : Nat} (h : i < ws.length) :
    (m.writeWords a ws).read (a + i) = ws[i] := by
  induction ws generalizing m a i with
  | nil => simp at h
  | cons w ws ih =>
    cases i with
    | zero => simp [Ram.writeWords, Ram.read_writeWords_below _ _ _ (Nat.lt_succ_self a), Ram.read_write_same]
    | succ i =>
      have hi : i < ws.length := by simpa using h
      have := ih (m.write a w) (a + 1) hi
      rw [Ram.writeWords, show a + (i + 1) = a + 1 + i by omega, this]
      simp

theorem Ram.readWords_length (m : Ram) (a n : Nat) : (m.readWords a n).length = n := by simp [Ram.readWords]

theorem Ram.readWords_getElem (m : Ram) (a n i : Nat) (h : i < (m.readWords a n).length) :
    (m.readWords a n)[i] = m.read (a + i) := by simp [Ram.readWords]

/-- Reading back consecutive written words. -/
theorem Ram.readWords_writeWords (m : Ram) (a : Nat) (ws : List Word) :
    (m.writeWords a ws).readWords a ws.length = ws := by
  apply List.ext_getElem
  · simp [Ram.readWords]
  · intro i h1 h2
    simp [Ram.readWords, Ram.read_writeWords_at m a ws h2]

@[simp] theorem Ram.zeroed_read (a : Nat) : Ram.zeroed.read a = 0#32 := rfl

@[simp] theorem Ram.zeroed_base : Ram.zeroed.base = .zero := rfl

/-! ## The canonical form is kept -/

theorem all_insertCell (P : Nat × Word → Bool) (l : List (Nat × Word)) (a : Nat) (w : Word)
    (hl : l.all P = true) (hw : P (a, w) = true) : (insertCell l a w).all P = true := by
  induction l with
  | nil => simpa [insertCell] using hw
  | cons c rest ih =>
    obtain ⟨k, v⟩ := c
    rw [List.all_cons, Bool.and_eq_true] at hl
    unfold insertCell
    split
    · simp only [List.all_cons, hw, hl.1, hl.2, Bool.and_self]
    · split
      · simp only [List.all_cons, hw, hl.2, Bool.and_self]
      · simp only [List.all_cons, hl.1, ih hl.2, Bool.and_self]

theorem all_removeCell (P : Nat × Word → Bool) (l : List (Nat × Word)) (a : Nat) (hl : l.all P = true) :
    (removeCell l a).all P = true := by
  induction l with
  | nil => rfl
  | cons c rest ih =>
    obtain ⟨k, v⟩ := c
    rw [List.all_cons, Bool.and_eq_true] at hl
    by_cases h : k = a
    · simp only [removeCell, h, if_true, ih hl.2]
    · simp only [removeCell, h, if_false, List.all_cons, hl.1, ih hl.2, Bool.and_self]

theorem cellsRising_insert (l : List (Nat × Word)) (a : Nat) (w : Word) (h : cellsRising l = true) :
    cellsRising (insertCell l a w) = true := by
  induction l with
  | nil => simp [insertCell, cellsRising]
  | cons c rest ih =>
    obtain ⟨k, v⟩ := c
    simp only [cellsRising, Bool.and_eq_true] at h
    obtain ⟨h1, h2⟩ := h
    unfold insertCell
    split
    · rename_i hlt
      simp only [cellsRising, Bool.and_eq_true, List.all_cons, decide_eq_true_eq]
      refine ⟨⟨hlt, ?_⟩, h1, h2⟩
      rw [List.all_eq_true] at h1 ⊢
      intro c hc
      have := h1 c hc
      simp only [decide_eq_true_eq] at this ⊢
      omega
    · split
      · rename_i _ he
        simp only [cellsRising, Bool.and_eq_true]
        exact ⟨he ▸ h1, h2⟩
      · rename_i hlt hne
        simp only [cellsRising, Bool.and_eq_true]
        refine ⟨all_insertCell _ rest a w h1 ?_, ih h2⟩
        simp only [decide_eq_true_eq]; omega

theorem cellsRising_remove (l : List (Nat × Word)) (a : Nat) (h : cellsRising l = true) :
    cellsRising (removeCell l a) = true := by
  induction l with
  | nil => rfl
  | cons c rest ih =>
    obtain ⟨k, v⟩ := c
    simp only [cellsRising, Bool.and_eq_true] at h
    by_cases hk : k = a
    · simp only [removeCell, hk, if_true, ih h.2]
    · simp only [removeCell, hk, if_false, cellsRising, Bool.and_eq_true]
      exact ⟨all_removeCell _ rest a h.1, ih h.2⟩

/-- A write inside the memory keeps the canonical form. -/
theorem Ram.wf_write {size : Nat} {m : Ram} (a : Nat) (w : Word) (h : m.wf size = true) (ha : a < size) :
    (m.write a w).wf size = true := by
  obtain ⟨base, cells⟩ := m
  cases base with
  | powerOn id epoch =>
    simp only [Ram.wf, Ram.write, Bool.and_eq_true, and_true] at h ⊢
    exact ⟨cellsRising_insert _ _ _ h.1, all_insertCell _ _ _ _ h.2 (by simpa using ha)⟩
  | zero =>
    simp only [Ram.wf, Bool.and_eq_true] at h
    obtain ⟨⟨h1, h2⟩, h3⟩ := h
    by_cases hw : w = 0#32
    · simp only [Ram.wf, Ram.write, hw, if_true, Bool.and_eq_true]
      exact ⟨⟨cellsRising_remove _ _ h1, all_removeCell _ _ _ h2⟩, all_removeCell _ _ _ h3⟩
    · simp only [Ram.wf, Ram.write, hw, if_false, Bool.and_eq_true]
      exact ⟨⟨cellsRising_insert _ _ _ h1, all_insertCell _ _ _ _ h2 (by simpa using ha)⟩,
        all_insertCell _ _ _ _ h3 (by simpa using hw)⟩

/-- Consecutive writes inside the memory keep the canonical form. -/
theorem Ram.wf_writeWords {size : Nat} {m : Ram} (a : Nat) (ws : List Word) (h : m.wf size = true)
    (ha : a + ws.length ≤ size) : (m.writeWords a ws).wf size = true := by
  induction ws generalizing m a with
  | nil => exact h
  | cons w ws ih =>
    simp only [List.length_cons] at ha
    exact ih (a + 1) (Ram.wf_write a w h (by omega)) (by omega)

theorem Ram.wf_zeroed (size : Nat) : Ram.zeroed.wf size = true := rfl

theorem Ram.wf_afterReset (size : Nat) (id : RamId) (epoch : Nat) : (Ram.afterReset id epoch).wf size = true := rfl

/-! ## Canonical memories with the same words are equal -/

theorem lookupCell_none_of_all_lt (l : List (Nat × Word)) (a : Nat)
    (h : l.all (fun c => decide (a < c.1)) = true) : lookupCell l a = none := by
  induction l with
  | nil => rfl
  | cons c rest ih =>
    obtain ⟨k, v⟩ := c
    simp only [List.all_cons, Bool.and_eq_true, decide_eq_true_eq] at h
    simp [lookupCell, show ¬ k = a by omega, ih h.2]

/-- Rising lists with the same lookups are the same list. -/
theorem cells_ext {l m : List (Nat × Word)} (hl : cellsRising l = true) (hm : cellsRising m = true)
    (h : ∀ a, lookupCell l a = lookupCell m a) : l = m := by
  induction l generalizing m with
  | nil =>
    cases m with
    | nil => rfl
    | cons c m => obtain ⟨k, v⟩ := c; have := h k; simp [lookupCell] at this
  | cons c l ih =>
    obtain ⟨k, v⟩ := c
    simp only [cellsRising, Bool.and_eq_true] at hl
    cases m with
    | nil => have := h k; simp [lookupCell] at this
    | cons c' m =>
      obtain ⟨k', v'⟩ := c'
      simp only [cellsRising, Bool.and_eq_true] at hm
      have below : ∀ {l : List (Nat × Word)} {k a}, l.all (fun c => decide (k < c.1)) = true → a ≤ k →
          lookupCell l a = none := by
        intro l k a hk ha
        apply lookupCell_none_of_all_lt
        rw [List.all_eq_true] at hk ⊢
        intro c hc
        have := hk c hc
        simp only [decide_eq_true_eq] at this ⊢
        omega
      have hkk : k = k' := by
        rcases lt_trichotomy k k' with hlt | he | hlt
        · have := h k
          simp [lookupCell, show ¬ k' = k by omega, below hm.1 (show k ≤ k' by omega)] at this
        · exact he
        · have := h k'
          simp [lookupCell, show ¬ k = k' by omega, below hl.1 (show k' ≤ k by omega)] at this
      subst hkk
      have hv : v = v' := by have := h k; simpa [lookupCell] using this
      subst hv
      congr 1
      apply ih hl.2 hm.2
      intro a
      by_cases ha : k = a
      · subst ha; rw [below hl.1 le_rfl, below hm.1 le_rfl]
      · have := h a; simpa [lookupCell, ha] using this

theorem lookupCell_mem {l : List (Nat × Word)} {a : Nat} {w : Word} (h : lookupCell l a = some w) : (a, w) ∈ l := by
  induction l with
  | nil => simp [lookupCell] at h
  | cons c rest ih =>
    obtain ⟨k, v⟩ := c
    by_cases hk : k = a
    · simp only [lookupCell, hk, if_true, Option.some.injEq] at h; simp [hk, h]
    · simp only [lookupCell, hk, if_false] at h; exact List.mem_cons_of_mem _ (ih h)

/-- Two zeroed memories in canonical form with the same words are the same data. -/
theorem Ram.ext_of_zero {size : Nat} {m n : Ram} (hm : m.wf size = true) (hn : n.wf size = true)
    (bm : m.base = .zero) (bn : n.base = .zero) (h : ∀ a, m.read a = n.read a) : m = n := by
  obtain ⟨b1, c1⟩ := m
  obtain ⟨b2, c2⟩ := n
  simp only at bm bn
  subst bm; subst bn
  simp only [Ram.wf, Bool.and_eq_true] at hm hn
  have nz : ∀ {c : List (Nat × Word)} {a w}, c.all (fun c => decide (c.2 ≠ 0#32)) = true →
      lookupCell c a = some w → w ≠ 0#32 := by
    intro c a w hc hw
    rw [List.all_eq_true] at hc
    simpa using hc _ (lookupCell_mem hw)
  congr 1
  apply cells_ext hm.1.1 hn.1.1
  intro a
  have ha := h a
  simp only [Ram.read, RamBase.word] at ha
  rcases h1 : lookupCell c1 a with _ | w1 <;> rcases h2 : lookupCell c2 a with _ | w2
  · rfl
  · rw [h1, h2] at ha; exact absurd ha.symm (nz hn.2 h2)
  · rw [h1, h2] at ha; exact absurd ha (nz hm.2 h1)
  · rw [h1, h2] at ha; simpa using ha

/-! ## DMEM through the state -/

theorem dRead_dWrite (s : State) (a b : Nat) (w : Word) :
    (s.dWrite a w).dRead b = if b = a then w else s.dRead b := Ram.read_write s.dmem a b w

theorem dRead_dWriteWords_other (s : State) (a : Nat) (ws : List Word) {b : Nat} (h : b < a ∨ a + ws.length ≤ b) :
    (s.dWriteWords a ws).dRead b = s.dRead b := Ram.read_writeWords_other s.dmem a ws h

theorem dRead_dWriteWords_at (s : State) (a : Nat) (ws : List Word) {i : Nat} (h : i < ws.length) :
    (s.dWriteWords a ws).dRead (a + i) = ws[i] := Ram.read_writeWords_at s.dmem a ws h

end Sys2Proof.Machine
end

