-- ==== Sys2Proof/Laws/Float.lean ====
section
/-! SUPPORT. The laws of the binary32 operations: packing, signs, canonical NaN results, and that
`roundMag` gives the nearest value, with the even one on a tie. -/

namespace Sys2Proof.Machine

/-! ## Fields of a packed word -/

theorem fPack_toNat (sg : Bool) {m : Nat} (h : m < 2 ^ 31) :
    (fPack sg m).toNat = (if sg then 2 ^ 31 else 0) + m := by
  unfold fPack
  rw [BitVec.toNat_ofNat]
  cases sg <;> simp <;> omega

@[simp] theorem fMagBits_fPack (sg : Bool) {m : Nat} (h : m < 2 ^ 31) : fMagBits (fPack sg m) = m := by
  unfold fMagBits
  rw [fPack_toNat sg h]
  cases sg <;> simp <;> omega

theorem fSign_eq (x : Word) : fSign x = decide (2 ^ 31 ≤ x.toNat) := by
  unfold fSign
  rw [BitVec.getLsbD, Nat.testBit_eq_decide_div_mod_eq]
  have := x.isLt
  rw [decide_eq_decide]
  omega

@[simp] theorem fSign_fPack (sg : Bool) {m : Nat} (h : m < 2 ^ 31) : fSign (fPack sg m) = sg := by
  rw [fSign_eq, fPack_toNat sg h]
  cases sg
  · simp; omega
  · simp

theorem fMagBits_lt (x : Word) : fMagBits x < 2 ^ 31 := Nat.mod_lt _ (by decide)

theorem toNat_of_fields (x : Word) : x.toNat = (if fSign x then 2 ^ 31 else 0) + fMagBits x := by
  rw [fSign_eq]
  unfold fMagBits
  have := x.isLt
  simp only [decide_eq_true_eq]
  split <;> omega

/-- Sign and magnitude bits determine the word. -/
theorem word_ext_fields {x y : Word} (hs : fSign x = fSign y) (hm : fMagBits x = fMagBits y) : x = y := by
  apply BitVec.eq_of_toNat_eq
  rw [toNat_of_fields x, toNat_of_fields y, hs, hm]

theorem fPack_fields (x : Word) : fPack (fSign x) (fMagBits x) = x :=
  word_ext_fields (fSign_fPack _ (fMagBits_lt x)) (fMagBits_fPack _ (fMagBits_lt x))

/-! ## Negation and absolute value -/

theorem fneg_toNat (x : Word) : (fneg x).toNat = x.toNat ^^^ 2 ^ 31 := by
  unfold fneg; rw [BitVec.toNat_xor]; rfl

@[simp] theorem fSign_fneg (x : Word) : fSign (fneg x) = !fSign x := by
  unfold fSign fneg
  simp

@[simp] theorem fMagBits_fneg (x : Word) : fMagBits (fneg x) = fMagBits x := by
  unfold fMagBits
  rw [fneg_toNat]
  apply Nat.eq_of_testBit_eq
  intro i
  simp only [Nat.testBit_mod_two_pow, Nat.testBit_xor, Nat.testBit_two_pow]
  by_cases h : i < 31
  · simp [h, show ¬ 31 = i by omega]
  · simp [h]

@[simp] theorem fneg_fneg (x : Word) : fneg (fneg x) = x :=
  word_ext_fields (by simp) (by simp)

@[simp] theorem fSign_fabs (x : Word) : fSign (fabs x) = false := by
  unfold fSign fabs; simp

@[simp] theorem fMagBits_fabs (x : Word) : fMagBits (fabs x) = fMagBits x := by
  unfold fMagBits fabs
  rw [BitVec.toNat_and]
  show (x.toNat &&& (2 ^ 31 - 1)) % 2 ^ 31 = _
  rw [Nat.and_two_pow_sub_one_eq_mod]
  omega

@[simp] theorem fabs_fneg (x : Word) : fabs (fneg x) = fabs x := word_ext_fields (by simp) (by simp)

theorem fabs_of_pos {x : Word} (h : fSign x = false) : fabs x = x := word_ext_fields (by simp [h]) (by simp)

@[simp] theorem isNaN_fneg (x : Word) : isNaN (fneg x) = isNaN x := by simp [isNaN]
@[simp] theorem isInf_fneg (x : Word) : isInf (fneg x) = isInf x := by simp [isInf]
@[simp] theorem isZero_fneg (x : Word) : isZero (fneg x) = isZero x := by simp [isZero]
@[simp] theorem isFinite_fneg (x : Word) : isFinite (fneg x) = isFinite x := by simp [isFinite]
@[simp] theorem isNaN_fabs (x : Word) : isNaN (fabs x) = isNaN x := by simp [isNaN]

@[simp] theorem isNaN_qNaN : isNaN qNaN = true := by decide

/-! ## Canonical NaN results (00_scope.md R16) -/

theorem canon_canonical (x : Word) (h : isNaN (canon x) = true) : canon x = qNaN := by
  unfold canon at h ⊢
  split
  · rfl
  · rename_i hx; rw [if_neg hx] at h; exact absurd h hx

theorem roundMag_le (num den : Nat) : roundMag num den ≤ 0x7F800000 := Nat.min_le_left _ _

@[simp] theorem isNaN_fPack_of_le (sg : Bool) {m : Nat} (h : m ≤ 0x7F800000) : isNaN (fPack sg m) = false := by
  unfold isNaN
  rw [fMagBits_fPack sg (by omega)]
  simpa using h

theorem isNaN_of_isInf {x : Word} (h : isInf x = true) : isNaN x = false := by
  simp only [isInf, isNaN, decide_eq_true_eq, decide_eq_false_iff_not] at h ⊢
  omega

theorem fadd_canonical (a b : Word) (h : isNaN (fadd a b) = true) : fadd a b = qNaN := by
  unfold fadd at h ⊢
  split
  · rfl
  · rename_i h1
    rw [if_neg h1] at h
    split
    · rename_i h2
      rw [if_pos h2] at h
      split
      · rfl
      · rename_i h3; rw [if_neg h3, isNaN_of_isInf h2] at h; cases h
    · rename_i h2
      rw [if_neg h2] at h
      split
      · rename_i h3; rw [if_pos h3, isNaN_of_isInf h3] at h; cases h
      · rename_i h3
        rw [if_neg h3] at h
        dsimp only at h
        split at h
        · rw [isNaN_fPack_of_le _ (by decide)] at h; cases h
        · rw [isNaN_fPack_of_le _ (roundMag_le _ _)] at h; cases h

theorem fsub_canonical (a b : Word) (h : isNaN (fsub a b) = true) : fsub a b = qNaN := fadd_canonical _ _ h

theorem fmul_canonical (a b : Word) (h : isNaN (fmul a b) = true) : fmul a b = qNaN := by
  unfold fmul at h ⊢
  split
  · rfl
  · rename_i h1
    rw [if_neg h1] at h
    split
    · rfl
    · rename_i h2
      rw [if_neg h2] at h
      dsimp only at h
      split at h
      · rw [isNaN_fPack_of_le _ (by decide)] at h; cases h
      · rw [isNaN_fPack_of_le _ (roundMag_le _ _)] at h; cases h

theorem fdiv_canonical (a b : Word) (h : isNaN (fdiv a b) = true) : fdiv a b = qNaN := by
  unfold fdiv at h ⊢
  split
  · rfl
  · rename_i h1
    rw [if_neg h1] at h
    split
    · rfl
    · rename_i h2
      rw [if_neg h2] at h
      dsimp only at h
      split at h
      · rw [isNaN_fPack_of_le _ (by decide)] at h; cases h
      · split at h
        · rw [isNaN_fPack_of_le _ (by decide)] at h; cases h
        · rw [isNaN_fPack_of_le _ (roundMag_le _ _)] at h; cases h

/-! ## Rounding -/

/-- The magnitude, in units of 2^-149, of magnitude bits below infinity. -/
def magOf (m : Nat) : Nat := if m / 2 ^ 23 = 0 then m % 2 ^ 23 else (2 ^ 23 + m % 2 ^ 23) * 2 ^ (m / 2 ^ 23 - 1)

theorem fMag_eq_magOf (x : Word) : fMag x = magOf (fMagBits x) := by
  unfold fMag magOf fMagBits fExpField fFrac
  have h1 : x.toNat % 2 ^ 31 / 2 ^ 23 = x.toNat / 2 ^ 23 % 2 ^ 8 := by omega
  have h2 : x.toNat % 2 ^ 31 % 2 ^ 23 = x.toNat % 2 ^ 23 := by omega
  rw [h1, h2]

/-- The bits `e·2^23 + q` name the value q·2^e, carries included. -/
theorem magOf_pack (e q : Nat) (hq : q ≤ 2 ^ 24) (he : e = 0 ∨ 2 ^ 23 ≤ q) : magOf (e * 2 ^ 23 + q) = q * 2 ^ e := by
  unfold magOf
  rcases Nat.lt_or_ge q (2 ^ 23) with h1 | h1
  · have he0 : e = 0 := by omega
    subst he0
    rw [show (0 * 2 ^ 23 + q) / 2 ^ 23 = 0 by omega, show (0 * 2 ^ 23 + q) % 2 ^ 23 = q by omega]
    simp
  · rcases Nat.lt_or_ge q (2 ^ 24) with h2 | h2
    · rw [show (e * 2 ^ 23 + q) / 2 ^ 23 = e + 1 by omega, show (e * 2 ^ 23 + q) % 2 ^ 23 = q - 2 ^ 23 by omega,
        if_neg (Nat.succ_ne_zero e), show 2 ^ 23 + (q - 2 ^ 23) = q by omega, Nat.add_sub_cancel]
    · have hq' : q = 2 ^ 24 := by omega
      subst hq'
      rw [show (e * 2 ^ 23 + 2 ^ 24) / 2 ^ 23 = e + 2 by omega, show (e * 2 ^ 23 + 2 ^ 24) % 2 ^ 23 = 0 by omega,
        if_neg (by omega), show e + 2 - 1 = e + 1 by omega, pow_succ]
      ring

theorem magOf_succ (m : Nat) : magOf m < magOf (m + 1) := by
  have pos : ∀ k : Nat, 0 < 2 ^ k := fun k => Nat.two_pow_pos k
  rcases Nat.lt_or_ge m (2 ^ 23) with h | h
  · have h1 := magOf_pack 0 m (by omega) (Or.inl rfl)
    have h2 := magOf_pack 0 (m + 1) (by omega) (Or.inl rfl)
    simp only [Nat.zero_mul, Nat.zero_add, pow_zero, Nat.mul_one] at h1 h2
    omega
  · obtain ⟨e, q, hq1, hq2, rfl⟩ : ∃ e q, 2 ^ 23 ≤ q ∧ q < 2 ^ 24 ∧ m = e * 2 ^ 23 + q :=
      ⟨m / 2 ^ 23 - 1, 2 ^ 23 + m % 2 ^ 23, by omega, by omega, by omega⟩
    rw [magOf_pack e q (by omega) (Or.inr hq1), Nat.add_assoc, magOf_pack e (q + 1) (by omega) (Or.inr (by omega))]
    exact Nat.mul_lt_mul_of_pos_right (Nat.lt_succ_self q) (pos e)

theorem magOf_strictMono : StrictMono magOf := strictMono_nat_of_lt_succ magOf_succ

theorem magOf_mono {m n : Nat} (h : m ≤ n) : magOf m ≤ magOf n := magOf_strictMono.monotone h

/-- Where the quotient num/den lies between two neighbouring binary32 magnitudes, with the remainder
that decides the rounding. -/
theorem roundMag_cases (num den : Nat) (hd : 0 < den) :
    ∃ k r d, 0 < d ∧ r < d ∧ num = magOf k * den + r ∧ magOf (k + 1) * den = magOf k * den + d ∧
      roundMag num den = min 0x7F800000 (if d < 2 * r ∨ (2 * r = d ∧ k % 2 = 1) then k + 1 else k) := by
  obtain ⟨v, hv⟩ : ∃ v, v = num / den := ⟨_, rfl⟩
  obtain ⟨e, he⟩ : ∃ e, e = Nat.log2 v - 23 := ⟨_, rfl⟩
  have hpos : 0 < den * 2 ^ e := Nat.mul_pos hd (Nat.two_pow_pos e)
  obtain ⟨q, hq⟩ : ∃ q, q = num / (den * 2 ^ e) := ⟨_, rfl⟩
  obtain ⟨r, hr⟩ : ∃ r, r = num % (den * 2 ^ e) := ⟨_, rfl⟩
  have hqv : q = v / 2 ^ e := by rw [hq, hv, Nat.div_div_eq_div_mul]
  have hnum : num = q * (den * 2 ^ e) + r := by rw [hq, hr, Nat.mul_comm]; exact (Nat.div_add_mod _ _).symm
  have hrlt : r < den * 2 ^ e := hr ▸ Nat.mod_lt _ hpos
  have hq1 : q < 2 ^ 24 := by
    rw [hqv, Nat.div_lt_iff_lt_mul (Nat.two_pow_pos e), ← pow_add]
    rcases Nat.eq_zero_or_pos v with h0 | h0
    · rw [h0]; exact Nat.two_pow_pos _
    · exact lt_of_lt_of_le (Nat.lt_log2_self) (Nat.pow_le_pow_right (by decide) (by omega))
  have hq2 : e = 0 ∨ 2 ^ 23 ≤ q := by
    rcases Nat.eq_zero_or_pos e with h0 | h0
    · exact Or.inl h0
    · right
      have hvne : v ≠ 0 := by
        rintro rfl
        simp at he
        omega
      rw [hqv, Nat.le_div_iff_mul_le (Nat.two_pow_pos e), ← pow_add]
      exact le_trans (Nat.pow_le_pow_right (by decide) (by omega)) (Nat.log2_self_le hvne)
  have hm1 := magOf_pack e q (by omega) hq2
  have hm2 := magOf_pack e (q + 1) (by omega) (by omega)
  refine ⟨e * 2 ^ 23 + q, r, den * 2 ^ e, hpos, hrlt, ?_, ?_, ?_⟩
  · rw [hm1, hnum]; ring
  · rw [Nat.add_assoc, hm2, hm1]; ring
  · unfold roundMag
    simp only [← hv, ← he, ← hq, ← hr]
    have hpar : (e * 2 ^ 23 + q) % 2 = q % 2 := by omega
    rw [hpar]
    congr 1
    split <;> omega

/-- The result of rounding is nearest: no finite binary32 magnitude lies closer. -/
theorem roundMag_nearest (num den : Nat) (hd : 0 < den) (hfin : roundMag num den < 0x7F800000) (m : Nat) :
    |(magOf (roundMag num den) * den : Int) - num| ≤ |(magOf m * den : Int) - num| := by
  obtain ⟨k, r, d, hdpos, hrd, hnum, hnext, hround⟩ := roundMag_cases num den hd
  have hround' : roundMag num den = if d < 2 * r ∨ (2 * r = d ∧ k % 2 = 1) then k + 1 else k := by
    rw [hround] at hfin ⊢; omega
  have hlow : m ≤ k → magOf m * den ≤ magOf k * den := fun h => Nat.mul_le_mul_right _ (magOf_mono h)
  have hhigh : k + 1 ≤ m → magOf (k + 1) * den ≤ magOf m * den := fun h => Nat.mul_le_mul_right _ (magOf_mono h)
  obtain ⟨A, hA⟩ : ∃ A, A = magOf k * den := ⟨_, rfl⟩
  obtain ⟨B, hB⟩ : ∃ B, B = magOf m * den := ⟨_, rfl⟩
  have key : ∀ x : Nat, ((magOf x : Int) * (den : Int)) = ((magOf x * den : Nat) : Int) := fun x => by push_cast; ring
  rw [key, key, hround', Int.abs_eq_natAbs, Int.abs_eq_natAbs]
  rw [hnext, ← hA, ← hB] at hhigh
  rw [← hA, ← hB] at hlow
  rw [← hA] at hnum hnext
  split
  · rw [hnext, ← hB]
    rcases Nat.lt_or_ge k m with h | h
    · have := hhigh h; omega
    · have := hlow h; omega
  · rw [← hA, ← hB]
    rcases Nat.lt_or_ge k m with h | h
    · have := hhigh h; omega
    · have := hlow h; omega

/-- On a tie the even of the two nearest magnitudes is taken. -/
theorem roundMag_tie_even (num den : Nat) (hd : 0 < den) (hfin : roundMag num den < 0x7F800000) (m : Nat)
    (hne : m ≠ roundMag num den)
    (htie : |(magOf (roundMag num den) * den : Int) - num| = |(magOf m * den : Int) - num|) :
    roundMag num den % 2 = 0 := by
  obtain ⟨k, r, d, hdpos, hrd, hnum, hnext, hround⟩ := roundMag_cases num den hd
  have hround' : roundMag num den = if d < 2 * r ∨ (2 * r = d ∧ k % 2 = 1) then k + 1 else k := by
    rw [hround] at hfin ⊢; omega
  have hpos : ∀ {x y : Nat}, x < y → magOf x * den < magOf y * den :=
    fun h => Nat.mul_lt_mul_of_pos_right (magOf_strictMono h) hd
  have key : ∀ x : Nat, ((magOf x : Int) * (den : Int)) = ((magOf x * den : Nat) : Int) := fun x => by push_cast; ring
  rw [key, key, Int.abs_eq_natAbs, Int.abs_eq_natAbs] at htie
  have hm1 : m < k → magOf m * den < magOf k * den := hpos
  have hm2 : k + 1 < m → magOf (k + 1) * den < magOf m * den := hpos
  rw [hround'] at hne htie ⊢
  rcases lt_trichotomy m k with h | h | h
  · have := hm1 h
    split at htie <;> rename_i hc <;> simp only [hc, if_true, if_false] at hne ⊢ <;> omega
  · subst h
    split at htie <;> rename_i hc <;> simp only [hc, if_true, if_false] at hne ⊢ <;> omega
  · rcases Nat.lt_or_ge (k + 1) m with h' | h'
    · have := hm2 h'
      split at htie <;> rename_i hc <;> simp only [hc, if_true, if_false] at hne ⊢ <;> omega
    · have hmk : m = k + 1 := by omega
      subst hmk
      split at htie <;> rename_i hc <;> simp only [hc, if_true, if_false] at hne ⊢ <;> omega

/-- A value that is a magnitude already is kept. -/
theorem roundMag_exact {k den : Nat} (hd : 0 < den) (hk : k < 0x7F800000) : roundMag (magOf k * den) den = k := by
  obtain ⟨j, r, d, hdpos, hrd, hnum, hnext, hround⟩ := roundMag_cases (magOf k * den) den hd
  have hj : j = k := by
    rcases lt_trichotomy j k with h | h | h
    · have := Nat.mul_le_mul_right den (magOf_mono (show j + 1 ≤ k from h)); omega
    · exact h
    · have := Nat.mul_lt_mul_of_pos_right (magOf_strictMono h) hd; omega
  subst hj
  have hr : r = 0 := by omega
  rw [hround, if_neg (by omega)]
  omega

/-- A multiple of a power of two with at most 24 bits is a magnitude. -/
theorem magOf_representable (q e : Nat) (hq : q < 2 ^ 24) (he : e ≤ 253) : ∃ k, k < 0x7F800000 ∧ magOf k = q * 2 ^ e := by
  induction e generalizing q with
  | zero =>
    refine ⟨q, by omega, ?_⟩
    have := magOf_pack 0 q (by omega) (.inl rfl)
    rwa [Nat.zero_mul, Nat.zero_add] at this
  | succ e ih =>
    rcases Nat.lt_or_ge q (2 ^ 23) with h | h
    · obtain ⟨k, hk, hm⟩ := ih (2 * q) (by omega) (by omega)
      exact ⟨k, hk, by rw [hm, pow_succ]; ring⟩
    · exact ⟨(e + 1) * 2 ^ 23 + q, by omega, magOf_pack (e + 1) q (by omega) (.inr h)⟩

/-- Where rounding overflows: from half a unit in the last place above the largest finite magnitude on. -/
theorem roundMag_finite_iff (num den : Nat) (hd : 0 < den) :
    roundMag num den < 0x7F800000 ↔ num < (2 ^ 25 - 1) * 2 ^ 252 * den := by
  obtain ⟨k, r, d, hdpos, hrd, hnum, hnext, hround⟩ := roundMag_cases num den hd
  have hmax : magOf 0x7F7FFFFF = (2 ^ 25 - 2) * 2 ^ 252 := by decide
  have hinf : magOf 0x7F800000 = 2 ^ 25 * 2 ^ 252 := by decide
  rw [hround]
  rcases lt_trichotomy k 0x7F7FFFFF with h | h | h
  · have h1 : (magOf (k + 1)) * den ≤ magOf 0x7F7FFFFF * den := Nat.mul_le_mul_right _ (magOf_mono h)
    rw [hmax, Nat.mul_assoc] at h1
    rw [Nat.mul_assoc]
    generalize 2 ^ 252 * den = u at *
    constructor
    · intro _; omega
    · intro _; split <;> omega
  · subst h
    rw [hinf, hmax, Nat.mul_assoc, Nat.mul_assoc] at hnext
    rw [hmax, Nat.mul_assoc] at hnum
    rw [Nat.mul_assoc]
    generalize 2 ^ 252 * den = u at *
    split <;> omega
  · have h1 : magOf 0x7F800000 * den ≤ magOf k * den := Nat.mul_le_mul_right _ (magOf_mono h)
    rw [hinf, Nat.mul_assoc] at h1
    rw [Nat.mul_assoc]
    generalize 2 ^ 252 * den = u at *
    constructor
    · intro hlt; exfalso; split at hlt <;> omega
    · intro hlt; omega

end Sys2Proof.Machine
end

