-- ==== Sys2Proof/Laws/Numeric.lean ====
section
/-! SUPPORT. The properties of F_SIN, F_COS, F_EXP, F_TANH (00_scope.md R20) and of the twiddles
(40_transform.md R142), whatever the free functions behind them are. -/

namespace Sys2Proof.Machine

theorem fabs_of_neg {x : Word} (h : fSign x = true) : fabs x = fneg x :=
  word_ext_fields (by simp [h]) (by simp)

theorem canon_fneg (y : Word) : canon (fneg y) = if isNaN y then qNaN else fneg y := by simp [canon]

/-- An odd extension is odd, up to the canonical NaN. -/
theorem oddExtension_fneg (raw : Word → Word) (x : Word) :
    oddExtension raw (fneg x) =
      if isNaN (oddExtension raw x) then qNaN else fneg (oddExtension raw x) := by
  unfold oddExtension
  by_cases hn : isNaN x
  · simp [hn]
  · by_cases hz : isZero x
    · simp [hn, hz]
    · by_cases hs : fSign x
      · have hs' : fSign (fneg x) = false := by simp [hs]
        simp only [isNaN_fneg, isZero_fneg, hn, hz, hs, hs', fabs_of_neg hs, if_false, if_true, Bool.false_eq_true,
          canon_fneg]
        by_cases hr : isNaN (raw (fneg x)) <;> simp [canon, hr]
      · have hs' : fSign (fneg x) = true := by simp [hs]
        have hf : fSign x = false := by simpa using hs
        simp only [isNaN_fneg, isZero_fneg, hn, hz, hs', hf, fabs_fneg, fabs_of_pos hf, if_false, if_true,
          Bool.false_eq_true, canon_fneg]
        by_cases hr : isNaN (raw x) <;> simp [canon, hr]

theorem oddExtension_zero (raw : Word → Word) {x : Word} (h : isZero x = true) : oddExtension raw x = x := by
  have hn : isNaN x = false := by
    simp only [isZero, isNaN, decide_eq_true_eq, decide_eq_false_iff_not] at h ⊢; omega
  simp [oddExtension, hn, h]

theorem oddExtension_nan (raw : Word → Word) {x : Word} (h : isNaN x = true) : oddExtension raw x = qNaN := by
  simp [oddExtension, h]

theorem fCos_fneg (x : Word) : fCos (fneg x) = fCos x := by simp [fCos]

theorem fCos_zero {x : Word} (h : isZero x = true) : fCos x = Config.one := by
  have hn : isNaN x = false := by
    simp only [isZero, isNaN, decide_eq_true_eq, decide_eq_false_iff_not] at h ⊢; omega
  simp [fCos, hn, h]

theorem fCos_nan {x : Word} (h : isNaN x = true) : fCos x = qNaN := by simp [fCos, h]

theorem fExp_nan {x : Word} (h : isNaN x = true) : fExp x = qNaN := by simp [fExp, h]

theorem fExp_pos {x : Word} (hf : isFinite x = true) (hx : fle minus87 x = true) : flt 0x00000000#32 (fExp x) = true := by
  have hn : isNaN x = false := by
    simp only [isFinite, isNaN, decide_eq_true_eq, decide_eq_false_iff_not] at hf ⊢; omega
  simp only [fExp, hn, hf, hx, if_false, Bool.true_and, Bool.false_eq_true]
  by_cases h : flt 0x00000000#32 (canon (Config.expRaw x))
  · simp [h]
  · simp only [h, Bool.not_false, if_true]; decide

/-- The inverse twiddle is the conjugate. -/
theorem twi_conj (L k : Nat) : twi L k = { re := (tw L k).re, im := fneg (tw L k).im } := rfl

theorem tw_zero (L : Nat) : tw L 0 = { re := 0x3F800000#32, im := 0x80000000#32 } := by simp [tw, twRom]

end Sys2Proof.Machine
end

