-- ==== Sys2Proof/Laws/Ops.lean ====
section
/-! SUPPORT. The shared operations: what a command does (`runCommand`), regions, and the arithmetic of
padded lengths. -/

namespace Sys2Proof.Machine

/-- A refused command: the error completion and nothing else. -/
theorem runCommand_refused {check : State → Option ErrCode} {effect : State → Effect} {s : State} {e : ErrCode}
    (h : check s = some e) : runCommand check effect s = .next (raiseError s e) := by
  simp [runCommand, h]

/-- A command whose checks pass: its effect, then the successful completion. -/
theorem runCommand_passed {check : State → Option ErrCode} {effect : State → Effect} {s : State}
    (h : check s = none) :
    runCommand check effect s = .next (completeOk (effect s).state (effect s).r0 (effect s).r1) := by
  simp [runCommand, h]

/-- All that a command can do. -/
theorem runCommand_cases {check : State → Option ErrCode} {effect : State → Effect} {s t : State}
    (h : runCommand check effect s = .next t) :
    (∃ e, check s = some e ∧ t = raiseError s e) ∨
    (check s = none ∧ t = completeOk (effect s).state (effect s).r0 (effect s).r1) := by
  unfold runCommand at h
  cases hc : check s with
  | some e => rw [hc] at h; simp only [Host.Outcome.next.injEq] at h; exact .inl ⟨e, rfl, h.symm⟩
  | none => rw [hc] at h; simp only [Host.Outcome.next.injEq] at h; exact .inr ⟨rfl, h.symm⟩

/-! ## Byte order -/

/-- Bit k of byte i is bit 8i + k of the word (20_memory.md R82). -/
theorem wordByte_getLsbD (w : Word) (i k : Nat) (h : k < 8) : (wordByte w i).getLsbD k = w.getLsbD (8 * i + k) := by
  simp [wordByte, h]

@[simp] theorem wordBytes_length (w : Word) : (wordBytes w).length = 4 := rfl

/-- The bits of a word of four bytes. -/
theorem bytesWord_getLsbD (b0 b1 b2 b3 : Byte) (n : Nat) :
    (bytesWord [b0, b1, b2, b3]).getLsbD n =
      if n < 8 then b0.getLsbD n else if n < 16 then b1.getLsbD (n - 8)
      else if n < 24 then b2.getLsbD (n - 16) else if n < 32 then b3.getLsbD (n - 24) else false := by
  have big : ∀ (b : Byte) (m : Nat), 8 ≤ m → b.getLsbD m = false := fun b m h => BitVec.getLsbD_of_ge b m h
  simp only [bytesWord, BitVec.getLsbD_or, BitVec.getLsbD_shiftLeft, BitVec.truncate_eq_setWidth, BitVec.getLsbD_setWidth,
    BitVec.getLsbD_zero, Nat.sub_sub]
  rcases Nat.lt_or_ge n 8 with h | h
  · simp [h, show n < 32 by omega]
  rcases Nat.lt_or_ge n 16 with h | h
  · simp [h, show n < 32 by omega, show ¬ n < 8 by omega, show n - 8 < 32 by omega, show n - 8 < 8 by omega, big b0 n (by omega)]
  rcases Nat.lt_or_ge n 24 with h | h
  · simp [h, show n < 32 by omega, show ¬ n < 8 by omega, show ¬ n < 16 by omega, show n - 8 < 32 by omega,
      show ¬ n - 8 < 8 by omega, show n - 16 < 32 by omega, show n - 16 < 8 by omega, big b0 n (by omega), big b1 (n - 8) (by omega)]
  rcases Nat.lt_or_ge n 32 with h | h
  · simp [h, show ¬ n < 8 by omega, show ¬ n < 16 by omega, show ¬ n < 24 by omega, show n - 8 < 32 by omega,
      show ¬ n - 8 < 8 by omega, show n - 16 < 32 by omega, show ¬ n - 16 < 8 by omega, show n - 24 < 32 by omega,
      show n - 24 < 8 by omega, big b0 n (by omega), big b1 (n - 8) (by omega), big b2 (n - 16) (by omega)]
  · simp [show ¬ n < 8 by omega, show ¬ n < 16 by omega, show ¬ n < 24 by omega, show ¬ n < 32 by omega]

@[simp] theorem bytesWord_wordBytes (w : Word) : bytesWord (wordBytes w) = w := by
  apply BitVec.eq_of_getLsbD_eq
  intro n hn
  unfold wordBytes
  rw [bytesWord_getLsbD]
  repeat' split
  all_goals (rw [wordByte_getLsbD _ _ _ (by omega)]; congr 1; omega)

theorem streamBytes_length (ws : List Word) : (streamBytes ws).length = 4 * ws.length := by
  induction ws with
  | nil => rfl
  | cons w ws ih => simp only [streamBytes, List.flatMap_cons, List.length_append, wordBytes_length, List.length_cons] at ih ⊢; omega

/-- Byte 4j + i of a stream is byte i of its word j. -/
theorem streamBytes_get (ws : List Word) {j i : Nat} (hj : j < ws.length) (hi : i < 4) :
    (streamBytes ws)[4 * j + i]? = some (wordByte ws[j] i) := by
  induction ws generalizing j with
  | nil => simp at hj
  | cons w ws ih =>
    show (wordBytes w ++ streamBytes ws)[4 * j + i]? = _
    cases j with
    | zero =>
      rw [List.getElem?_append_left (by rw [wordBytes_length]; omega)]
      have : i = 0 ∨ i = 1 ∨ i = 2 ∨ i = 3 := by omega
      rcases this with rfl | rfl | rfl | rfl <;> rfl
    | succ j =>
      rw [List.getElem?_append_right (by rw [wordBytes_length]; omega), wordBytes_length]
      rw [show 4 * (j + 1) + i - 4 = 4 * j + i by omega]
      exact ih (by simpa using hj)

/-! ## Regions -/

theorem inside_iff (a n : Nat) : inside a n = true ↔ a + n ≤ Config.dmemWords := by simp [inside]

/-- Two nonempty regions that share no address: all of one lies below the other. -/
theorem not_overlap_iff (r q : Region) :
    overlap r q = false ↔ r.len = 0 ∨ q.len = 0 ∨ q.base + q.len ≤ r.base ∨ r.base + r.len ≤ q.base := by
  simp only [overlap, Bool.and_eq_false_iff, decide_eq_false_iff_not]
  omega

/-- `overlap` says that the two address sets meet (00_scope.md R14). -/
theorem overlap_iff (r q : Region) :
    overlap r q = true ↔ ∃ a, InRegion r.base r.len a ∧ InRegion q.base q.len a := by
  simp only [overlap, Bool.and_eq_true, decide_eq_true_eq, InRegion]
  constructor
  · rintro ⟨⟨⟨h1, h2⟩, h3⟩, h4⟩
    exact ⟨max r.base q.base, by omega, by omega⟩
  · rintro ⟨a, h1, h2⟩
    omega

theorem overlap_comm (r q : Region) : overlap r q = overlap q r := by
  rw [Bool.eq_iff_iff, overlap_iff, overlap_iff]
  exact ⟨fun ⟨a, h1, h2⟩ => ⟨a, h2, h1⟩, fun ⟨a, h1, h2⟩ => ⟨a, h2, h1⟩⟩

/-- No two regions of a list overlap: any two at different places are disjoint. -/
theorem anyOverlap_false_iff (rs : List Region) :
    anyOverlap rs = false ↔ rs.Pairwise (fun r q => overlap r q = false) := by
  induction rs with
  | nil => simp [anyOverlap]
  | cons r rs ih => simp [anyOverlap, ih]

theorem nextPow2_pos (n : Nat) : 0 < nextPow2 n := by
  unfold nextPow2; split
  · decide
  · exact Nat.two_pow_pos _

theorem nextPow2_ge (n : Nat) : n ≤ nextPow2 n := by
  unfold nextPow2
  split
  · omega
  · have : n - 1 < 2 ^ (Nat.log2 (n - 1) + 1) := Nat.lt_log2_self
    omega

theorem nextPow2_eq_two_pow (n : Nat) : nextPow2 n = 2 ^ Nat.log2 (nextPow2 n) := by
  unfold nextPow2
  split
  · rfl
  · rw [Nat.log2_two_pow]

/-- NEXTPOW2 is the least power of two not below n (41_filter.md R171). -/
theorem nextPow2_least (n k : Nat) (h : n ≤ 2 ^ k) : nextPow2 n ≤ 2 ^ k := by
  unfold nextPow2
  split
  · exact Nat.one_le_two_pow
  · apply Nat.pow_le_pow_right (by decide)
    have hne : n - 1 ≠ 0 := by omega
    have : Nat.log2 (n - 1) < k := (Nat.log2_lt hne).2 (by omega)
    omega

theorem ceilDiv_pos {a b : Nat} (ha : 0 < a) (hb : 0 < b) : 0 < ceilDiv a b := by
  unfold ceilDiv
  exact Nat.div_pos (by omega) hb

theorem ceilDiv_le {a b : Nat} (hb : 0 < b) : ceilDiv a b ≤ a := by
  unfold ceilDiv
  rcases Nat.eq_zero_or_pos a with h | h
  · subst h; rw [Nat.div_eq_of_lt (by omega)]
  · rw [Nat.div_le_iff_le_mul_add_pred hb]
    have := Nat.le_mul_of_pos_left a hb
    omega

end Sys2Proof.Machine
end

