-- ==== Sys2Proof/Laws/Transform.lean ====
section
/-! SUPPORT. The transform: lengths, and the combine step of 40_transform.md R143 by index. -/

namespace Sys2Proof.Machine

theorem evens_length {α : Type} (xs : List α) : (evens xs).length = (xs.length + 1) / 2 := by
  induction xs using evens.induct with
  | case1 => simp [evens]
  | case2 x => simp [evens]
  | case3 x y rest ih => simp only [evens, List.length_cons, ih]; omega

theorem odds_length {α : Type} (xs : List α) : (odds xs).length = xs.length / 2 := by
  induction xs using odds.induct with
  | case1 => simp [odds]
  | case2 x => simp [odds]
  | case3 x y rest ih => simp only [odds, List.length_cons, ih]; omega

theorem evens_getElem? {α : Type} (xs : List α) (k : Nat) : (evens xs)[k]? = xs[2 * k]? := by
  induction xs using evens.induct generalizing k with
  | case1 => simp [evens]
  | case2 x => cases k <;> simp [evens]
  | case3 x y rest ih =>
    cases k with
    | zero => simp [evens]
    | succ k => simp [evens, ih, show 2 * (k + 1) = 2 * k + 1 + 1 by omega]

theorem odds_getElem? {α : Type} (xs : List α) (k : Nat) : (odds xs)[k]? = xs[2 * k + 1]? := by
  induction xs using odds.induct generalizing k with
  | case1 => simp [odds]
  | case2 x => simp [odds]
  | case3 x y rest ih =>
    cases k with
    | zero => simp [odds]
    | succ k => simp [odds, ih, show 2 * (k + 1) + 1 = 2 * k + 1 + 1 + 1 by omega]

theorem twiddles_length (d : Direction) (L : Nat) : (twiddles d L).length = 2 ^ (L - 1) := by simp [twiddles]

theorem dit_length (d : Direction) (L : Nat) (x : List Cpx) (h : x.length = 2 ^ L) : (dit d L x).length = 2 ^ L := by
  induction L generalizing x with
  | zero => simpa [dit] using h
  | succ L ih =>
    have he : (evens x).length = 2 ^ L := by rw [evens_length, h, pow_succ]; omega
    have ho : (odds x).length = 2 ^ L := by rw [odds_length, h, pow_succ]; omega
    simp only [dit, List.length_append, List.length_zipWith, ih _ he, ih _ ho, twiddles_length,
      Nat.add_sub_cancel, Nat.min_self, pow_succ]
    omega

/-- The transform of one value is that value, with no arithmetic (40_transform.md R145). -/
@[simp] theorem dit_zero (d : Direction) (x : List Cpx) : dit d 0 x = x := rfl

theorem invFft_length (L : Nat) (x : List Cpx) (h : x.length = 2 ^ L) : (invFft L x).length = 2 ^ L := by
  simp [invFft, dit_length _ _ _ h]

@[simp] theorem cpxWords_length (xs : List Cpx) : (cpxWords xs).length = 2 * xs.length := by
  induction xs with
  | nil => rfl
  | cons x xs ih => simp only [cpxWords, List.length_cons, ih]; omega

theorem cpxWords_getElem?_even (xs : List Cpx) (k : Nat) : (cpxWords xs)[2 * k]? = xs[k]?.map Cpx.re := by
  induction xs generalizing k with
  | nil => simp [cpxWords]
  | cons x xs ih =>
    cases k with
    | zero => simp [cpxWords]
    | succ k => simp [cpxWords, ih, show 2 * (k + 1) = 2 * k + 1 + 1 by omega]

theorem cpxWords_getElem?_odd (xs : List Cpx) (k : Nat) : (cpxWords xs)[2 * k + 1]? = xs[k]?.map Cpx.im := by
  induction xs generalizing k with
  | nil => simp [cpxWords]
  | cons x xs ih =>
    cases k with
    | zero => simp [cpxWords]
    | succ k => simp [cpxWords, ih, show 2 * (k + 1) + 1 = 2 * k + 1 + 1 + 1 by omega]

@[simp] theorem dReadCpx_length (s : State) (a n : Nat) : (s.dReadCpx a n).length = n := by simp [State.dReadCpx]

theorem dReadCpx_getElem? (s : State) (a n k : Nat) (h : k < n) :
    (s.dReadCpx a n)[k]? = some { re := s.dRead (a + 2 * k), im := s.dRead (a + 2 * k + 1) } := by
  simp [State.dReadCpx, h]

/-- The words of complex values read from memory are the memory's words. -/
theorem cpxWords_dReadCpx (s : State) (a n : Nat) : cpxWords (s.dReadCpx a n) = s.dmem.readWords a (2 * n) := by
  apply List.ext_getElem?
  intro j
  rcases Nat.even_or_odd' j with ⟨k, rfl | rfl⟩
  · rw [cpxWords_getElem?_even]
    by_cases h : k < n
    · rw [dReadCpx_getElem? s a n k h]
      simp [Ram.readWords, h, State.dRead]
    · simp [State.dReadCpx, Ram.readWords, h]
  · rw [cpxWords_getElem?_odd]
    by_cases h : k < n
    · rw [dReadCpx_getElem? s a n k h]
      simp [Ram.readWords, show 2 * k + 1 < 2 * n by omega, State.dRead, Nat.add_assoc]
    · simp [State.dReadCpx, Ram.readWords, h, show ¬ 2 * k + 1 < 2 * n by omega]

end Sys2Proof.Machine
end

