-- ==== Sys2Proof/Laws/OverlapAdd.lean ====
section
/-! SUPPORT. The overlap-add laws: what VALIDCTX guarantees, and everything one chunk step can do. -/

namespace Sys2Proof.Machine

/-- What the checks guarantee of a context about to be stepped: its sizes, its cursor, its place. -/
structure OlaShape.Fits (c : OlaShape) (s : State) : Prop where
  bPos     : 0 < c.b
  pPow     : c.p = 2 ^ Nat.log2 c.p
  bLe      : c.b ≤ c.p
  depthLt  : c.depth < 2 ^ 32
  curLt    : ctxHeader s c.cx 5 < c.depth
  inMemory : c.cx + ctxSize c.p c.depth ≤ Config.dmemWords

theorem OlaShape.Fits.depthPos {c : OlaShape} {s : State} (h : c.Fits s) : 0 < c.depth :=
  Nat.lt_of_le_of_lt (Nat.zero_le _) h.curLt

theorem validCtx_none {s : State} {cx : Nat} (h : validCtx s cx = none) :
    inside cx 8 = true ∧ ctxConsistent s cx = true := by
  unfold validCtx at h
  split at h
  · cases h
  · split at h
    · cases h
    · rename_i h1 h2; exact ⟨by simpa using h1, by simpa using h2⟩

/-- A valid context fits. -/
theorem validCtx_fits {s : State} {cx : Nat} (h : validCtx s cx = none) : (ctxShape s cx).Fits s := by
  have hc := (validCtx_none h).2
  simp only [ctxConsistent, Bool.and_eq_true, decide_eq_true_eq, inside] at hc
  obtain ⟨⟨⟨⟨⟨⟨⟨⟨⟨-, hk⟩, hb⟩, hp⟩, -⟩, hd⟩, hcur⟩, -⟩, -⟩, hin⟩ := hc
  refine ⟨hb, ?_, ?_, (BitVec.isLt _), hcur, hin⟩
  · show ctxHeader s cx 3 = 2 ^ Nat.log2 (ctxHeader s cx 3)
    rw [hp]; exact nextPow2_eq_two_pow _
  · show ctxHeader s cx 2 ≤ ctxHeader s cx 3
    have := nextPow2_ge (ctxHeader s cx 1 + ctxHeader s cx 2 - 1)
    omega

theorem chunkSegment_length (α : Word) (win : Bool) {p : Nat} {xs : List Word} (h : xs.length ≤ p) :
    (chunkSegment α win p xs).length = p := by
  simp [chunkSegment, h]

theorem filteredSegment_length {c : OlaShape} (s : State) {xs : List Word} (hp : c.p = 2 ^ Nat.log2 c.p)
    (hx : xs.length ≤ c.p) : (filteredSegment c s xs).length = c.p := by
  unfold filteredSegment
  rw [invFft_length, ← hp]
  rw [List.length_zipWith, dit_length _ _ _ ((chunkSegment_length _ _ hx).trans hp), dReadCpx_length, ← hp,
    Nat.min_self]

@[simp] theorem olaStep_out_length (c : OlaShape) (xs : List Word) (s : State) : (olaStep c xs s).out.length = c.b := by
  simp [olaStep]

/-- A chunk step changes DMEM only. -/
theorem olaStep_dmemOnly (c : OlaShape) (xs : List Word) (s : State) :
    (olaStep c xs s).state = { s with dmem := (olaStep c xs s).state.dmem } := rfl

/-- The words a chunk step may write: the segment area and the cursor. -/
def OlaShape.Written (c : OlaShape) (a : Nat) : Prop :=
  InRegion (c.cx + 8 + 2 * c.p) (2 * c.p * c.depth) a ∨ a = c.cx + 5

theorem OlaShape.written_in_region {c : OlaShape} {a : Nat} (h : c.Written a) : InRegion c.cx (ctxSize c.p c.depth) a := by
  unfold OlaShape.Written at h
  unfold InRegion ctxSize at *
  generalize 2 * c.p * c.depth = z at *
  omega

/-- The segment at the cursor lies in the segment area. -/
theorem OlaShape.segBase_bounds {c : OlaShape} {d : Nat} (h : d < c.depth) :
    c.cx + 8 + 2 * c.p ≤ c.segBase d ∧ c.segBase d + 2 * c.p ≤ c.cx + 8 + 2 * c.p + 2 * c.p * c.depth := by
  unfold OlaShape.segBase
  have h1 : 2 * c.p * d + 2 * c.p ≤ 2 * c.p * c.depth := by
    calc 2 * c.p * d + 2 * c.p = 2 * c.p * (d + 1) := by ring
      _ ≤ 2 * c.p * c.depth := Nat.mul_le_mul_left _ h
  omega

/-- A word that is neither the cursor nor in the current segment is untouched. -/
theorem olaStep_dRead_other {c : OlaShape} {xs : List Word} {s : State} (hp : c.p = 2 ^ Nat.log2 c.p)
    (hx : xs.length ≤ c.p) {a : Nat} (h1 : a ≠ c.cx + 5)
    (h2 : a < c.segBase (ctxHeader s c.cx 5) ∨ c.segBase (ctxHeader s c.cx 5) + 2 * c.p ≤ a) :
    (olaStep c xs s).state.dRead a = s.dRead a := by
  simp only [olaStep]
  rw [dRead_dWrite, if_neg h1, dRead_dWriteWords_other]
  rw [cpxWords_length, filteredSegment_length s hp hx]
  exact h2

/-- The frame of a chunk step. -/
theorem olaStep_frame {c : OlaShape} {xs : List Word} {s : State} (hf : c.Fits s) (hx : xs.length ≤ c.p) {a : Nat}
    (h : ¬ c.Written a) : (olaStep c xs s).state.dRead a = s.dRead a := by
  unfold OlaShape.Written InRegion at h
  have hb := OlaShape.segBase_bounds hf.curLt
  apply olaStep_dRead_other hf.pPow hx
  · omega
  · omega

/-- The cursor after a chunk step (41_filter.md R175). -/
theorem olaStep_cursor (c : OlaShape) (xs : List Word) (s : State) :
    (olaStep c xs s).state.dRead (c.cx + 5) = BitVec.ofNat 32 ((ctxHeader s c.cx 5 + 1) % c.depth) := by
  simp only [olaStep]
  rw [dRead_dWrite, if_pos rfl]

theorem olaStep_cursor_header {c : OlaShape} {s : State} (xs : List Word) (hf : c.Fits s) :
    ctxHeader (olaStep c xs s).state c.cx 5 = (ctxHeader s c.cx 5 + 1) % c.depth := by
  unfold ctxHeader
  rw [olaStep_cursor, BitVec.toNat_ofNat]
  apply Nat.mod_eq_of_lt
  exact lt_trans (Nat.mod_lt _ hf.depthPos) hf.depthLt

/-- A context still fits after it is stepped. -/
theorem olaStep_fits {c : OlaShape} {s : State} (xs : List Word) (hf : c.Fits s) : c.Fits (olaStep c xs s).state :=
  { bPos := hf.bPos, pPow := hf.pPow, bLe := hf.bLe, depthLt := hf.depthLt, inMemory := hf.inMemory
    curLt := by rw [olaStep_cursor_header xs hf]; exact Nat.mod_lt _ hf.depthPos }

/-- A context still fits in a state where its cursor word reads the same. -/
theorem OlaShape.Fits.of_cursor {c : OlaShape} {s t : State} (hf : c.Fits s) (h : t.dRead (c.cx + 5) = s.dRead (c.cx + 5)) :
    c.Fits t :=
  { bPos := hf.bPos, pPow := hf.pPow, bLe := hf.bLe, depthLt := hf.depthLt, inMemory := hf.inMemory
    curLt := by have := hf.curLt; unfold ctxHeader at *; rwa [h] }

/-- A chunk step keeps the canonical form of DMEM. -/
theorem olaStep_wf {c : OlaShape} {s : State} {xs : List Word} (hf : c.Fits s) (hx : xs.length ≤ c.p)
    (hw : s.dmem.wf Config.dmemWords = true) : (olaStep c xs s).state.dmem.wf Config.dmemWords = true := by
  have hb := OlaShape.segBase_bounds hf.curLt
  have hm := hf.inMemory
  unfold ctxSize at hm
  simp only [olaStep, dWrite_dmem, dWriteWords_dmem]
  apply Ram.wf_write
  · apply Ram.wf_writeWords _ _ hw
    rw [cpxWords_length, filteredSegment_length s hf.pPow hx]
    omega
  · omega

/-! ## OLA_APPLY -/

/-- Where OLA_APPLY may write: its output region, the segments and the cursor of its context. -/
def applyWritten (c : OlaShape) (o m a : Nat) : Prop := InRegion o m a ∨ c.Written a

/-- The checks of OLA_APPLY say that the output region misses the context. -/
theorem output_misses_context {c : OlaShape} {o m : Nat} (h : overlap { base := o, len := m } c.region = false)
    {a : Nat} (ha : InRegion o m a) : ¬ InRegion c.cx (ctxSize c.p c.depth) a := by
  intro hc
  have : overlap { base := o, len := m } c.region = true := (overlap_iff _ _).2 ⟨a, ha, hc⟩
  rw [h] at this; cases this

theorem olaApplyChunk_dmemOnly (c : OlaShape) (i o : Nat) (s : State) (j : Nat) :
    olaApplyChunk c i o s j = { s with dmem := (olaApplyChunk c i o s j).dmem } := rfl

/-- What holds of every state between the chunks of an OLA_APPLY that began in `s`. -/
structure ApplyInv (c : OlaShape) (o m : Nat) (s t : State) : Prop where
  dmemOnly : t = { s with dmem := t.dmem }
  fits     : c.Fits t
  frame    : ∀ a, ¬ applyWritten c o m a → t.dRead a = s.dRead a
  wf       : s.dmem.wf Config.dmemWords = true → t.dmem.wf Config.dmemWords = true

theorem olaApplyChunk_inv {c : OlaShape} {i o m : Nat} {s t : State} {j : Nat} (hj : j < m / c.b)
    (ho : o + m ≤ Config.dmemWords) (hov : overlap { base := o, len := m } c.region = false)
    (h : ApplyInv c o m s t) : ApplyInv c o m s (olaApplyChunk c i o t j) := by
  have hf := h.fits
  have hx : (t.dmem.readWords (i + j * c.b) c.b).length ≤ c.p := by rw [Ram.readWords_length]; exact hf.bLe
  have hjb : j * c.b + c.b ≤ m := by
    calc j * c.b + c.b = (j + 1) * c.b := by ring
      _ ≤ m / c.b * c.b := Nat.mul_le_mul_right _ hj
      _ ≤ m := Nat.div_mul_le_self _ _
  have hlen := olaStep_out_length c (t.dmem.readWords (i + j * c.b) c.b) t
  refine ⟨?_, ?_, ?_, ?_⟩
  · rw [olaApplyChunk_dmemOnly, h.dmemOnly]
  · apply (olaStep_fits _ hf).of_cursor
    unfold olaApplyChunk
    apply dRead_dWriteWords_other
    rw [hlen]
    by_contra hcon
    have hin : InRegion o m (c.cx + 5) := by unfold InRegion; omega
    exact output_misses_context hov hin (OlaShape.written_in_region (Or.inr rfl))
  · intro a ha
    have h1 : ¬ c.Written a := fun hw => ha (Or.inr hw)
    have h2 : ¬ InRegion o m a := fun hw => ha (Or.inl hw)
    unfold olaApplyChunk
    rw [dRead_dWriteWords_other, olaStep_frame hf hx h1, h.frame a ha]
    rw [hlen]
    unfold InRegion at h2
    omega
  · intro hw
    unfold olaApplyChunk
    rw [dWriteWords_dmem]
    apply Ram.wf_writeWords _ _ (olaStep_wf hf hx (h.wf hw))
    rw [hlen]; omega

/-- The chunks of an OLA_APPLY keep the chunk invariant. -/
theorem olaApply_fold_inv {c : OlaShape} {i o m : Nat} {s : State} (ho : o + m ≤ Config.dmemWords)
    (hov : overlap { base := o, len := m } c.region = false) (js : List Nat) (hjs : ∀ j ∈ js, j < m / c.b) (t : State)
    (h : ApplyInv c o m s t) : ApplyInv c o m s (js.foldl (olaApplyChunk c i o) t) := by
  induction js generalizing t with
  | nil => exact h
  | cons j js ih =>
    rw [List.foldl_cons]
    exact ih (fun k hk => hjs k (List.mem_cons_of_mem _ hk)) _
      (olaApplyChunk_inv (hjs j List.mem_cons_self) ho hov h)

/-- What the checks of OLA_APPLY guarantee when they pass. -/
theorem checkOlaApply_none {s : State} (h : checkOlaApply s = none) :
    validCtx s (argU32 s 0) = none ∧ argU32 s 3 % (ctxShape s (argU32 s 0)).b = 0 ∧
    argU32 s 1 + argU32 s 3 ≤ Config.dmemWords ∧ argU32 s 2 + argU32 s 3 ≤ Config.dmemWords ∧
    (argU32 s 1 = argU32 s 2 ∨
      overlap { base := argU32 s 1, len := argU32 s 3 } { base := argU32 s 2, len := argU32 s 3 } = false) ∧
    overlap { base := argU32 s 1, len := argU32 s 3 } (ctxShape s (argU32 s 0)).region = false ∧
    overlap { base := argU32 s 2, len := argU32 s 3 } (ctxShape s (argU32 s 0)).region = false := by
  unfold checkOlaApply at h
  dsimp only at h
  cases hv : validCtx s (argU32 s 0) with
  | some e => rw [hv] at h; cases h
  | none =>
    rw [hv] at h
    dsimp only at h
    split at h
    · cases h
    rename_i h1
    split at h
    · cases h
    rename_i h2
    split at h
    · cases h
    rename_i h3
    split at h
    · cases h
    rename_i h4
    split at h
    · cases h
    rename_i h5
    simp only [Bool.or_eq_true, Bool.not_eq_true', not_or, Bool.not_eq_false, inside_iff] at h2
    refine ⟨rfl, by omega, h2.1, h2.2, ?_, by simpa using h4, by simpa using h5⟩
    by_cases hio : argU32 s 1 = argU32 s 2
    · exact Or.inl hio
    · right
      by_contra hc
      exact h3 ⟨hio, by simpa using hc⟩

/-- Everything a successful OLA_APPLY does to the state besides its results. -/
theorem olaApplyEffect_inv {s : State} (h : checkOlaApply s = none) :
    ApplyInv (ctxShape s (argU32 s 0)) (argU32 s 2) (argU32 s 3) s (olaApplyEffect s).state := by
  obtain ⟨hv, -, -, ho, -, -, hov⟩ := checkOlaApply_none h
  refine olaApply_fold_inv ho hov _ (fun j hj => List.mem_range.1 hj) s ?_
  exact ⟨rfl, validCtx_fits hv, fun _ _ => rfl, id⟩

/-! ## OLA_INIT -/

theorem newContext_length {k b p depth : Nat} {win : Bool} {H : List Cpx} (hH : H.length = p) :
    (newContext k b p depth win H).length = ctxSize p depth := by
  unfold newContext ctxSize
  simp only [List.length_append, List.length_cons, List.length_nil, cpxWords_length, List.length_replicate, hH]

theorem paddedKernel_length {s : State} {ka k p : Nat} (h : k ≤ p) : (paddedKernel s ka k p).length = p := by
  simp [paddedKernel, Ram.readWords_length, h]

/-- What the checks of OLA_INIT guarantee when they pass. -/
theorem checkOlaInit_none {s : State} (h : checkOlaInit s = none) :
    0 < argU32 s 2 ∧ 0 < argU32 s 3 ∧
    Nat.log2 (nextPow2 (argU32 s 2 + argU32 s 3 - 1)) ≤ Config.fftLog2Max ∧
    argU32 s 1 + argU32 s 2 ≤ Config.dmemWords ∧
    argU32 s 0 + ctxSize (nextPow2 (argU32 s 2 + argU32 s 3 - 1))
      (ceilDiv (nextPow2 (argU32 s 2 + argU32 s 3 - 1)) (argU32 s 3)) ≤ Config.dmemWords ∧
    overlap ⟨argU32 s 1, argU32 s 2⟩
      ⟨argU32 s 0, ctxSize (nextPow2 (argU32 s 2 + argU32 s 3 - 1))
        (ceilDiv (nextPow2 (argU32 s 2 + argU32 s 3 - 1)) (argU32 s 3))⟩ = false := by
  unfold checkOlaInit at h
  dsimp only at h
  split at h
  · cases h
  rename_i h1
  split at h
  · cases h
  rename_i h2
  split at h
  · cases h
  rename_i h3
  split at h
  · cases h
  rename_i h4
  split at h
  · cases h
  rename_i h5
  simp only [Bool.not_eq_true', Bool.not_eq_false, inside_iff] at h3 h4
  refine ⟨by omega, by omega, by omega, h3, h4, by simpa using h5⟩

/-- The length of the transformed kernel of an OLA_INIT. -/
theorem olaInit_kernel_length (s : State) {ka k b : Nat} (hb : 0 < b) :
    (dit .fwd (Nat.log2 (nextPow2 (k + b - 1))) (paddedKernel s ka k (nextPow2 (k + b - 1)))).length
      = nextPow2 (k + b - 1) := by
  have hk : k ≤ nextPow2 (k + b - 1) := by have := nextPow2_ge (k + b - 1); omega
  rw [dit_length, ← nextPow2_eq_two_pow]
  rw [paddedKernel_length hk]; exact nextPow2_eq_two_pow _

end Sys2Proof.Machine
end

