-- ==== Sys2Proof/Laws/Spatial.lean ====
section
/-! SUPPORT. The mixer laws: what MIX_CHECKS guarantees, and everything each stage of MIX can do. -/

namespace Sys2Proof.Machine

/-! ## Snapshot and reverb -/

/-- All that a snapshot can do (42_spatial.md R215). -/
theorem snapshot_cases (s : State) :
    (s.changed = false ∧ snapshot s = s) ∨
    (s.changed = true ∧ s.tun.revDelay = s.act.revDelay ∧ s.tun.revDecay = s.act.revDecay ∧
      snapshot s = { s with act := s.tun, changed := false }) ∨
    (s.changed = true ∧ (s.tun.revDelay ≠ s.act.revDelay ∨ s.tun.revDecay ≠ s.act.revDecay) ∧
      snapshot s = reverbRebuild { s with act := s.tun, changed := false }) := by
  unfold snapshot
  by_cases hc : s.changed
  · by_cases hd : s.tun.revDelay ≠ s.act.revDelay ∨ s.tun.revDecay ≠ s.act.revDecay
    · exact .inr (.inr ⟨hc, hd, by simp [hc, hd]⟩)
    · simp only [not_or, ne_eq, not_not] at hd
      exact .inr (.inl ⟨hc, hd.1, hd.2, by simp [hc, hd]⟩)
  · exact .inl ⟨by simpa using hc, by simp [hc]⟩

/-- The enables after a snapshot are those the checks looked at. -/
theorem snapshot_act (s : State) : (snapshot s).act = prospective s := by
  unfold prospective
  rcases snapshot_cases s with ⟨hc, h⟩ | ⟨hc, -, -, h⟩ | ⟨hc, -, h⟩ <;> rw [h] <;> simp [hc]

@[simp] theorem snapshot_changed (s : State) : (snapshot s).changed = false := by
  rcases snapshot_cases s with ⟨hc, h⟩ | ⟨hc, -, -, h⟩ | ⟨hc, -, h⟩ <;> rw [h] <;> simp [hc]

/-- A snapshot changes the settings and the reverb only. -/
theorem snapshot_only (s : State) :
    snapshot s = { s with act := (snapshot s).act, changed := (snapshot s).changed,
                          revLen := (snapshot s).revLen, revCur := (snapshot s).revCur, rev := (snapshot s).rev } := by
  rcases snapshot_cases s with ⟨hc, h⟩ | ⟨hc, -, -, h⟩ | ⟨hc, -, h⟩ <;> rw [h] <;> rfl

@[simp] theorem snapshot_dmem (s : State) : (snapshot s).dmem = s.dmem := by rw [snapshot_only]
@[simp] theorem snapshot_layout (s : State) : (snapshot s).layout = s.layout := by rw [snapshot_only]

/-- A reverb step changes the reverb RAM and its cursor only (42_spatial.md R218). -/
theorem reverbStep_only (s : State) (u : Word) :
    (reverbStep s u).state = { s with rev := (reverbStep s u).state.rev, revCur := (reverbStep s u).state.revCur } := by
  unfold reverbStep; split <;> rfl

theorem fKey_le_of_not_fle {a b : Word} (hna : isNaN a = false) (hnb : isNaN b = false) (h : fle a b = false) :
    fKey b < fKey a := by
  simpa [fle, hna, hnb] using h

/-- Magnitudes of finite words are ordered as their magnitude bits. -/
theorem fMag_mono {x y : Word} (h : fMagBits x ≤ fMagBits y) : fMag x ≤ fMag y := by
  rw [fMag_eq_magOf, fMag_eq_magOf]; exact magOf_mono h

/-- The reverb length is at most the reverb RAM (42_spatial.md R216). -/
theorem revLength_le (s : State) : revLength s ≤ Config.revWords := by
  unfold revLength
  dsimp only
  split
  · exact Nat.zero_le _
  · rename_i h1
    split
    · exact le_rfl
    · rename_i h2
      simp only [Bool.or_eq_true, Bool.not_eq_true', not_or, Bool.not_eq_true, Bool.not_eq_false] at h1
      obtain ⟨hn, hpos⟩ := h1
      have hlt := fKey_le_of_not_fle (by decide) hn (Bool.eq_false_iff.2 h2)
      have hs : fSign (fmul s.act.revDelay (f32 s.devFs.toNat)) = false := by
        by_contra hc
        simp only [Bool.not_eq_false] at hc
        simp only [flt, fKey, hc, Bool.and_eq_true, decide_eq_true_eq, if_true] at hpos
        have h0 : fSign (0x00000000#32) = false := by decide
        have h1 : fMagBits (0x00000000#32) = 0 := by decide
        rw [h0, h1] at hpos
        simp at hpos
        omega
      have hr : fSign (f32 Config.revWords) = false := by decide
      simp only [fKey, hs, hr, Bool.false_eq_true, if_false] at hlt
      have hm := fMag_mono (show fMagBits _ ≤ fMagBits _ from by exact_mod_cast hlt.le)
      unfold truncNat
      calc _ ≤ fMag (f32 Config.revWords) / 2 ^ 149 := Nat.div_le_div_right hm
        _ ≤ Config.revWords := by decide

/-- The reverb part of the state's invariant. -/
structure ReverbInv (s : State) : Prop where
  wf       : s.rev.wf Config.revWords = true
  lenBound : s.revLen ≤ Config.revWords
  curBound : s.revCur < max s.revLen 1
  zeroed   : 0 < s.revLen → s.rev.base = .zero

theorem reverbRebuild_inv (s : State) : ReverbInv (reverbRebuild s) :=
  { wf := rfl, lenBound := revLength_le s, curBound := by simp, zeroed := fun _ => rfl }

theorem snapshot_reverbInv {s : State} (h : ReverbInv s) : ReverbInv (snapshot s) := by
  rcases snapshot_cases s with ⟨-, e⟩ | ⟨-, -, -, e⟩ | ⟨-, -, e⟩ <;> rw [e]
  · exact h
  · exact ⟨h.wf, h.lenBound, h.curBound, h.zeroed⟩
  · exact reverbRebuild_inv _

theorem reverbStep_inv {s : State} (u : Word) (h : ReverbInv s) : ReverbInv (reverbStep s u).state := by
  unfold reverbStep
  split
  · exact h
  · rename_i hl
    have hc := h.curBound
    have hb := h.lenBound
    have hlt : s.revCur < s.revLen := by omega
    refine ⟨Ram.wf_write _ _ h.wf (by omega), hb, ?_, ?_⟩
    · have := Nat.mod_lt (s.revCur + 1) (show 0 < s.revLen by omega)
      show (s.revCur + 1) % s.revLen < max s.revLen 1
      omega
    · intro h0
      show (s.rev.write _ _).base = .zero
      rw [Ram.write_base]; exact h.zeroed h0

/-! ## What the checks guarantee -/

theorem checkMixCtx_none {s : State} {b cx : Nat} (h : checkMixCtx s b cx = none) :
    validCtx s cx = none ∧ (ctxShape s cx).b = b := by
  unfold checkMixCtx at h
  cases hv : validCtx s cx with
  | some e => rw [hv] at h; cases h
  | none =>
    rw [hv] at h
    dsimp only at h
    split at h
    · cases h
    · rename_i hb; exact ⟨rfl, by simpa using hb⟩

/-- The contexts a MIX steps, in the order of the regions list. -/
def mixContexts (s : State) (m : MixOperands) : List OlaShape :=
  (if runsDistance s then [ctxShape s m.cd] else []) ++
  (if runsLfeLowPass s then (lfeBases s m).map (ctxShape s) else [])

/-- What MIX_CHECKS guarantees when it passes (42_spatial.md R211). -/
structure MixReady (s : State) (m : MixOperands) : Prop where
  vPos     : 0 < m.v
  vLe      : m.v ≤ Config.maxV
  bPos     : 0 < m.b
  xIn      : m.x + m.v * m.b ≤ Config.dmemWords
  yIn      : m.y + s.layout.speakers * m.b ≤ Config.dmemWords
  tIn      : m.t + m.v ≤ Config.dmemWords
  scrIn    : m.scr + 3 * m.b ≤ Config.dmemWords
  dist     : runsDistance s = true → validCtx s m.cd = none ∧ (ctxShape s m.cd).b = m.b
  clIn     : runsLfeLowPass s = true → m.cl + m.v ≤ Config.dmemWords
  lfe      : runsLfeLowPass s = true → ∀ c ∈ lfeBases s m, validCtx s c = none ∧ (ctxShape s c).b = m.b
  disjoint : (mixRegions s m).Pairwise (fun r q => overlap r q = false)

theorem checkMix_ready {s : State} (h : checkMix s = none) : MixReady s (mixOperands s) := by
  unfold checkMix at h
  dsimp only at h
  split at h
  · cases h
  rename_i h1
  split at h
  · cases h
  rename_i h2
  cases hd : checkDistance s (mixOperands s) with
  | some e => rw [hd] at h; cases h
  | none =>
  rw [hd] at h
  dsimp only at h
  cases hl : checkLfe s (mixOperands s) with
  | some e => rw [hl] at h; cases h
  | none =>
  rw [hl] at h
  dsimp only at h
  split at h
  · cases h
  rename_i h3
  simp only [Bool.or_eq_true, Bool.not_eq_true', not_or, Bool.not_eq_false, inside_iff] at h2
  obtain ⟨⟨⟨hx, hy⟩, ht⟩, hs⟩ := h2
  refine ⟨by omega, by omega, by omega, hx, hy, ht, hs, ?_, ?_, ?_, ?_⟩
  · intro hr
    rw [checkDistance, if_pos hr] at hd
    exact checkMixCtx_none hd
  · intro hr
    rw [checkLfe, if_pos hr] at hl
    split at hl
    · cases hl
    · rename_i hc; simpa [inside_iff] using hc
  · intro hr c hc
    rw [checkLfe, if_pos hr] at hl
    split at hl
    · cases hl
    · rw [List.findSome?_eq_none_iff] at hl
      exact checkMixCtx_none (hl c hc)
  · exact (anyOverlap_false_iff _).1 (by simpa using h3)

/-- Every context of a ready MIX fits and has MIX's block size. -/
theorem MixReady.context {s : State} {m : MixOperands} (h : MixReady s m) {c : OlaShape} (hc : c ∈ mixContexts s m) :
    c.Fits s ∧ c.b = m.b := by
  unfold mixContexts at hc
  rw [List.mem_append] at hc
  rcases hc with hc | hc
  · split at hc
    · rename_i hr
      rw [List.mem_singleton] at hc
      subst hc
      exact ⟨validCtx_fits (h.dist hr).1, (h.dist hr).2⟩
    · cases hc
  · split at hc
    · rename_i hr
      obtain ⟨b, hb, rfl⟩ := List.mem_map.1 hc
      exact ⟨validCtx_fits (h.lfe hr b hb).1, (h.lfe hr b hb).2⟩
    · cases hc

/-- Two contexts of a ready MIX are the same or lie apart; scratch and output lie apart from each. -/
theorem MixReady.apart {s : State} {m : MixOperands} (h : MixReady s m) :
    (mixContexts s m).Pairwise (fun c d => overlap c.region d.region = false) ∧
    (∀ c ∈ mixContexts s m, overlap ⟨m.scr, 3 * m.b⟩ c.region = false) ∧
    (∀ c ∈ mixContexts s m, overlap ⟨m.y, s.layout.speakers * m.b⟩ c.region = false) := by
  have hp := h.disjoint
  unfold mixRegions at hp
  rw [List.append_assoc, List.pairwise_append] at hp
  obtain ⟨-, hq, hcross⟩ := hp
  have hmem : ∀ c ∈ mixContexts s m, c.region ∈
      ((if runsDistance s = true then [(ctxShape s m.cd).region] else []) ++
        (if runsLfeLowPass s = true then
          { base := m.cl, len := m.v } :: (lfeBases s m).map fun c => (ctxShape s c).region
         else [])) := by
    intro c hc
    unfold mixContexts at hc
    rw [List.mem_append] at hc ⊢
    rcases hc with hc | hc
    · left
      split at hc
      · rename_i hr; rw [List.mem_singleton] at hc; subst hc; simp [hr]
      · cases hc
    · right
      split at hc
      · rename_i hr
        rw [if_pos hr]
        obtain ⟨b, hb, rfl⟩ := List.mem_map.1 hc
        exact List.mem_cons_of_mem _ (List.mem_map.2 ⟨b, hb, rfl⟩)
      · cases hc
  refine ⟨?_, fun c hc => hcross _ (by simp) _ (hmem c hc), fun c hc => hcross _ (by simp) _ (hmem c hc)⟩
  rw [List.pairwise_append] at hq
  obtain ⟨hq1, hq2, hq3⟩ := hq
  unfold mixContexts
  rw [List.pairwise_append]
  refine ⟨?_, ?_, ?_⟩
  · split <;> simp
  · split
    · rename_i hr
      rw [if_pos hr] at hq2
      rw [List.pairwise_map]
      have := (List.pairwise_cons.1 hq2).2
      rwa [List.pairwise_map] at this
    · exact List.Pairwise.nil
  · intro c hc d hd
    apply hq3
    · split at hc
      · rename_i hr; rw [List.mem_singleton] at hc; subst hc; simp [hr]
      · cases hc
    · split at hd
      · rename_i hr
        rw [if_pos hr]
        obtain ⟨b, hb, rfl⟩ := List.mem_map.1 hd
        exact List.mem_cons_of_mem _ (List.mem_map.2 ⟨b, hb, rfl⟩)
      · cases hd

/-! ## The filter stages -/

/-- Words a stage may write: scratch, and the segments and cursors of the contexts. -/
def stageWritten (m : MixOperands) (ctxs : List OlaShape) (a : Nat) : Prop :=
  InRegion m.scr (3 * m.b) a ∨ ∃ c ∈ ctxs, c.Written a

/-- What the stages rely on: contexts of the block size, apart from each other and from scratch. -/
structure StageSetting (m : MixOperands) (ctxs : List OlaShape) : Prop where
  block : ∀ c ∈ ctxs, c.b = m.b
  apart : ctxs.Pairwise (fun c d => overlap c.region d.region = false)
  scr   : ∀ c ∈ ctxs, overlap ⟨m.scr, 3 * m.b⟩ c.region = false
  scrIn : m.scr + 3 * m.b ≤ Config.dmemWords

theorem MixReady.setting {s : State} {m : MixOperands} (h : MixReady s m) : StageSetting m (mixContexts s m) :=
  { block := fun _ hc => (h.context hc).2, apart := h.apart.1, scr := h.apart.2.1, scrIn := h.scrIn }

/-- What holds of every state during the stages of a MIX that began them in `s`. -/
structure StageInv (m : MixOperands) (ctxs : List OlaShape) (s t : State) : Prop where
  dmemOnly : t = { s with dmem := t.dmem }
  fits     : ∀ c ∈ ctxs, c.Fits t
  frame    : ∀ a, ¬ stageWritten m ctxs a → t.dRead a = s.dRead a
  wf       : s.dmem.wf Config.dmemWords = true → t.dmem.wf Config.dmemWords = true

theorem cursor_not_in_scr {m : MixOperands} {ctxs : List OlaShape} (hs : StageSetting m ctxs) {c : OlaShape} (hc : c ∈ ctxs) :
    ¬ InRegion m.scr (3 * m.b) (c.cx + 5) := by
  intro hin
  have : overlap ⟨m.scr, 3 * m.b⟩ c.region = true :=
    (overlap_iff _ _).2 ⟨_, hin, OlaShape.written_in_region (Or.inr rfl)⟩
  rw [hs.scr c hc] at this; cases this

/-- Writing inside scratch keeps the stage invariant. -/
theorem StageInv.write_scr {m : MixOperands} {ctxs : List OlaShape} {s t : State} (hs : StageSetting m ctxs)
    (h : StageInv m ctxs s t) {off : Nat} {ws : List Word} (hoff : off + ws.length ≤ 3 * m.b) :
    StageInv m ctxs s (t.dWriteWords (m.scr + off) ws) := by
  have hin := hs.scrIn
  refine ⟨?_, ?_, ?_, ?_⟩
  · conv_lhs => rw [h.dmemOnly]
    rfl
  · intro c hc
    apply (h.fits c hc).of_cursor
    have := cursor_not_in_scr hs hc
    unfold InRegion at this
    apply dRead_dWriteWords_other; omega
  · intro a ha
    have hns : ¬ InRegion m.scr (3 * m.b) a := fun hw => ha (Or.inl hw)
    unfold InRegion at hns
    rw [dRead_dWriteWords_other _ _ _ (by omega), h.frame a ha]
  · intro hw
    rw [dWriteWords_dmem]
    exact Ram.wf_writeWords _ _ (h.wf hw) (by omega)

/-- Stepping one of the contexts keeps the stage invariant. -/
theorem StageInv.step_ctx {m : MixOperands} {ctxs : List OlaShape} {s t : State} (hs : StageSetting m ctxs)
    (h : StageInv m ctxs s t) {c : OlaShape} (hc : c ∈ ctxs) {xs : List Word} (hx : xs.length = m.b) :
    StageInv m ctxs s (olaStep c xs t).state := by
  have hf := h.fits c hc
  have hxp : xs.length ≤ c.p := by rw [hx, ← hs.block c hc]; exact hf.bLe
  refine ⟨?_, ?_, ?_, ?_⟩
  · rw [olaStep_dmemOnly]
    conv_lhs => rw [h.dmemOnly]
    rfl
  · intro d hd
    by_cases hcd : c = d
    · subst hcd; exact olaStep_fits xs hf
    · apply (h.fits d hd).of_cursor
      apply olaStep_frame hf hxp
      intro hw
      have : Std.Symm (fun c d : OlaShape => overlap c.region d.region = false) :=
        ⟨fun _ _ hab => by rw [overlap_comm]; exact hab⟩
      have hov : overlap c.region d.region = false := hs.apart.forall hc hd hcd
      have : overlap c.region d.region = true :=
        (overlap_iff _ _).2 ⟨_, OlaShape.written_in_region hw, OlaShape.written_in_region (Or.inr rfl)⟩
      rw [hov] at this; cases this
  · intro a ha
    rw [olaStep_frame hf hxp (fun hw => ha (Or.inr ⟨c, hc, hw⟩)), h.frame a ha]
  · intro hw; exact olaStep_wf hf hxp (h.wf hw)

/-- Stepping a context and writing its output inside scratch keeps the stage invariant. -/
theorem StageInv.filter {m : MixOperands} {ctxs : List OlaShape} {s t : State} (hs : StageSetting m ctxs)
    (h : StageInv m ctxs s t) {c : OlaShape} (hc : c ∈ ctxs) {xs : List Word} (hx : xs.length = m.b) {off : Nat}
    (hoff : off + m.b ≤ 3 * m.b) :
    StageInv m ctxs s ((olaStep c xs t).state.dWriteWords (m.scr + off) (olaStep c xs t).out) :=
  (h.step_ctx hs hc hx).write_scr hs (by rw [olaStep_out_length, hs.block c hc]; exact hoff)

theorem distStage_inv {m : MixOperands} {ctxs : List OlaShape} {s t : State} (hs : StageSetting m ctxs)
    (h : StageInv m ctxs s t) (d : Ram) {c : OlaShape} (hc : c ∈ ctxs) : StageInv m ctxs s (distStage d m c t) := by
  have h1 := h.write_scr hs (off := 0) (ws := (List.range m.b).map (channelSum d m)) (by simp; omega)
  rw [Nat.add_zero] at h1
  have h2 := h1.filter hs hc (Ram.readWords_length
    (t.dWriteWords m.scr ((List.range m.b).map (channelSum d m))).dmem m.scr m.b) (off := 0) (by omega)
  rw [Nat.add_zero] at h2
  exact h2

theorem lfeChannel_inv {m : MixOperands} {ctxs : List OlaShape} {s t : State} (hs : StageSetting m ctxs)
    (h : StageInv m ctxs s t) (d : Ram) {vc : Nat × OlaShape} (hc : vc.2 ∈ ctxs) :
    StageInv m ctxs s (lfeChannel d m t vc) := by
  have h1 := h.write_scr hs (off := m.b) (ws := (List.range m.b).map fun f => mixInput d m f vc.1) (by simp; omega)
  have h2 := h1.filter hs hc (Ram.readWords_length
    (t.dWriteWords (m.scr + m.b) ((List.range m.b).map fun f => mixInput d m f vc.1)).dmem (m.scr + m.b) m.b)
    (off := m.b) (by omega)
  exact h2.write_scr hs (off := 2 * m.b) (by rw [List.length_map, List.length_range]; omega)

theorem lfeFold_inv {m : MixOperands} {ctxs : List OlaShape} {s : State} (hs : StageSetting m ctxs) (d : Ram)
    (vcs : List (Nat × OlaShape)) (hvc : ∀ vc ∈ vcs, vc.2 ∈ ctxs) (t : State) (h : StageInv m ctxs s t) :
    StageInv m ctxs s (vcs.foldl (lfeChannel d m) t) := by
  induction vcs generalizing t with
  | nil => exact h
  | cons vc vcs ih =>
    rw [List.foldl_cons]
    exact ih (fun x hx => hvc x (List.mem_cons_of_mem _ hx)) _ (lfeChannel_inv hs h d (hvc vc List.mem_cons_self))

/-- The stages of MIX (42_spatial.md R210 to R214) keep the stage invariant, from the snapshot on. -/
theorem mixStages_inv {s : State} (h : MixReady s (mixOperands s)) :
    StageInv (mixOperands s) (mixContexts s (mixOperands s)) (snapshot s) (mixStages s) := by
  have hs := h.setting
  have h0 : StageInv (mixOperands s) (mixContexts s (mixOperands s)) (snapshot s) (snapshot s) := by
    refine ⟨rfl, fun c hc => ?_, fun _ _ => rfl, id⟩
    apply ((h.context hc).1).of_cursor
    simp [State.dRead]
  have hd : (snapshot s).act.distEn = runsDistance s := by rw [snapshot_act]; rfl
  have hl : ∀ t : State, t.act = (snapshot s).act → s.layout.hasLfe = true → t.act.lfeLpEn = runsLfeLowPass s := by
    intro t ht hlfe
    rw [ht, snapshot_act]; simp [runsLfeLowPass, hlfe]
  unfold mixStages
  dsimp only
  have h1 : StageInv (mixOperands s) (mixContexts s (mixOperands s)) (snapshot s)
      (if (snapshot s).act.distEn = true then
        distStage s.dmem (mixOperands s) (ctxShape s (mixOperands s).cd) (snapshot s) else snapshot s) := by
    split
    · rename_i hr
      apply distStage_inv hs h0
      rw [hd] at hr
      simp [mixContexts, hr]
    · exact h0
  split
  · rename_i hlfe
    generalize (if (snapshot s).act.distEn = true then
        distStage s.dmem (mixOperands s) (ctxShape s (mixOperands s).cd) (snapshot s) else snapshot s) = t at h1
    have ha : t.act = (snapshot s).act := by rw [h1.dmemOnly]
    unfold lfeStage
    split
    · rename_i hr
      apply lfeFold_inv hs
      · intro vc hvc
        have hmem := (List.of_mem_zip hvc).2
        rw [hl t ha hlfe] at hr
        simp only [mixContexts, hr, if_true]
        exact List.mem_append_right _ hmem
      · exact h1.write_scr hs (off := 2 * (mixOperands s).b) (by simp; omega)
    · exact h1.write_scr hs (off := 2 * (mixOperands s).b) (by simp; omega)
  · exact h1

/-! ## The frames -/

/-- What holds of every state while a MIX writes its frames, from the state `s` the stages left. -/
structure FrameInv (m : MixOperands) (s t : State) : Prop where
  only   : t = { s with dmem := t.dmem, rev := t.rev, revCur := t.revCur }
  frame  : ∀ a, ¬ InRegion m.y (s.layout.speakers * m.b) a → t.dRead a = s.dRead a
  wf     : s.dmem.wf Config.dmemWords = true → t.dmem.wf Config.dmemWords = true
  reverb : ReverbInv s → ReverbInv t
  dry    : s.act.distEn = false → t.rev = s.rev ∧ t.revCur = s.revCur

theorem FrameInv.refl (m : MixOperands) (s : State) : FrameInv m s s :=
  ⟨rfl, fun _ _ => rfl, id, id, fun _ => ⟨rfl, rfl⟩⟩

theorem speakers_pos (l : Layout) : 0 < l.speakers := by cases l <;> decide

theorem FrameInv.act {m : MixOperands} {s t : State} (h : FrameInv m s t) : t.act = s.act := by rw [h.only]
theorem FrameInv.layout {m : MixOperands} {s t : State} (h : FrameInv m s t) : t.layout = s.layout := by rw [h.only]

/-- The reverb part of a frame: the state the frame's words are written in, and the reverb output. -/
def frameReverb (m : MixOperands) (s : State) (f : Nat) : ReverbResult :=
  if s.act.distEn then reverbStep s (fmul s.act.base (s.dRead (m.scr + f))) else { state := s, out := 0x00000000#32 }

theorem frameOut_eq (d : Ram) (m : MixOperands) (s : State) (f : Nat) :
    frameOut d m s f = (frameReverb m s f).state.dWriteWords (m.y + f * s.layout.speakers)
      ((List.range s.layout.speakers).map (speakerSample d m (frameReverb m s f).state (frameReverb m s f).out f)) := rfl

theorem frameReverb_only (m : MixOperands) (s : State) (f : Nat) :
    (frameReverb m s f).state =
      { s with rev := (frameReverb m s f).state.rev, revCur := (frameReverb m s f).state.revCur } := by
  unfold frameReverb
  split
  · exact reverbStep_only _ _
  · rfl

/-- Changing memory and the reverb's RAM and cursor only, twice over. -/
theorem onlyFrame_trans {s t u : State} (h : t = { s with dmem := t.dmem, rev := t.rev, revCur := t.revCur })
    (k : u = { t with dmem := u.dmem, rev := u.rev, revCur := u.revCur }) :
    u = { s with dmem := u.dmem, rev := u.rev, revCur := u.revCur } := by
  rw [h] at k; exact k

theorem onlyFrame_write {t u : State} {a : Nat} {ws : List Word}
    (h : u = { t with rev := u.rev, revCur := u.revCur }) :
    u.dWriteWords a ws = { t with dmem := (u.dWriteWords a ws).dmem, rev := (u.dWriteWords a ws).rev,
                                  revCur := (u.dWriteWords a ws).revCur } := by
  rcases u with ⟨⟩
  cases h
  rfl

theorem frameOut_inv {m : MixOperands} {s t : State} (d : Ram) {f : Nat} (hf : f < m.b)
    (hy : m.y + s.layout.speakers * m.b ≤ Config.dmemWords) (h : FrameInv m s t) : FrameInv m s (frameOut d m t f) := by
  have hlay := h.layout
  have hfb : f * s.layout.speakers + s.layout.speakers ≤ s.layout.speakers * m.b := by
    calc f * s.layout.speakers + s.layout.speakers = (f + 1) * s.layout.speakers := by ring
      _ ≤ m.b * s.layout.speakers := Nat.mul_le_mul_right _ hf
      _ = s.layout.speakers * m.b := Nat.mul_comm _ _
  have hr := frameReverb_only m t f
  have hdm : (frameReverb m t f).state.dmem = t.dmem := by rw [hr]
  rw [frameOut_eq]
  refine ⟨?_, ?_, ?_, ?_, ?_⟩
  · exact onlyFrame_trans h.only (onlyFrame_write hr)
  · intro a ha
    unfold InRegion at ha
    rw [dRead_dWriteWords_other, ← h.frame a (by unfold InRegion; exact ha)]
    · unfold State.dRead; rw [hdm]
    · simp only [List.length_map, List.length_range, hlay]; omega
  · intro hw
    rw [dWriteWords_dmem, hdm]
    apply Ram.wf_writeWords _ _ (h.wf hw)
    simp only [List.length_map, List.length_range, hlay]; omega
  · intro hi
    have ht := h.reverb hi
    have : ReverbInv (frameReverb m t f).state := by
      unfold frameReverb
      split
      · exact reverbStep_inv _ ht
      · exact ht
    exact ⟨this.wf, this.lenBound, this.curBound, this.zeroed⟩
  · intro hd
    have hd' : t.act.distEn = false := by rw [h.act]; exact hd
    have he : (frameReverb m t f).state = t := by unfold frameReverb; rw [hd']; rfl
    rw [he]; exact h.dry hd

theorem frames_inv {m : MixOperands} {s : State} (d : Ram) (hy : m.y + s.layout.speakers * m.b ≤ Config.dmemWords)
    (fs : List Nat) (hfs : ∀ f ∈ fs, f < m.b) (t : State) (h : FrameInv m s t) :
    FrameInv m s (fs.foldl (frameOut d m) t) := by
  induction fs generalizing t with
  | nil => exact h
  | cons f fs ih =>
    rw [List.foldl_cons]
    exact ih (fun x hx => hfs x (List.mem_cons_of_mem _ hx)) _ (frameOut_inv d (hfs f List.mem_cons_self) hy h)

/-- A speaker's sample depends on the state only through the layout, the active tunables and one scratch
word. -/
theorem speakerSample_congr (d : Ram) (m : MixOperands) {s t : State} (r : Word) (f sp : Nat) (hl : t.layout = s.layout)
    (ha : t.act = s.act) (hw : t.dRead (m.scr + 2 * m.b + f) = s.dRead (m.scr + 2 * m.b + f)) :
    speakerSample d m t r f sp = speakerSample d m s r f sp := by
  unfold speakerSample; rw [hl, ha, hw]

/-- The words of the frames: word s of frame f is the speaker's sample for that frame's reverb output,
which is +0.0 when the distance path is off (42_spatial.md R212, R221). -/
theorem frames_words {m : MixOperands} {s : State} (d : Ram) (hy : m.y + s.layout.speakers * m.b ≤ Config.dmemWords)
    (hov : overlap ⟨m.y, s.layout.speakers * m.b⟩ ⟨m.scr, 3 * m.b⟩ = false) (n : Nat) (hn : n ≤ m.b) :
    ∀ f, f < n → ∀ sp, sp < s.layout.speakers → ∃ r, (s.act.distEn = false → r = 0x00000000#32) ∧
      ((List.range n).foldl (frameOut d m) s).dRead (m.y + f * s.layout.speakers + sp) = speakerSample d m s r f sp := by
  induction n with
  | zero => intro f hf; omega
  | succ n ih =>
    intro f hf sp hsp
    rw [List.range_succ, List.foldl_append, List.foldl_cons, List.foldl_nil]
    have hinv := frames_inv (m := m) (s := s) d hy (List.range n) (fun f hf => by have := List.mem_range.1 hf; omega) s
      (FrameInv.refl m s)
    obtain ⟨t, ht⟩ : ∃ t, t = (List.range n).foldl (frameOut d m) s := ⟨_, rfl⟩
    rw [← ht] at hinv ih ⊢
    have hlay := hinv.layout
    have hr := frameReverb_only m t n
    rcases Nat.lt_or_ge f n with h1 | h1
    · obtain ⟨r, hr0, hrd⟩ := ih (by omega) f h1 sp hsp
      refine ⟨r, hr0, ?_⟩
      rw [← hrd, frameOut_eq, dRead_dWriteWords_other]
      · unfold State.dRead; rw [hr]
      · left
        rw [hlay]
        have : (f + 1) * s.layout.speakers ≤ n * s.layout.speakers := Nat.mul_le_mul_right _ h1
        rw [Nat.add_mul] at this
        omega
    · have hfn : f = n := by omega
      subst hfn
      refine ⟨(frameReverb m t f).out, ?_, ?_⟩
      · intro hd
        have hd' : t.act.distEn = false := by rw [hinv.act]; exact hd
        unfold frameReverb; rw [hd']; rfl
      · rw [frameOut_eq, hlay, dRead_dWriteWords_at _ _ _ (by simpa using hsp), List.getElem_map, List.getElem_range]
        have hlay' : (frameReverb m t f).state.layout = s.layout := by rw [hr]; exact hlay
        have hact' : (frameReverb m t f).state.act = s.act := by rw [hr]; exact hinv.act
        apply speakerSample_congr _ _ _ _ _ hlay' hact'
        have hscr : ¬ InRegion m.y (s.layout.speakers * m.b) (m.scr + 2 * m.b + f) := by
          intro hin
          have : overlap ⟨m.y, s.layout.speakers * m.b⟩ ⟨m.scr, 3 * m.b⟩ = true :=
            (overlap_iff _ _).2 ⟨_, hin, by unfold InRegion; dsimp only; omega⟩
          rw [hov] at this; cases this
        rw [← hinv.frame _ hscr]
        unfold State.dRead; rw [hr]

/-- The output region of a ready MIX misses its scratch region. -/
theorem MixReady.output_apart {s : State} {m : MixOperands} (h : MixReady s m) :
    overlap ⟨m.y, s.layout.speakers * m.b⟩ ⟨m.scr, 3 * m.b⟩ = false := by
  have hp := h.disjoint
  unfold mixRegions at hp
  simp only [List.cons_append, List.pairwise_cons] at hp
  exact hp.2.1 _ (by simp)

/-- The stages leave the layout and the active tunables of the snapshot. -/
theorem mixStages_layout {s : State} (h : MixReady s (mixOperands s)) : (mixStages s).layout = s.layout := by
  rw [(mixStages_inv h).dmemOnly]; exact snapshot_layout s

theorem mixStages_act {s : State} (h : MixReady s (mixOperands s)) : (mixStages s).act = prospective s := by
  rw [(mixStages_inv h).dmemOnly]; exact snapshot_act s

/-- Everything a successful MIX does to the state besides its results, in two steps: the stages from the
snapshot, the frames from the stages. -/
theorem mixEffect_inv {s : State} (h : MixReady s (mixOperands s)) :
    FrameInv (mixOperands s) (mixStages s) (mixEffect s).state := by
  apply frames_inv
  · rw [mixStages_layout h]; exact h.yIn
  · exact fun f hf => List.mem_range.1 hf
  · exact FrameInv.refl _ _

end Sys2Proof.Machine
end

