-- ==== Sys2Proof/Laws/Ring.lean ====
section
/-! SUPPORT. The ring laws: cursors modulo the capacity, what a push and a drain leave in the ring RAM, and
the ring rules of 10_state.md R72 kept by both (43_ring.md R262, R263). -/

namespace Sys2Proof.Machine

/-- Offsets below the capacity from one place are told apart modulo the capacity. -/
theorem ring_offset_inj {cap a i j : Nat} (hi : i < cap) (hj : j < cap) (h : (a + i) % cap = (a + j) % cap) : i = j := by
  have := Nat.ModEq.add_left_cancel' a (show a + i ≡ a + j [MOD cap] from h)
  rwa [Nat.ModEq, Nat.mod_eq_of_lt hi, Nat.mod_eq_of_lt hj] at this

@[simp] theorem ringPut_base (m : Ram) (cap at0 : Nat) (ws : List Word) : (ringPut m cap at0 ws).base = m.base := by
  induction ws generalizing m at0 with
  | nil => rfl
  | cons w ws ih => simp [ringPut, ih]

/-- A ring word none of the written offsets falls on is untouched. -/
theorem ringPut_read_other (m : Ram) (cap at0 : Nat) (ws : List Word) {a : Nat}
    (h : ∀ j, j < ws.length → a ≠ (at0 + j) % cap) : (ringPut m cap at0 ws).read a = m.read a := by
  induction ws generalizing m at0 with
  | nil => rfl
  | cons w ws ih =>
    rw [ringPut, ih]
    · apply Ram.read_write_other
      simpa using h 0 (by simp)
    · intro j hj
      have := h (j + 1) (by simpa using hj)
      rwa [show at0 + (j + 1) = at0 + 1 + j by omega] at this

/-- Word j of a push or a drained region stands at offset j from its start. -/
theorem ringPut_read_at (m : Ram) {cap : Nat} (at0 : Nat) (ws : List Word) (hlen : ws.length ≤ cap) {j : Nat}
    (hj : j < ws.length) : (ringPut m cap at0 ws).read ((at0 + j) % cap) = ws[j] := by
  induction ws generalizing m at0 j with
  | nil => simp at hj
  | cons w ws ih =>
    simp only [List.length_cons] at hlen hj
    cases j with
    | zero =>
      rw [ringPut, ringPut_read_other]
      · simp [Ram.read_write_same]
      · intro i hi he
        have := ring_offset_inj (cap := cap) (a := at0) (i := 0) (j := i + 1) (by omega) (by omega)
          (by rw [he]; congr 1; omega)
        omega
    | succ j =>
      rw [ringPut, show at0 + (j + 1) = at0 + 1 + j by omega, ih _ _ (by omega) (by omega)]
      simp

/-- Writing inside the capacity keeps the canonical form. -/
theorem ringPut_wf {size : Nat} {m : Ram} {cap : Nat} (at0 : Nat) (ws : List Word) (h : m.wf size = true)
    (hpos : 0 < cap) (hcap : cap ≤ size) : (ringPut m cap at0 ws).wf size = true := by
  induction ws generalizing m at0 with
  | nil => exact h
  | cons w ws ih => exact ih _ (Ram.wf_write _ _ h (lt_of_lt_of_le (Nat.mod_lt _ hpos) hcap))

theorem ringGet_length (m : Ram) (cap rd L : Nat) : (ringGet m cap rd L).length = L := by simp [ringGet]

/-- The ring part of the state's invariant while RUNNING (10_state.md R72, 43_ring.md R262, R263). -/
structure RingInv (ring : Ram) (cap rd wr level : Nat) : Prop where
  canonical  : ring.wf Config.ringWords = true
  capPos     : 0 < cap
  capLe      : cap ≤ Config.ringWords
  readCursor : rd < cap
  levelLe    : level ≤ cap
  write      : wr = (rd + level) % cap
  free       : ∀ j, j < cap - level → ring.read ((wr + j) % cap) = 0#32
  beyond     : ∀ i, cap ≤ i → ring.read i = 0#32

/-- A push of no more words than the free space keeps the ring rules. -/
theorem RingInv.push {ring : Ram} {cap rd wr level : Nat} (h : RingInv ring cap rd wr level) {ws : List Word}
    (hws : ws.length ≤ cap - level) :
    RingInv (ringPut ring cap wr ws) cap rd ((wr + ws.length) % cap) (level + ws.length) := by
  have hl := h.levelLe
  refine ⟨ringPut_wf _ _ h.canonical h.capPos h.capLe, h.capPos, h.capLe, h.readCursor, by omega, ?_, ?_, ?_⟩
  · rw [h.write, Nat.mod_add_mod, Nat.add_assoc]
  · intro j hj
    rw [Nat.mod_add_mod, Nat.add_assoc, ringPut_read_other]
    · exact h.free _ (by omega)
    · intro i hi he
      have := ring_offset_inj (a := wr) (by omega) (by omega) he
      omega
  · intro i hi
    rw [ringPut_read_other]
    · exact h.beyond i hi
    · intro j _ he
      have := Nat.mod_lt (wr + j) h.capPos
      omega

/-- Zeroing words keeps zeros. -/
theorem ringPut_zeros_read (m : Ram) {cap at0 L a : Nat} (hL : L ≤ cap) (h : m.read a = 0#32) :
    (ringPut m cap at0 (List.replicate L 0#32)).read a = 0#32 := by
  by_cases hx : ∃ j, j < L ∧ a = (at0 + j) % cap
  · obtain ⟨j, hj, rfl⟩ := hx
    rw [ringPut_read_at _ _ _ (by simpa using hL) (by simpa using hj)]
    simp
  · rw [ringPut_read_other, h]
    intro j hj he
    exact hx ⟨j, by simpa using hj, he⟩

/-- A normal drain within the level keeps the ring rules (43_ring.md R258, R259). -/
theorem RingInv.drain {ring : Ram} {cap rd wr level : Nat} (h : RingInv ring cap rd wr level) {L : Nat}
    (hL : L ≤ level) :
    RingInv (ringPut ring cap rd (List.replicate L 0#32)) cap ((rd + L) % cap) wr (level - L) := by
  have hl := h.levelLe
  refine ⟨ringPut_wf _ _ h.canonical h.capPos h.capLe, h.capPos, h.capLe, Nat.mod_lt _ h.capPos, by omega, ?_, ?_, ?_⟩
  · rw [Nat.mod_add_mod, h.write]; congr 1; omega
  · intro j hj
    rcases Nat.lt_or_ge j (cap - level) with h1 | h1
    · exact ringPut_zeros_read _ (by omega) (h.free j h1)
    · obtain ⟨i, hi, hij⟩ : ∃ i, i < L ∧ j = cap - level + i := ⟨j - (cap - level), by omega, by omega⟩
      have hpos : (wr + j) % cap = (rd + i) % cap := by
        rw [h.write, Nat.mod_add_mod, show rd + level + j = rd + i + cap by omega, Nat.add_mod_right]
      rw [hpos, ringPut_read_at _ _ _ (by simpa using (by omega : L ≤ cap)) (by simpa using hi)]
      simp
  · intro i hi
    exact ringPut_zeros_read _ (by omega) (h.beyond i hi)

/-- An underrun keeps the ring rules: the ring is left empty (43_ring.md R259). -/
theorem RingInv.underrun {ring : Ram} {cap rd wr level : Nat} (h : RingInv ring cap rd wr level) {L : Nat}
    (hL : L ≤ cap) (hu : level < L) :
    RingInv (ringPut ring cap rd (List.replicate L 0#32)) cap ((rd + L) % cap) ((rd + L) % cap) 0 := by
  have hl := h.levelLe
  have hrd := Nat.mod_lt (rd + L) h.capPos
  refine ⟨ringPut_wf _ _ h.canonical h.capPos h.capLe, h.capPos, h.capLe, hrd, Nat.zero_le _, ?_, ?_, ?_⟩
  · rw [Nat.add_zero, Nat.mod_mod]
  · intro j hj
    rw [Nat.mod_add_mod]
    rcases Nat.lt_or_ge (L + j) cap with h1 | h1
    · apply ringPut_zeros_read _ hL
      have := h.free (L + j - level) (by omega)
      rwa [h.write, Nat.mod_add_mod, show rd + level + (L + j - level) = rd + L + j by omega] at this
    · obtain ⟨i, hi⟩ : ∃ i, L + j = cap + i := ⟨L + j - cap, by omega⟩
      have hpos : (rd + L + j) % cap = (rd + i) % cap := by
        rw [show rd + L + j = rd + i + cap by omega, Nat.add_mod_right]
      rw [hpos]
      have hiL : i < L := by omega
      rw [ringPut_read_at _ _ _ (by simpa using hL) (by simpa using hiL)]
      simp
  · intro i hi
    exact ringPut_zeros_read _ hL (h.beyond i hi)

/-- The empty ring of START (43_ring.md R241, R242). -/
theorem RingInv.empty {cap : Nat} (hpos : 0 < cap) (hle : cap ≤ Config.ringWords) : RingInv Ram.zeroed cap 0 0 0 :=
  { canonical := rfl, capPos := hpos, capLe := hle, readCursor := hpos, levelLe := Nat.zero_le _
    write := by simp, free := fun _ _ => rfl, beyond := fun _ _ => rfl }

/-- What the checks of RING_PUSH guarantee when they pass. -/
theorem checkRingPush_none {s : State} (h : checkRingPush s = none) :
    s.runState = .running ∧ argU32 s 0 + argU32 s 1 ≤ Config.dmemWords ∧ argU32 s 1 ≤ s.ringCap - s.ringLevel := by
  unfold checkRingPush at h
  split at h
  · cases h
  rename_i h1
  split at h
  · cases h
  rename_i h2
  split at h
  · cases h
  rename_i h3
  simp only [Bool.not_eq_true', Bool.not_eq_false, inside_iff] at h2
  exact ⟨by simpa using h1, h2, by omega⟩

/-- What the checks of START guarantee when they pass. -/
theorem checkStart_none {s : State} (h : checkStart s = none) :
    s.runState = .stopped ∧ 0 < ringCapacity s ∧ ringCapacity s ≤ Config.ringWords := by
  unfold checkStart at h
  split at h
  · cases h
  rename_i h1
  split at h
  · cases h
  rename_i h2
  exact ⟨by simpa using h1, by omega, by omega⟩

/-- All that a drain request can do (43_ring.md R257 to R260). -/
theorem drainRequest_cases (s : State) (L : Nat) :
    ((s.runState ≠ .running ∨ L = 0) ∧ drainRequest s L = { s with drainData := List.replicate L 0#32 }) ∨
    (s.runState = .running ∧ 0 < L ∧ L ≤ s.ringCap ∧
      drainRequest s L = { normalDrain s L with drainData := ringGet s.ring s.ringCap s.ringRd L }) ∨
    (s.runState = .running ∧ s.ringCap < L ∧ drainRequest s L =
      { s with drainData := List.replicate L 0#32, irqPend := s.irqPend ||| pendXrun,
               xrunCount := s.xrunCount + 1#32 }) := by
  unfold drainRequest
  by_cases h1 : s.runState ≠ .running ∨ L = 0
  · exact .inl ⟨h1, by rw [if_pos h1]⟩
  · rw [if_neg h1]
    simp only [ne_eq, not_or, not_not] at h1
    by_cases h2 : L ≤ s.ringCap
    · exact .inr (.inl ⟨h1.1, by omega, h2, by rw [if_pos h2]⟩)
    · exact .inr (.inr ⟨h1.1, by omega, by rw [if_neg h2]⟩)

/-- The two outcomes of a normal drain (43_ring.md R258, R259), each as one update of the state. -/
theorem normalDrain_cases (s : State) (L : Nat) :
    (L ≤ s.ringLevel ∧ normalDrain s L =
      { s with ring := ringPut s.ring s.ringCap s.ringRd (List.replicate L 0#32), ringRd := (s.ringRd + L) % s.ringCap,
               ringLevel := s.ringLevel - L, irqPend := s.irqPend ||| pendDrain, drainCount := s.drainCount + 1#32 }) ∨
    (s.ringLevel < L ∧ normalDrain s L =
      { s with ring := ringPut s.ring s.ringCap s.ringRd (List.replicate L 0#32), ringRd := (s.ringRd + L) % s.ringCap,
               ringWr := (s.ringRd + L) % s.ringCap, ringLevel := 0, irqPend := (s.irqPend ||| pendXrun) ||| pendDrain,
               xrunCount := s.xrunCount + 1#32, drainCount := s.drainCount + 1#32 }) := by
  unfold normalDrain levelUpdate
  by_cases h : L ≤ s.ringLevel
  · exact .inl ⟨h, by simp only [h, if_true]⟩
  · exact .inr ⟨by omega, by simp only [h, if_false]⟩

end Sys2Proof.Machine
end

