-- ==== Sys2Proof/Laws/Bus.lean ====
section
/-! SUPPORT. The host port laws: the address map by its targets, and what an access can do. -/

namespace Sys2Proof.Machine

/-- A CSR found at an offset is listed there. -/
theorem csrAt_mem {off : Nat} {r : Csr} (h : csrAt off = some r) : (off, r) ∈ csrTable := by
  obtain ⟨l1, l2, he, -⟩ := List.lookup_eq_some_iff.1 h
  rw [he]
  simp

theorem busy_false_iff (s : State) : busy s = false ↔ s.eng = .idle := by simp [busy]

/-- An access that reaches a CSR: four bytes, at the CSR's offset. -/
theorem target_csr {addr : BitVec 32} {size : Nat} {r : Csr} (h : target addr size = .csr r) :
    size = 4 ∧ csrAt addr.toNat = some r := by
  unfold target at h
  dsimp only at h
  split at h
  · cases h
  rename_i h1
  split at h
  · split at h
    · rename_i hc; cases h; exact ⟨by omega, hc⟩
    · cases h
  · split at h <;> cases h

/-- An access that reaches a DMEM word: four bytes, aligned, in the DMEM window. -/
theorem target_dmem_window {addr : BitVec 32} {size a : Nat} (h : target addr size = .dmem a) :
    size = 4 ∧ addr.toNat % 4 = 0 ∧ 0x01000000 ≤ addr.toNat ∧ addr.toNat < 0x01000000 + 4 * Config.dmemWords ∧
      a = (addr.toNat - 0x01000000) / 4 ∧ a < Config.dmemWords := by
  unfold target at h
  dsimp only at h
  split at h
  · cases h
  rename_i h1
  split at h
  · split at h <;> cases h
  · split at h
    · rename_i h3
      cases h
      unfold dmemWindow at *
      refine ⟨by omega, by omega, h3.1, h3.2, rfl, by omega⟩
    · cases h

/-- What a bus error means: a bad size, a misaligned address, or an address outside both windows. -/
theorem target_busError_iff {addr : BitVec 32} {size : Nat} :
    target addr size = .busError ↔ size ≠ 4 ∨ addr.toNat % 4 ≠ 0 ∨
      (0x1000 ≤ addr.toNat ∧ ¬ (0x01000000 ≤ addr.toNat ∧ addr.toNat < 0x01000000 + 4 * Config.dmemWords)) := by
  unfold target dmemWindow
  dsimp only
  constructor
  · intro h
    split at h
    · omega
    · split at h
      · split at h <;> cases h
      · split at h
        · cases h
        · right; right; exact ⟨by omega, by assumption⟩
  · intro h
    split
    · rfl
    · rename_i h1
      rw [if_neg (by omega), if_neg (by omega)]

/-- The DMEM window by word address. -/
theorem target_dmem_word {a : Nat} (h : a < Config.dmemWords) :
    target (BitVec.ofNat 32 (0x01000000 + 4 * a)) 4 = .dmem a := by
  have hn : (BitVec.ofNat 32 (0x01000000 + 4 * a)).toNat = 0x01000000 + 4 * a := by
    rw [BitVec.toNat_ofNat]; unfold Config.dmemWords at h; omega
  unfold target dmemWindow
  rw [hn]
  dsimp only
  rw [if_neg (by omega), if_neg (by omega), if_pos (by omega)]
  congr 1; omega

/-- The accesses that get a bus error, through their target. -/
theorem busErrorAccess_iff {s : State} {addr : BitVec 32} {size : Nat} :
    BusErrorAccess s addr size ↔
      target addr size = .busError ∨ ∃ a, target addr size = .dmem a ∧ busy s = true := by
  have hb : busy s = true ↔ s.eng ≠ .idle := by simp [busy]
  rw [target_busError_iff, hb]
  unfold BusErrorAccess
  constructor
  · rintro (h | h | h | ⟨h1, h2, h3⟩)
    · exact .inl (.inl h)
    · exact .inl (.inr (.inl h))
    · exact .inl (.inr (.inr h))
    · by_cases hs : size ≠ 4
      · exact .inl (.inl hs)
      by_cases ha : addr.toNat % 4 ≠ 0
      · exact .inl (.inr (.inl ha))
      refine .inr ⟨(addr.toNat - 0x01000000) / 4, ?_, h3⟩
      unfold target dmemWindow
      dsimp only
      rw [if_neg (by omega), if_neg (by omega), if_pos ⟨h1, h2⟩]
  · rintro ((h | h | h) | ⟨a, h, h3⟩)
    · exact .inl h
    · exact .inr (.inl h)
    · exact .inr (.inr (.inl h))
    · have := target_dmem_window h
      exact .inr (.inr (.inr ⟨this.2.2.1, this.2.2.2.1, h3⟩))

/-- All that a host read can do: a bus error, or the returned word alone. -/
theorem hostRead_cases (s : State) (addr : BitVec 32) (size : Nat) :
    (BusErrorAccess s addr size ∧ hostRead s addr size = { s with irqPend := s.irqPend ||| pendBusErr, rdata := 0#32 }) ∨
    (¬ BusErrorAccess s addr size ∧ ∃ w, hostRead s addr size = { s with rdata := w }) := by
  rw [busErrorAccess_iff]
  unfold hostRead
  cases target addr size with
  | csr r => exact .inr ⟨by simp, _, rfl⟩
  | reserved => exact .inr ⟨by simp, _, rfl⟩
  | dmem a =>
    cases hb : busy s with
    | true => exact .inl ⟨by simp, rfl⟩
    | false => exact .inr ⟨by simp, _, rfl⟩
  | busError => exact .inl ⟨by simp, rfl⟩

/-- All that a host write can do: a bus error, a CSR write, an ignored write, or one DMEM word written by an idle
engine's host. -/
theorem hostWrite_cases (s : State) (addr : BitVec 32) (size : Nat) (v : Word) :
    (BusErrorAccess s addr size ∧ hostWrite s addr size v = { s with irqPend := s.irqPend ||| pendBusErr }) ∨
    (¬ BusErrorAccess s addr size ∧
      ((∃ r, size = 4 ∧ csrAt addr.toNat = some r ∧ hostWrite s addr size v = csrWrite s r v) ∨
       (target addr size = .reserved ∧ hostWrite s addr size v = s) ∨
       (∃ a, a < Config.dmemWords ∧ s.eng = .idle ∧ hostWrite s addr size v = s.dWrite a v))) := by
  rw [busErrorAccess_iff]
  unfold hostWrite
  cases ht : target addr size with
  | csr r => exact .inr ⟨by simp, .inl ⟨r, (target_csr ht).1, (target_csr ht).2, rfl⟩⟩
  | reserved => exact .inr ⟨by simp, .inr (.inl ⟨rfl, rfl⟩)⟩
  | dmem a =>
    cases hb : busy s with
    | true => exact .inl ⟨by simp, rfl⟩
    | false =>
      exact .inr ⟨by simp, .inr (.inr ⟨a, (target_dmem_window ht).2.2.2.2.2, (busy_false_iff s).1 hb, rfl⟩)⟩
  | busError => exact .inl ⟨by simp, rfl⟩

end Sys2Proof.Machine
end

