-- ==== Sys2Proof/Laws/Commands.lean ====
section
/-! SUPPORT. Everything an executed command can change, command by command: each command is its check list
and its effect, and each effect changes a few fields of the state only. -/

namespace Sys2Proof.Machine

/-- The effect of each command, when its checks pass. -/
def effectOf : Instr → State → Effect
  | .nop => fun s => { state := s, r0 := 0#32, r1 := 0#32 }
  | .fft => transformEffect (dit .fwd)
  | .ifft => transformEffect invFft
  | .firDesign => firEffect false
  | .firDesignHp => firEffect true
  | .olaInit => olaInitEffect false
  | .olaInitWin => olaInitEffect true
  | .olaApply => olaApplyEffect
  | .panGain => panGainEffect
  | .panTable => panTableEffect
  | .mix => mixEffect
  | .start => startEffect
  | .stop => stopEffect
  | .ringPush => ringPushEffect

/-- Every command is its checks and its effect (60_exceptions.md R273). -/
theorem exec_eq_runCommand (i : Instr) (s : State) : exec i s = runCommand (checkOf i) (effectOf i) s := by
  cases i <;> rfl

/-- All that an executed command can do: the error completion, or the effect with its completion. -/
theorem exec_cases {i : Instr} {s t : State} (h : exec i s = .next t) :
    (∃ e, checkOf i s = some e ∧ t = raiseError s e) ∨
    (checkOf i s = none ∧ t = completeOk (effectOf i s).state (effectOf i s).r0 (effectOf i s).r1) :=
  runCommand_cases (by rw [← exec_eq_runCommand]; exact h)

/-! ## What changes DMEM only, and what MIX changes -/

/-- DMEM at most differs. -/
def DmemOnly (s t : State) : Prop := ∃ d, t = { s with dmem := d }

theorem DmemOnly.refl (s : State) : DmemOnly s s := ⟨s.dmem, rfl⟩

theorem DmemOnly.trans {s t u : State} : DmemOnly s t → DmemOnly t u → DmemOnly s u := by
  rintro ⟨d, rfl⟩ ⟨e, rfl⟩; exact ⟨e, rfl⟩

theorem dWriteWords_dmemOnly (s : State) (a : Nat) (ws : List Word) : DmemOnly s (s.dWriteWords a ws) := ⟨_, rfl⟩

theorem olaStep_only (c : OlaShape) (xs : List Word) (s : State) : DmemOnly s (olaStep c xs s).state :=
  ⟨_, olaStep_dmemOnly c xs s⟩

/-- A fold of steps that change DMEM only changes DMEM only. -/
theorem foldl_dmemOnly {α : Type} (f : State → α → State) (hf : ∀ s a, DmemOnly s (f s a)) (as : List α) (s : State) :
    DmemOnly s (as.foldl f s) := by
  induction as generalizing s with
  | nil => exact DmemOnly.refl s
  | cons a as ih => exact (hf s a).trans (ih _)

theorem distStage_only (d : Ram) (m : MixOperands) (c : OlaShape) (s : State) : DmemOnly s (distStage d m c s) :=
  ((dWriteWords_dmemOnly s _ _).trans (olaStep_only c _ _)).trans (dWriteWords_dmemOnly _ _ _)

theorem lfeChannel_only (d : Ram) (m : MixOperands) (s : State) (vc : Nat × OlaShape) :
    DmemOnly s (lfeChannel d m s vc) :=
  (((dWriteWords_dmemOnly s _ _).trans (olaStep_only vc.2 _ _)).trans (dWriteWords_dmemOnly _ _ _)).trans
    (dWriteWords_dmemOnly _ _ _)

theorem lfeStage_only (d : Ram) (m : MixOperands) (ctxs : List OlaShape) (s : State) :
    DmemOnly s (lfeStage d m ctxs s) := by
  unfold lfeStage
  split
  · exact (dWriteWords_dmemOnly s _ _).trans (foldl_dmemOnly _ (lfeChannel_only d m) _ _)
  · exact dWriteWords_dmemOnly s _ _

/-- The stages change DMEM only, from the snapshot on. -/
theorem mixStages_only (s : State) : DmemOnly (snapshot s) (mixStages s) := by
  unfold mixStages
  dsimp only
  have h1 : ∀ c : OlaShape, DmemOnly (snapshot s)
      (if (snapshot s).act.distEn = true then distStage s.dmem (mixOperands s) c (snapshot s) else snapshot s) := by
    intro c
    split
    · exact distStage_only _ _ _ _
    · exact DmemOnly.refl _
  split
  · exact (h1 _).trans (lfeStage_only _ _ _ _)
  · exact h1 _

/-- DMEM, the reverb RAM and its cursor at most differ. -/
def FrameOnly (s t : State) : Prop := ∃ d r c, t = { s with dmem := d, rev := r, revCur := c }

theorem FrameOnly.trans {s t u : State} : FrameOnly s t → FrameOnly t u → FrameOnly s u := by
  rintro ⟨d, r, c, rfl⟩ ⟨d', r', c', rfl⟩; exact ⟨d', r', c', rfl⟩

theorem frameOut_only (d : Ram) (m : MixOperands) (s : State) (f : Nat) : FrameOnly s (frameOut d m s f) := by
  rw [frameOut_eq]
  exact ⟨_, _, _, onlyFrame_write (frameReverb_only m s f)⟩

theorem frames_only (d : Ram) (m : MixOperands) (fs : List Nat) (s : State) :
    FrameOnly s (fs.foldl (frameOut d m) s) := by
  induction fs generalizing s with
  | nil => exact ⟨s.dmem, s.rev, s.revCur, rfl⟩
  | cons f fs ih => exact (frameOut_only d m s f).trans (ih _)

/-- MIX changes DMEM, the active settings with their flag, and the reverb. -/
theorem mixEffect_only (s : State) : ∃ d r c l a ch,
    (mixEffect s).state = { s with dmem := d, rev := r, revCur := c, revLen := l, act := a, changed := ch } := by
  obtain ⟨d, r, c, h⟩ : FrameOnly (mixStages s) (mixEffect s).state := frames_only _ _ _ _
  obtain ⟨d', h'⟩ := mixStages_only s
  rw [h, h', snapshot_only]
  exact ⟨_, _, _, _, _, _, rfl⟩

theorem olaApplyChunk_only (c : OlaShape) (i o : Nat) (s : State) (j : Nat) : DmemOnly s (olaApplyChunk c i o s j) :=
  (olaStep_only c _ s).trans (dWriteWords_dmemOnly _ _ _)

/-! ## What each command changes -/

/-- The commands that change DMEM at most. -/
def isDmemCommand : Instr → Bool
  | .nop | .fft | .ifft | .firDesign | .firDesignHp | .olaInit | .olaInitWin | .olaApply | .panGain | .panTable => true
  | .mix | .start | .stop | .ringPush => false

theorem effect_dmemOnly {i : Instr} (s : State) (h : isDmemCommand i = true) : DmemOnly s (effectOf i s).state := by
  cases i
  case nop => exact DmemOnly.refl s
  case panGain => exact DmemOnly.refl s
  case olaApply => exact foldl_dmemOnly _ (olaApplyChunk_only _ _ _) _ _
  case mix => cases h
  case start => cases h
  case stop => cases h
  case ringPush => cases h
  all_goals exact dWriteWords_dmemOnly _ _ _

theorem startEffect_only (s : State) :
    (startEffect s).state =
      { s with runState := .running, ring := Ram.zeroed, ringCap := ringCapacity s, ringRd := 0, ringWr := 0, ringLevel := 0,
               revLen := revLength s, revCur := 0, rev := Ram.zeroed } := rfl

theorem stopEffect_stopped {s : State} (h : s.runState = .stopped) :
    stopEffect s = { state := s, r0 := 0#32, r1 := 0#32 } := by
  unfold stopEffect; rw [h]

theorem stopEffect_running {s : State} (h : s.runState ≠ .stopped) :
    stopEffect s =
      { state := { s with runState := .stopped, ring := Ram.zeroed, ringCap := 0, ringRd := 0, ringWr := 0, ringLevel := 0,
                          irqPend := s.irqPend ||| pendDrain }
        r0 := BitVec.ofNat 32 s.ringLevel
        r1 := 0#32 } := by
  unfold stopEffect
  split
  · rename_i hs; exact absurd hs h
  all_goals rfl

/-- No effect changes a register of the host's side. -/
theorem effect_hostSide (i : Instr) (s : State) : HostSideUnchanged s (effectOf i s).state := by
  by_cases hd : isDmemCommand i = true
  · obtain ⟨d, e⟩ := effect_dmemOnly s hd
    rw [e]; unfold HostSideUnchanged; simp
  cases i
  case mix =>
    obtain ⟨d, r, c, l, a, ch, e⟩ := mixEffect_only s
    show HostSideUnchanged s (mixEffect s).state
    rw [e]; unfold HostSideUnchanged; simp
  case start => show HostSideUnchanged s (startEffect s).state; rw [startEffect_only]; unfold HostSideUnchanged; simp
  case stop =>
    show HostSideUnchanged s (stopEffect s).state
    by_cases h : s.runState = .stopped
    · rw [stopEffect_stopped h]; unfold HostSideUnchanged; simp
    · rw [stopEffect_running h]; unfold HostSideUnchanged; simp
  case ringPush =>
    show HostSideUnchanged s (ringPushEffect s).state
    unfold ringPushEffect HostSideUnchanged; simp
  all_goals exact absurd rfl hd

/-- The engine state, the error code and the results are the completion's to change. -/
theorem effect_completion (i : Instr) (s : State) :
    (effectOf i s).state.eng = s.eng ∧ (effectOf i s).state.err = s.err ∧ (effectOf i s).state.result0 = s.result0 ∧
      (effectOf i s).state.result1 = s.result1 := by
  by_cases hd : isDmemCommand i = true
  · obtain ⟨d, e⟩ := effect_dmemOnly s hd
    rw [e]; simp
  cases i
  case mix =>
    obtain ⟨d, r, c, l, a, ch, e⟩ := mixEffect_only s
    simp only [effectOf]
    rw [e]; simp
  case stop =>
    simp only [effectOf]
    by_cases h : s.runState = .stopped
    · rw [stopEffect_stopped h]; simp
    · rw [stopEffect_running h]; simp
  case start => exact ⟨rfl, rfl, rfl, rfl⟩
  case ringPush => exact ⟨rfl, rfl, rfl, rfl⟩
  all_goals exact absurd rfl hd

/-- IRQ_PEND is the completion's to change, but for STOP's notification (60_exceptions.md R277). -/
theorem effect_irqPend (i : Instr) (s : State) :
    (effectOf i s).state.irqPend =
      if i = .stop ∧ s.runState ≠ .stopped then s.irqPend ||| pendDrain else s.irqPend := by
  by_cases hd : isDmemCommand i = true
  · obtain ⟨d, e⟩ := effect_dmemOnly s hd
    rw [e, if_neg]
    rintro ⟨rfl, -⟩; cases hd
  cases i
  case mix =>
    obtain ⟨d, r, c, l, a, ch, e⟩ := mixEffect_only s
    simp only [effectOf]
    rw [e]; simp
  case stop =>
    simp only [effectOf]
    by_cases h : s.runState = .stopped
    · rw [stopEffect_stopped h]; simp [h]
    · rw [stopEffect_running h]; simp [h]
  case start => rfl
  case ringPush => rfl
  all_goals exact absurd rfl hd

/-! ## The canonical form of DMEM -/

theorem transformEffect_wf {f : Nat → List Cpx → List Cpx} {s : State}
    (hf : ∀ L x, x.length = 2 ^ L → (f L x).length = 2 ^ L) (h : checkTransform s = none)
    (hw : s.dmem.wf Config.dmemWords = true) : (transformEffect f s).state.dmem.wf Config.dmemWords = true := by
  unfold checkTransform at h
  split at h
  · cases h
  split at h
  · cases h
  rename_i hin
  simp only [Bool.not_eq_true', Bool.not_eq_false, inside_iff] at hin
  show (s.dWriteWords _ _).dmem.wf _ = true
  rw [dWriteWords_dmem]
  apply Ram.wf_writeWords _ _ hw
  rw [cpxWords_length, hf _ _ (dReadCpx_length _ _ _)]
  exact hin

theorem negateOdd_length (h : List Word) : (negateOdd h).length = h.length := by simp [negateOdd]

theorem firKernel_length (α : Word) (hp : Bool) (fc : Word) (N : Nat) : (firKernel α hp fc N).length = N := by
  unfold firKernel
  cases hp <;> simp [negateOdd_length, firTapered]

/-- What the checks of FIR_DESIGN guarantee about the destination. -/
theorem checkFir_none_range {s : State} (h : checkFir s = none) :
    argU32 s 3 + argU32 s 4 ≤ Config.dmemWords ∧ firLength (firQuotient (argF32 s 0) (argF32 s 2)) ≤ argU32 s 4 := by
  unfold checkFir at h
  dsimp only at h
  repeat (split at h; · cases h)
  rename_i h1 h2
  simp only [Bool.not_eq_true', Bool.not_eq_false, inside_iff] at h1
  exact ⟨h1, by omega⟩

theorem firEffect_wf {hp : Bool} {s : State} (h : checkFir s = none) (hw : s.dmem.wf Config.dmemWords = true) :
    (firEffect hp s).state.dmem.wf Config.dmemWords = true := by
  obtain ⟨h1, h2⟩ := checkFir_none_range h
  show (s.dWriteWords _ _).dmem.wf _ = true
  rw [dWriteWords_dmem]
  apply Ram.wf_writeWords _ _ hw
  rw [firKernel_length]; omega

theorem olaInitEffect_wf {win : Bool} {s : State} (h : checkOlaInit s = none)
    (hw : s.dmem.wf Config.dmemWords = true) : (olaInitEffect win s).state.dmem.wf Config.dmemWords = true := by
  obtain ⟨hk, hb, -, -, hin, -⟩ := checkOlaInit_none h
  show (s.dWriteWords _ _).dmem.wf _ = true
  rw [dWriteWords_dmem]
  apply Ram.wf_writeWords _ _ hw
  rw [newContext_length (olaInit_kernel_length s hb)]
  exact hin

theorem panRow_length (l : Layout) (th : Word) : (panRow l th).length = l.speakers := by simp [panRow]

theorem panTable_length (l : Layout) (ths : List Word) : (ths.flatMap (panRow l)).length = ths.length * l.speakers := by
  induction ths with
  | nil => simp
  | cons th ths ih => rw [List.flatMap_cons, List.length_append, panRow_length, ih, List.length_cons]; ring

theorem panTableEffect_wf {s : State} (h : checkPanTable s = none)
    (hw : s.dmem.wf Config.dmemWords = true) : (panTableEffect s).state.dmem.wf Config.dmemWords = true := by
  unfold checkPanTable at h
  dsimp only at h
  split at h
  · cases h
  split at h
  · cases h
  rename_i hin
  simp only [Bool.or_eq_true, Bool.not_eq_true', not_or, Bool.not_eq_false, inside_iff] at hin
  show (s.dWriteWords _ _).dmem.wf _ = true
  rw [dWriteWords_dmem]
  apply Ram.wf_writeWords _ _ hw
  rw [panTable_length, Ram.readWords_length]
  exact hin.2

/-- Every command keeps DMEM canonical. -/
theorem effect_dmem_wf {i : Instr} {s : State} (h : checkOf i s = none) (hw : s.dmem.wf Config.dmemWords = true) :
    (effectOf i s).state.dmem.wf Config.dmemWords = true := by
  cases i
  case nop => exact hw
  case fft => exact transformEffect_wf (dit_length _) h hw
  case ifft => exact transformEffect_wf invFft_length h hw
  case firDesign => exact firEffect_wf h hw
  case firDesignHp => exact firEffect_wf h hw
  case olaInit => exact olaInitEffect_wf h hw
  case olaInitWin => exact olaInitEffect_wf h hw
  case olaApply => exact (olaApplyEffect_inv h).wf hw
  case panGain => exact hw
  case panTable => exact panTableEffect_wf h hw
  case mix =>
    have hr := checkMix_ready h
    exact (mixEffect_inv hr).wf ((mixStages_inv hr).wf (by rw [snapshot_dmem]; exact hw))
  case start => exact hw
  case stop =>
    show (stopEffect s).state.dmem.wf _ = true
    by_cases hs : s.runState = .stopped
    · rw [stopEffect_stopped hs]; exact hw
    · rw [stopEffect_running hs]; exact hw
  case ringPush => exact hw

/-- A MIX that passes its checks keeps the reverb bounds. -/
theorem mixEffect_reverbInv {s : State} (h : checkMix s = none) (hi : ReverbInv s) : ReverbInv (mixEffect s).state := by
  have hr := checkMix_ready h
  apply (mixEffect_inv hr).reverb
  have hs := snapshot_reverbInv hi
  obtain ⟨d, e⟩ := mixStages_only s
  rw [e]
  exact ⟨hs.wf, hs.lenBound, hs.curBound, hs.zeroed⟩

end Sys2Proof.Machine
end

