-- ==== Sys2Proof/Laws/Decode.lean ====
section
/-! SUPPORT. The fields of a command word and their packing (30_encoding.md R110), and the fields of every
instruction's word. -/

namespace Sys2Proof

/-- Where each bit of a packed word comes from (30_encoding.md R110). -/
theorem CommandWord.toWord_getLsbD (c : CommandWord) (i : Nat) :
    c.toWord.getLsbD i =
      if i < 9 then (if i < 8 then c.op.getLsbD i else c.f) else c.rsvd.getLsbD (i - 9) := by
  have h1 : c.toWord.getLsbD i = if i < 1 + 8 then (BitVec.ofBool c.f ++ c.op).getLsbD i else c.rsvd.getLsbD (i - (1 + 8)) :=
    BitVec.getLsbD_append
  rw [h1, BitVec.getLsbD_append, BitVec.getLsbD_ofBool]
  by_cases h9 : i < 9
  · by_cases h8 : i < 8
    · simp [h8, h9]
    · have : i = 8 := by omega
      subst this; simp
  · simp [h9]

/-- Packing the fields of a word gives the word: no bit is dropped or duplicated. -/
theorem CommandWord.toWord_ofWord (w : Word) : (CommandWord.ofWord w).toWord = w := by
  apply BitVec.eq_of_getLsbD_eq
  intro i hi
  rw [CommandWord.toWord_getLsbD]
  simp only [CommandWord.ofWord, BitVec.getLsbD_extractLsb']
  by_cases h9 : i < 9
  · by_cases h8 : i < 8
    · simp [h8, h9]
    · have : i = 8 := by omega
      subst this; simp
  · simp [h9, show 9 + (i - 9) = i by omega]
    omega

/-- The fields of a packed word are the fields packed. -/
theorem CommandWord.ofWord_toWord (c : CommandWord) : CommandWord.ofWord c.toWord = c := by
  have h1 : (CommandWord.ofWord c.toWord).op = c.op := by
    apply BitVec.eq_of_getLsbD_eq
    intro i hi
    simp only [CommandWord.ofWord, BitVec.getLsbD_extractLsb', hi, decide_true, Bool.true_and, Nat.zero_add]
    rw [CommandWord.toWord_getLsbD, if_pos (by omega), if_pos hi]
  have h2 : (CommandWord.ofWord c.toWord).f = c.f := by
    simp only [CommandWord.ofWord]
    rw [CommandWord.toWord_getLsbD, if_pos (by omega), if_neg (by omega)]
  have h3 : (CommandWord.ofWord c.toWord).rsvd = c.rsvd := by
    apply BitVec.eq_of_getLsbD_eq
    intro i hi
    simp only [CommandWord.ofWord, BitVec.getLsbD_extractLsb', hi, decide_true, Bool.true_and]
    rw [CommandWord.toWord_getLsbD, if_neg (by omega), Nat.add_sub_cancel_left]
  generalize CommandWord.ofWord c.toWord = d at h1 h2 h3
  cases d; cases c
  simp_all

/-- The decoder reads the fields of an encoded instruction as that instruction's. -/
theorem ofWord_encode (i : Instr) : CommandWord.ofWord (encode i) = i.fields := CommandWord.ofWord_toWord _

end Sys2Proof
end

