-- ==== Sys2Proof/Laws/PerInstr.lean ====
section
/-! SUPPORT. Statements made per instruction: the encoding of each is a well-formed command word whose
fields are the instruction's (30_encoding.md R110, R115). -/

namespace Sys2Proof.Laws.Encoding

/-- The word of i has the fields of i, and they are well-formed. -/
def Statement (i : Instr) : Prop := CommandWord.ofWord (encode i) = i.fields ∧ i.fields.wf = true

theorem nop : Statement .nop := ⟨ofWord_encode _, by decide⟩
theorem fft : Statement .fft := ⟨ofWord_encode _, by decide⟩
theorem ifft : Statement .ifft := ⟨ofWord_encode _, by decide⟩
theorem firDesign : Statement .firDesign := ⟨ofWord_encode _, by decide⟩
theorem firDesignHp : Statement .firDesignHp := ⟨ofWord_encode _, by decide⟩
theorem olaInit : Statement .olaInit := ⟨ofWord_encode _, by decide⟩
theorem olaInitWin : Statement .olaInitWin := ⟨ofWord_encode _, by decide⟩
theorem olaApply : Statement .olaApply := ⟨ofWord_encode _, by decide⟩
theorem panGain : Statement .panGain := ⟨ofWord_encode _, by decide⟩
theorem panTable : Statement .panTable := ⟨ofWord_encode _, by decide⟩
theorem mix : Statement .mix := ⟨ofWord_encode _, by decide⟩
theorem start : Statement .start := ⟨ofWord_encode _, by decide⟩
theorem stop : Statement .stop := ⟨ofWord_encode _, by decide⟩
theorem ringPush : Statement .ringPush := ⟨ofWord_encode _, by decide⟩

end Sys2Proof.Laws.Encoding
end

