-- ==== Sys2Proof/Laws/Step.lean ====
section
/-! SUPPORT. Everything a step can do: a turn of the engine, or one event of the outside world. -/

namespace Sys2Proof.Machine

/-- The state with the event of this step taken off the schedule. -/
def State.popEvent (s : State) : State := { s with inputs := s.inputs.tail }

/-- All that a turn of the engine can do (60_exceptions.md R270). -/
theorem engineStep_cases {s t : State} (h : engineStep s = .next t) :
    (s.eng = .idle ∧ t = s) ∨
    (∃ cw e, s.eng = .pending cw ∧ decode cw = .error e ∧ t = raiseError s (decodeErrCode e)) ∨
    (∃ cw i, s.eng = .pending cw ∧ decode cw = .ok i ∧ exec i s = .next t) := by
  unfold engineStep at h
  split at h
  · rename_i he
    simp only [Host.Outcome.next.injEq] at h
    exact .inl ⟨he, h.symm⟩
  · rename_i cw he
    split at h
    · rename_i e hd
      simp only [Host.Outcome.next.injEq] at h
      exact .inr (.inl ⟨cw, e, he, hd, h.symm⟩)
    · rename_i i hd
      exact .inr (.inr ⟨cw, i, he, hd, h⟩)

/-- All that a step can do (20_memory.md R91). -/
theorem step_cases {s t : State} (h : step s = .next t) :
    (EngineTurn s ∧ engineStep s.popEvent = .next t) ∨
    (NextEvent s .reset ∧ t = applyReset s.popEvent) ∨
    (∃ addr size, NextEvent s (.read addr size) ∧ t = hostRead s.popEvent addr size) ∨
    (∃ addr size v, NextEvent s (.write addr size v) ∧ t = hostWrite s.popEvent addr size v) ∨
    (∃ n, NextEvent s (.drain n) ∧ t = drainRequest s.popEvent n) := by
  unfold step at h
  unfold EngineTurn NextEvent
  split at h
  · rename_i hi
    left
    refine ⟨.inl hi, ?_⟩
    rw [show s.popEvent = s by unfold State.popEvent; rw [hi]; cases s; simp_all]
    exact h
  · rename_i e rest hi
    have hp : s.popEvent = { s with inputs := rest } := by unfold State.popEvent; rw [hi]; rfl
    rw [hp, hi]
    dsimp only at h
    split at h
    all_goals try simp only [Host.Outcome.next.injEq] at h
    · exact .inr (.inl ⟨rfl, h.symm⟩)
    · exact .inr (.inr (.inl ⟨_, _, rfl, h.symm⟩))
    · exact .inr (.inr (.inr (.inl ⟨_, _, _, rfl, h.symm⟩)))
    · exact .inr (.inr (.inr (.inr ⟨_, rfl, h.symm⟩)))
    · exact .inl ⟨.inr rfl, h⟩

/-- An event of the outside world is no turn of the engine. -/
theorem not_engineTurn_of_event {s : State} {e : Event} (h : NextEvent s e) (he : e ≠ .engine) : ¬ EngineTurn s := by
  rintro (ht | ht)
  · unfold NextEvent at h; rw [ht] at h; cases h
  · unfold NextEvent at h; rw [ht] at h; cases h; exact he rfl

end Sys2Proof.Machine
end

