-- ==== Sys2Proof/Tests/Slice0.lean ====
section
/-! SUPPORT. The model's own tests: an ill-formed term for each well-formedness check, the words of the
opcode map, one-step tests whose expected values are those of spec/95_test_vectors.md (named in each
docstring) or hand-computed from the rule named, and for each statement with hypotheses a witness that
meets them. -/

namespace Sys2Proof.Tests

open Sys2Proof Sys2Proof.Machine

-- One theorem after another: evaluated side by side, each waits on a thread of its own.
set_option Elab.async false

/-! ## Well-formedness -/

theorem test_wf_refuses_unassigned_op : CommandWord.wf ⟨0x03#8, false, 0#23⟩ = false := by decide
theorem test_wf_refuses_reserved_bit : CommandWord.wf ⟨0x01#8, false, 1#23⟩ = false := by decide
theorem test_wf_refuses_flag_without_flag : CommandWord.wf ⟨0x12#8, true, 0#23⟩ = false := by decide
theorem test_wf_accepts_flag_with_flag : CommandWord.wf ⟨0x11#8, true, 0#23⟩ = true := by decide
theorem test_wf_refuses_wide_literal : Literal.wf (.int (2 ^ 32)) = false := by decide
theorem test_wf_refuses_nine_operands : Statement.wf (.command .mix (List.replicate 9 (.int 0))) = false := by decide
theorem test_wf_refuses_run_literal : Statement.wf (.run .fft [.int (2 ^ 32)]) = false := by decide
theorem test_wf_refuses_csr_outside : Statement.wf (.wr 0x1000 (.int 0)) = false := by decide
theorem test_wf_refuses_csr_misaligned : Statement.wf (.wr 0x022 (.int 0)) = false := by decide
theorem test_wf_refuses_rd_outside : Statement.wf (.rd (2 ^ 32)) = false := by decide
/-- V-E8 and V-E11 read at these addresses. -/
theorem test_wf_accepts_rd : Statement.wf (.rd 0x01000000) = true ∧ Statement.wf (.rd 0x018) = true := by decide
theorem test_wf_refuses_wr_literal : Statement.wf (.wr 0x020 (.int (2 ^ 32))) = false := by decide
theorem test_wf_refuses_dmem_outside : Statement.wf (.dw 262144 (.int 0)) = false := by decide
theorem test_wf_refuses_dr_outside : Statement.wf (.dr 262144) = false := by decide
theorem test_wf_refuses_irq_masks :
    Statement.wf (.clrIrq (.int (2 ^ 32))) = false ∧ Statement.wf (.waitIrq (.int (2 ^ 32))) = false := by decide
theorem test_wf_sizes : Sizes.wf Config.sizes = true := by decide
theorem test_wf_refuses_sizes :
    Sizes.wf { Config.sizes with dmemWords := 262143 } = false ∧
    Sizes.wf { Config.sizes with ringWords := 0 } = false ∧
    Sizes.wf { Config.sizes with revWords := 2 ^ 24 + 1 } = false ∧
    Sizes.wf { Config.sizes with fftLog2Max := 11 } = false ∧
    Sizes.wf { Config.sizes with firMaxTaps := 16382 } = false ∧
    Sizes.wf { Config.sizes with maxV := 32 } = false := by decide

/-! ## Decoding: the words of 30_encoding.md R115, RSVD in bits 31..9, F in bit 8, OP in bits 7..0 -/

theorem test_decode_nop : decode 0b00000000000000000000000000000000#32 = .ok .nop := by decide
theorem test_decode_fft : decode 0b00000000000000000000000000000001#32 = .ok .fft := by decide
theorem test_decode_ifft : decode 0b00000000000000000000000000000010#32 = .ok .ifft := by decide
theorem test_decode_firDesign : decode 0b00000000000000000000000000010000#32 = .ok .firDesign := by decide
theorem test_decode_firDesignHp : decode 0b00000000000000000000000100010000#32 = .ok .firDesignHp := by decide
theorem test_decode_olaInit : decode 0b00000000000000000000000000010001#32 = .ok .olaInit := by decide
theorem test_decode_olaInitWin : decode 0b00000000000000000000000100010001#32 = .ok .olaInitWin := by decide
theorem test_decode_olaApply : decode 0b00000000000000000000000000010010#32 = .ok .olaApply := by decide
theorem test_decode_panGain : decode 0b00000000000000000000000000100000#32 = .ok .panGain := by decide
theorem test_decode_panTable : decode 0b00000000000000000000000000100001#32 = .ok .panTable := by decide
theorem test_decode_mix : decode 0b00000000000000000000000000100010#32 = .ok .mix := by decide
theorem test_decode_start : decode 0b00000000000000000000000000110000#32 = .ok .start := by decide
theorem test_decode_stop : decode 0b00000000000000000000000000110001#32 = .ok .stop := by decide
theorem test_decode_ringPush : decode 0b00000000000000000000000000110010#32 = .ok .ringPush := by decide

/-- V-E1 to V-E6: the illegal and the reserved words, the opcode decided first. -/
theorem test_decode_errors :
    decode 0x00000003#32 = .error .illegal ∧ decode 0x80000003#32 = .error .illegal ∧
    decode 0x00000100#32 = .error .rsvd ∧ decode 0x00000201#32 = .error .rsvd ∧
    decode 0x00000112#32 = .error .rsvd ∧ decode 0x000000FF#32 = .error .illegal := by decide

theorem test_decodeTableWord : decodeTableWord 32 0x111 = some .olaInitWin := by decide

/-! ## Helpers -/

/-- The reset state with the latched arguments and some DMEM words (listed by rising address) given. -/
def given (args : Vector Word 8) (cells : List (Nat × Word)) : State :=
  { State.reset with argl := args, dmem := { State.reset.dmem with cells := cells } }

/-- The state an outcome gives, none for a fault or a refusal. -/
def nextOf : Host.Outcome State Fault Refusal → Option State
  | .next t => some t
  | .fault _ => none
  | .refused _ => none

/-- A field of the next state. -/
def field {α : Type} (o : Host.Outcome State Fault Refusal) (f : State → α) : Option α := (nextOf o).map f

/-- The words D[a..a+n-1] and the two results. -/
def wordsAndResults (a n : Nat) (t : State) : List Word × Word × Word := (t.dmem.readWords a n, t.result0, t.result1)

/-- The error code, the two results and IRQ_PEND. -/
def completion (t : State) : Option ErrCode × Word × Word × BitVec 6 := (t.err, t.result0, t.result1, t.irqPend)

/-- A refused command's completion (60_exceptions.md R272). -/
def refusal (e : ErrCode) : Option (Option ErrCode × Word × Word × BitVec 6) := some (some e, 0#32, 0#32, 0x03#6)

/-- A ring of four samples in mono, RUNNING, with one committed sample, 7, at offset 3. -/
def ringState : State :=
  { State.reset with
    runState := .running, layout := .mono, devBlock := 1#32, ringCap := 4, ringRd := 3, ringWr := 0, ringLevel := 1
    ring := { base := .zero, cells := [(3, 7#32)] } }

/-- A command word pending on an otherwise reset machine. -/
def pendingState (cw : Word) : State := { State.reset with eng := .pending cw, cmd := cw }

/-- The identity context of V-O1 at word 0x100: K = 1, B = 4, P = 4, DEPTH = 1, H = 1. -/
def identityContext : List (Nat × Word) :=
  [(0x100, 0x4F4C4131#32), (0x101, 1#32), (0x102, 4#32), (0x103, 4#32), (0x104, 1#32), (0x105, 0#32), (0x106, 0#32),
   (0x107, 0#32), (0x108, 0x3F800000#32), (0x109, 0#32), (0x10A, 0x3F800000#32), (0x10B, 0#32), (0x10C, 0x3F800000#32),
   (0x10D, 0#32), (0x10E, 0x3F800000#32), (0x10F, 0#32), (0x110, 0#32), (0x111, 0#32), (0x112, 0#32), (0x113, 0#32),
   (0x114, 0#32), (0x115, 0#32), (0x116, 0#32), (0x117, 0#32)]

/-- The context of V-O5 at word 0x100: kernel [0.5, 0.25], B = 1, P = 2, DEPTH = 2, H = [0.75, 0.25]. -/
def delayContext : List (Nat × Word) :=
  [(0x100, 0x4F4C4131#32), (0x101, 2#32), (0x102, 1#32), (0x103, 2#32), (0x104, 2#32), (0x105, 0#32), (0x106, 0#32),
   (0x107, 0#32), (0x108, 0x3F400000#32), (0x109, 0#32), (0x10A, 0x3E800000#32), (0x10B, 0#32), (0x10C, 0#32),
   (0x10D, 0#32), (0x10E, 0#32), (0x10F, 0#32), (0x110, 0#32), (0x111, 0#32), (0x112, 0#32), (0x113, 0#32)]

/-! ## Commands, one step each -/

/-- V-T18. -/
theorem test_nop : field (exec .nop State.reset) completion = some (none, 0#32, 0#32, 0x01#6) := by decide

def fftInput : State :=
  given #v[0x100#32, 1#32, 0#32, 0#32, 0#32, 0#32, 0#32, 0#32]
    [(0x100, 0x40400000#32), (0x101, 0x3F800000#32), (0x102, 0x3F800000#32), (0x103, 0xC0000000#32)]

/-- V-T4. -/
theorem test_fft : field (exec .fft fftInput) (wordsAndResults 0x100 4) =
    some ([0x40800000#32, 0xBF800000#32, 0x40000000#32, 0x40400000#32], 2#32, 0#32) := by decide +kernel

/-- V-T16: L is checked before the range. -/
theorem test_fft_cfg_first :
    field (exec .fft (given #v[262137#32, 17#32, 0#32, 0#32, 0#32, 0#32, 0#32, 0#32] [])) completion = refusal .cfg := by
  decide +kernel

/-- V-T5. -/
theorem test_ifft : field (exec .ifft fftInput) (wordsAndResults 0x100 4) =
    some ([0x40000000#32, 0xBF000000#32, 0x3F800000#32, 0x3FC00000#32], 2#32, 0#32) := by decide +kernel

/-- V-T10: the division by 1.0 makes the NaN canonical. -/
theorem test_ifft_canonical_nan :
    field (exec .ifft (given #v[0x100#32, 0#32, 0#32, 0#32, 0#32, 0#32, 0#32, 0#32] [(0x100, 0x7FC00001#32), (0x101, 0#32)]))
      (wordsAndResults 0x100 2) = some ([0x7FC00000#32, 0#32], 1#32, 0#32) := by decide +kernel

/-- The arguments of V-F1 (and with 3000.0 of V-F2): fs, fcut, ftr, A, CAP. -/
def firInput (fcut cap : Word) : State :=
  given #v[0x45FA0000#32, fcut, 0x447A0000#32, 0x1000#32, cap, 0#32, 0#32, 0#32] []

/-- V-F1: N = 33. -/
theorem test_firDesign_length : field (exec .firDesign (firInput 0x447A0000#32 64#32)) (fun t => (t.result0, t.err)) =
    some (33#32, none) := by decide +kernel

/-- V-F5: the capacity is too small. -/
theorem test_firDesign_size :
    field (exec .firDesign (firInput 0x447A0000#32 32#32)) completion = refusal .size := by decide +kernel

/-- V-F2: N = 33. -/
theorem test_firDesignHp_length : field (exec .firDesignHp (firInput 0x453B8000#32 64#32)) (fun t => (t.result0, t.err)) =
    some (33#32, none) := by decide +kernel

/-- V-F5: the cutoff is at half the sampling rate. -/
theorem test_firDesignHp_cutoff :
    field (exec .firDesignHp (firInput 0x457A0000#32 64#32)) completion = refusal .cfg := by decide +kernel

def olaInitInput : State := given #v[0x100#32, 0x10#32, 1#32, 4#32, 0#32, 0#32, 0#32, 0#32] [(0x10, 0x3F800000#32)]

/-- V-O1. -/
theorem test_olaInit : field (exec .olaInit olaInitInput) (wordsAndResults 0x100 24) =
    some (identityContext.map Prod.snd, 4#32, 1#32) := by decide +kernel

/-- V-O7: the kernel region inside the context region. -/
theorem test_olaInit_overlap :
    field (exec .olaInit (given #v[0#32, 3#32, 1#32, 4#32, 0#32, 0#32, 0#32, 0#32] [])) completion = refusal .overlap := by
  decide +kernel

/-- 41_filter.md R172: with F = 1 the WIN word of the header is 1. -/
theorem test_olaInitWin : field (exec .olaInitWin olaInitInput) (fun t => t.dmem.readWords 0x105 3) =
    some [0#32, 1#32, 0#32] := by decide +kernel

def olaApplyInput : State :=
  given #v[0x100#32, 0x200#32, 0x300#32, 3#32, 0#32, 0#32, 0#32, 0#32]
    (delayContext ++ [(0x200, 0x3F800000#32), (0x201, 0x40000000#32), (0x202, 0x40400000#32)])

/-- V-O5. -/
theorem test_olaApply : field (exec .olaApply olaApplyInput) (wordsAndResults 0x300 3) =
    some ([0x3F000000#32, 0x3FA00000#32, 0x40000000#32], 3#32, 1#32) := by decide +kernel

/-- V-O7: CX = 262143. -/
theorem test_olaApply_range :
    field (exec .olaApply (given #v[262143#32, 0#32, 0#32, 0#32, 0#32, 0#32, 0#32, 0#32] [])) completion = refusal .range := by
  decide +kernel

/-- 42_spatial.md R205, with 00_scope.md R16: a NaN angle gives the canonical NaN in both results. -/
theorem test_panGain_nan :
    field (exec .panGain (given #v[0#32, 0x7F800001#32, 0#32, 0#32, 0#32, 0#32, 0#32, 0#32] [])) completion =
      some (none, 0x7FC00000#32, 0x7FC00000#32, 0x01#6) := by decide +kernel

def panTableInput (v : Word) : State :=
  { given #v[0x10#32, v, 0x20#32, 0#32, 0#32, 0#32, 0#32, 0#32] [(0x10, 0#32)] with layout := .surround51 }

/-- 42_spatial.md R206: a zero weight in the LFE slot, and the results. -/
theorem test_panTable_lfe_slot : field (exec .panTable (panTableInput 1#32)) (wordsAndResults 0x23 1) =
    some ([0#32], 6#32, 6#32) := by decide +kernel

/-- 42_spatial.md R206: V = 17 is more than MAX_V. -/
theorem test_panTable_cfg : field (exec .panTable (panTableInput 17#32)) completion = refusal .cfg := by decide +kernel

/-- One source of 1.0 in 5.1, one frame. -/
def mixInputState (v : Word) : State :=
  { given #v[v, 1#32, 0x10#32, 0x20#32, 0x30#32, 0#32, 0#32, 0x40#32] [(0x10, 0x3F800000#32), (0x30, 0#32)] with
    layout := .surround51 }

/-- 42_spatial.md R212, R214: with every gain 1.0 the LFE slot holds the raw sum. -/
theorem test_mix_lfe_slot : field (exec .mix (mixInputState 1#32)) (wordsAndResults 0x23 1) =
    some ([0x3F800000#32], 6#32, 6#32) := by decide +kernel

/-- V-M7: V = 17. -/
theorem test_mix_cfg : field (exec .mix (mixInputState 17#32)) completion = refusal .cfg := by decide +kernel

/-- V-R11. -/
theorem test_start : field (exec .start State.reset) (fun t => (t.result0, t.ringCap, t.runState, t.revLen)) =
    some (4096#32, 4096, .running, 0) := by decide +kernel

/-- V-R12. -/
theorem test_start_running : field (exec .start ringState) completion = refusal .state := by decide +kernel

/-- V-R9: the samples discarded, and the notification. -/
theorem test_stop : field (exec .stop ringState) completion = some (none, 1#32, 0#32, 0x05#6) := by decide +kernel

def pushInput (f : Word) : State :=
  { ringState with
    argl := #v[0x400#32, f, 0#32, 0#32, 0#32, 0#32, 0#32, 0#32], ringRd := 2, ringWr := 3
    ring := { base := .zero, cells := [(2, 7#32)] }
    dmem := { State.reset.dmem with cells := [(0x400, 1#32), (0x401, 2#32), (0x402, 3#32)] } }

/-- As V-R1: the push wraps and fills the ring. -/
theorem test_ringPush : field (exec .ringPush (pushInput 3#32)) (fun t => (t.ring.readWords 0 4, t.ringWr, t.ringLevel)) =
    some ([2#32, 3#32, 7#32, 1#32], 2, 4) := by decide +kernel

/-- As V-R3. -/
theorem test_ringPush_noSpace : field (exec .ringPush (pushInput 4#32)) completion = refusal .noSpace := by decide +kernel

/-! ## The device side and the host -/

/-- As V-R6: an underrun. -/
theorem test_drain_underrun :
    let t := drainRequest ringState 2
    (t.drainData, t.ringRd, t.ringWr, t.ringLevel, t.irqPend, t.drainCount, t.xrunCount) =
      ([7#32, 0#32], 1, 1, 0, 0x0C#6, 1#32, 1#32) := by decide +kernel

/-- As V-R7: a request larger than the ring. -/
theorem test_drain_oversized :
    let t := drainRequest ringState 5
    (t.drainData, t.ringRd, t.ringLevel, t.irqPend, t.drainCount, t.xrunCount) =
      (List.replicate 5 0#32, 3, 1, 0x08#6, 0#32, 1#32) := by decide +kernel

/-- V-E8: a DMEM read while a command is pending. -/
theorem test_read_dmem_busy :
    let t := hostRead (pendingState 0#32) 0x01000000#32 4
    (t.rdata, t.irqPend) = (0#32, 0x20#6) := by decide +kernel

/-- V-E9, V-E10, V-E11. -/
theorem test_bus_errors :
    (hostRead State.reset 0x002#32 4).irqPend = 0x20#6 ∧ (hostWrite State.reset 0x1000#32 4 5#32).irqPend = 0x20#6 ∧
    (hostRead State.reset 0x018#32 4).irqPend = 0x00#6 := by decide +kernel

/-- 20_memory.md R82, R98: the byte at addr + i is bits 8i+7..8i; the request of an 8-byte callback, and of one of 6
bytes; the bytes of a drain; a host that writes and reads bytes. -/
theorem test_byte_order :
    wordBytes 0x44332211#32 = [0x11#8, 0x22#8, 0x33#8, 0x44#8] ∧ callbackRequest 8 = some (.drain 2) ∧
    callbackRequest 6 = none ∧
    (drainRequest ringState 2).deviceBytes = [7#8, 0#8, 0#8, 0#8, 0#8, 0#8, 0#8, 0#8] ∧
    (hostWriteBytes State.reset 0x080#32 [0x44#8, 0xAC#8, 1#8, 0#8]).devFs = 0x0001AC44#32 ∧
    hostReadBytes State.reset 0x000#32 4 = [0x42#8, 0x50#8, 0x53#8, 0x44#8] := by decide +kernel

/-- 41_filter.md R160: the taper of one value is 1.0; the centre of five values with α = 0.5 lies on the flat part, the
end is F_COS(0)'s half of 1.0 - 1.0. -/
theorem test_tukey :
    tukey 1 0 0x3F000000#32 = 0x3F800000#32 ∧ tukey 5 2 0x3F000000#32 = 0x3F800000#32 ∧
    tukey 5 0 0x3F000000#32 = 0x00000000#32 := by decide +kernel

/-- V-E12: NOP with DONE enabled raises the interrupt output; the W1C write lowers it. -/
theorem test_irq_level :
    field (exec .nop { State.reset with irqEn := 0x01#6 }) (fun t =>
      (statusWord t, statusWord (hostWrite t 0x028#32 4 0x1#32))) = some (0x00000008#32, 0#32) := by decide +kernel

/-- V-E15, and V-R15 for an illegal and a legal DEV_CHANNELS. -/
theorem test_register_writes :
    (hostWrite { State.reset with changed := true } 0x0D8#32 4 0#32).changed = true ∧
    (hostWrite State.reset 0x084#32 4 3#32).layout = .stereo ∧
    (hostWrite State.reset 0x084#32 4 6#32).layout = .surround51 := by decide +kernel

/-- V-M8: the reverb length of 0.5 s, of 3.0 s and of NaN. -/
theorem test_revLength :
    revLength { State.reset with act := { Tunables.reset with revDelay := 0x3F000000#32 } } = 22050 ∧
    revLength { State.reset with act := { Tunables.reset with revDelay := 0x40400000#32 } } = 131072 ∧
    revLength { State.reset with act := { Tunables.reset with revDelay := 0x7FC00000#32 } } = 0 := by decide +kernel

/-- V-O3's words for 3.9999995 and 13.499999 are the decimals' nearest binary32 (30_encoding.md R122). -/
theorem test_literals :
    literalWord (.dec false 39999995 (-7)) = 0x407FFFFE#32 ∧ literalWord (.dec false 13499999 (-6)) = 0x4157FFFF#32 ∧
    literalWord (.dec true 5 (-1)) = 0xBF000000#32 := by decide +kernel

/-- withFetchWord: the next step runs the word. -/
theorem test_withFetchWord :
    field (step (State.reset.withFetchWord 32 0x30)) (fun t => (t.runState, t.eng)) = some (.running, .idle) := by
  decide +kernel

/-! ## Witnesses: for each statement with hypotheses, data that meets all of them; for each chain of checks,
a state that passes them all -/

/-- A host event or an engine turn waiting on a machine with a pending NOP. -/
def eventState (e : Event) : State := { pendingState 0x00000000#32 with inputs := [e] }

/-- DecodeOrder, a word of each of its four cases. -/
theorem witness_decodeOrder :
    (pendingState 0x80000003#32).eng = .pending 0x80000003#32 ∧ (pendingState 0x00000201#32).eng = .pending 0x00000201#32 ∧
    (pendingState 0x00000112#32).eng = .pending 0x00000112#32 ∧ (pendingState 0x00000111#32).eng = .pending 0x00000111#32 := by
  decide

/-- StepRunsDecodedCommand: with no event left, and with an engine turn next; an idle engine with nothing to come; a
pending word that is no command. -/
theorem witness_executes :
    Executes (pendingState 0x00000030#32) .start ∧ Executes (eventState .engine) .nop ∧
    EngineTurn State.reset ∧ State.reset.eng = .idle ∧
    EngineTurn (pendingState 0x80000003#32) ∧ decode 0x80000003#32 = .error .illegal :=
  ⟨⟨Or.inl rfl, _, rfl, rfl⟩, ⟨Or.inr rfl, _, rfl, rfl⟩, Or.inl rfl, rfl, Or.inl rfl, by decide⟩

/-- StepTakesEvent, each event. -/
theorem witness_nextEvent :
    NextEvent (eventState .reset) .reset ∧ NextEvent (eventState (.read 0#32 4)) (.read 0#32 4) ∧
    NextEvent (eventState (.write 0#32 4 0#32)) (.write 0#32 4 0#32) ∧ NextEvent (eventState (.drain 1)) (.drain 1) ∧
    NextEvent { State.reset with inputs := [.engine] } .engine ∧ State.reset.eng = .idle :=
  ⟨rfl, rfl, rfl, rfl, rfl, rfl⟩

/-- PendingCommandCompletes, CmdWrite (second clause): a pending command, with an event to come. -/
theorem witness_pending : (eventState .reset).eng ≠ .idle := by decide

/-- CommandReadsLatchedArguments: an idle engine, and a command that answers. -/
theorem witness_answers : State.reset.eng = .idle ∧ exec .nop State.reset = .next (completeOk State.reset 0#32 0#32) :=
  ⟨rfl, rfl⟩

/-- BusErrors, each reason: a size, a misaligned address, the unmapped addresses just outside both windows, and
DMEM while a command is pending. -/
theorem witness_busError :
    BusErrorAccess State.reset 0x020#32 2 ∧ BusErrorAccess State.reset 0x022#32 4 ∧
    BusErrorAccess State.reset 0x1000#32 4 ∧ BusErrorAccess State.reset 0x01100000#32 4 ∧
    BusErrorAccess State.reset 0x00FFFFFC#32 4 ∧ BusErrorAccess (pendingState 0#32) 0x01000000#32 4 := by
  unfold BusErrorAccess; decide

/-- ReadsHaveNoSideEffects: a CSR, the first and the last DMEM word. -/
theorem witness_noBusError :
    ¬ BusErrorAccess (pendingState 0#32) 0x024#32 4 ∧ ¬ BusErrorAccess State.reset 0x01000000#32 4 ∧
    ¬ BusErrorAccess State.reset 0x010FFFFC#32 4 := by
  unfold BusErrorAccess; decide

/-- DmemHostAccess, at the bounds of DMEM, and the last bit of the last byte. -/
theorem witness_dmemAccess : State.reset.eng = .idle ∧ 0 < Config.dmemWords ∧ 262143 < Config.dmemWords ∧
    (wordByte 0x80000000#32 3).getLsbD 7 = true := by decide

/-- ReservedOffsets, at the first and last reserved offsets. -/
theorem witness_reservedOffset :
    csrAt 0x018 = none ∧ csrAt 0xFFC = none ∧ 0xFFC < 0x1000 ∧ 0x018 % 4 = 0 ∧ 0xFFC % 4 = 0 := by decide

/-- DeviceRegisterWrites: both run states, a legal and an illegal layout. -/
theorem witness_deviceWrites :
    State.reset.runState = .stopped ∧ ringState.runState ≠ .stopped ∧ 8#32 ∈ [1#32, 2#32, 6#32, 8#32] ∧
    3#32 ∉ [1#32, 2#32, 6#32, 8#32] := by decide

/-- InterruptSources: in the steps below the premise holds, and each bit is set by its event. -/
theorem witness_interruptSources :
    (eventState .engine).runState = .stopped ∧
    field (step (eventState .engine)) State.irqPend = some 0x01#6 ∧
    field (step (pendingState 0x00000003#32)) State.irqPend = some 0x03#6 ∧
    ringState.runState = .running ∧
    field (step { ringState with inputs := [.drain 1] }) State.irqPend = some 0x04#6 ∧
    field (step { ringState with eng := .pending 0x00000031#32, cmd := 0x00000031#32 }) State.irqPend = some 0x05#6 ∧
    field (step { ringState with inputs := [.drain 5] }) State.irqPend = some 0x08#6 ∧
    field (step (eventState (.write 0x020#32 4 0#32))) State.irqPend = some 0x10#6 ∧
    field (step (eventState (.read 0x002#32 4))) State.irqPend = some 0x20#6 := by decide +kernel

/-- PendingBitsSticky: a set bit, the write that clears it, and the reset that clears it. -/
theorem witness_pendingBits :
    field (step { State.reset with irqPend := 0x03#6, inputs := [.write 0x028#32 4 0x1#32] }) State.irqPend = some 0x02#6 ∧
    field (step { State.reset with irqPend := 0x03#6, inputs := [.reset] }) State.irqPend = some 0#6 := by decide +kernel

/-- RegisterWriters: a step that is no reset and changes the ring, the coordinator and the results; the two writes that
set CHANGED. -/
theorem witness_registerWriters :
    ¬ NextEvent (pendingState 0x00000030#32) .reset ∧
    field (step (pendingState 0x00000030#32)) (fun t => (t.runState, t.ringCap, t.result0)) =
      some (.running, 4096, 4096#32) ∧
    field (step { State.reset with inputs := [.write 0x0C0#32 4 0#32] }) State.changed = some true ∧
    field (step { State.reset with inputs := [.write 0x0D8#32 4 1#32] }) State.changed = some true ∧
    State.reset.changed = false := by unfold NextEvent; decide +kernel

/-- ArithmeticRoundsToNearest: 1.0 and 3.0 and a word beside their quotient; a tie is 2^24 + 1; the greatest finite
word doubled overflows, and added to half its last place it meets the bound; infinities, zeros, a NaN. -/
theorem witness_arithmetic :
    isFinite 0x3F800000#32 = true ∧ isFinite 0x40400000#32 = true ∧ isFinite 0x3EAAAAAA#32 = true ∧
    isFinite (fdiv 0x3F800000#32 0x40400000#32) = true ∧ fdiv 0x3F800000#32 0x40400000#32 = 0x3EAAAAAB#32 ∧
    fadd 0x4B800000#32 0x3F800000#32 = 0x4B800000#32 ∧ isFinite 0x4B800001#32 = true ∧
    isFinite 0x7F7FFFFF#32 = true ∧ fmul 0x7F7FFFFF#32 0xC0000000#32 = 0xFF800000#32 ∧
    fVal 0x7F7FFFFF#32 + fVal 0x73000000#32 = (2 ^ 25 - 1) * 2 ^ 252 ∧ fadd 0x7F7FFFFF#32 0x73000000#32 = 0x7F800000#32 ∧
    fadd 0x7F7FFFFF#32 0x72FFFFFF#32 = 0x7F7FFFFF#32 ∧ isInf 0xFF800000#32 = true ∧ isZero 0x80000000#32 = true ∧
    fdiv 0x3F800000#32 0x80000000#32 = 0xFF800000#32 ∧ fadd 0x80000000#32 0x00000000#32 = 0x00000000#32 ∧
    isNaN 0xFFC00001#32 = true := by decide +kernel

/-- ConversionsAndComparisons: 2.5 is finite and not negative, its ceiling is 3; 2^24 + 1 is a tie; the natural just
below the overflow bound; an infinity is no NaN and above the greatest finite word. -/
theorem witness_conversions :
    isFinite 0x40200000#32 = true ∧ 0 ≤ fVal 0x40200000#32 ∧ ceilNat 0x40200000#32 = 3 ∧ 16777215 < 2 ^ 24 ∧
    isNaN 0x7F800001#32 = true ∧ f32 (2 ^ 24 + 1) = 0x4B800000#32 ∧ f32 (2 ^ 24 + 3) = 0x4B800002#32 ∧
    f32 (2 ^ 128 - 2 ^ 103 - 1) = 0x7F7FFFFF#32 ∧ f32Int (-1) = 0xBF800000#32 ∧ isNaN 0x7F800000#32 = false ∧
    flt 0x7F7FFFFF#32 0x7F800000#32 = true ∧ fle 0x00000000#32 0x80000000#32 = true := by decide +kernel

/-- NumericFunctionProperties: -87 meets the bound of the exponential; F_SIN and F_TANH of 0 are no NaN. -/
theorem witness_numeric :
    isFinite 0xC2AE0000#32 = true ∧ fle 0xC2AE0000#32 0xC2AE0000#32 = true ∧ isNaN (fSin 0#32) = false ∧
    isNaN (fTanh 0#32) = false ∧ isNaN 0xFFC00001#32 = true := by decide +kernel

/-- PanGainCompletes: a sample of -0.0, a NaN sample, a NaN angle. -/
theorem witness_panGain :
    argF32 (given #v[0x80000000#32, 0#32, 0#32, 0#32, 0#32, 0#32, 0#32, 0#32] []) 0 = 0x80000000#32 ∧
    isNaN (argF32 (given #v[0x7FC00001#32, 0x7FC00001#32, 0#32, 0#32, 0#32, 0#32, 0#32, 0#32] []) 0) = true ∧
    isNaN (argF32 (given #v[0x7FC00001#32, 0x7FC00001#32, 0#32, 0#32, 0#32, 0#32, 0#32, 0#32] []) 1) = true := by decide

/-- PanWeightSymmetric: two finite angles. -/
theorem witness_panWeight : isFinite 0x3F060A92#32 = true ∧ isFinite 0xBF060A92#32 = true := by decide

/-- DitCombine, InverseScaling: one value, and two values. -/
theorem witness_lengths :
    [(⟨0#32, 0#32⟩ : Cpx)].length = 1 ∧ (List.replicate 2 (⟨0#32, 0#32⟩ : Cpx)).length = 2 ^ (0 + 1) ∧ 1 ≤ 20 := by decide

/-- TransformCompletes, FirDesignCompletes, OlaInitCompletes (and OlaInitMakesValidContext), OlaApplyCompletes,
PanTableCompletes, StartCompletes, RingPushCompletes: states in which no check fails. -/
theorem witness_checks_pass :
    checkTransform fftInput = none ∧ checkFir (firInput 0x447A0000#32 64#32) = none ∧
    checkFir (firInput 0x453B8000#32 64#32) = none ∧ checkOlaInit olaInitInput = none ∧
    checkOlaApply olaApplyInput = none ∧ checkPanTable (panTableInput 1#32) = none ∧ checkStart State.reset = none ∧
    checkRingPush (pushInput 3#32) = none := by decide +kernel

/-- FirTapSymmetry: tapers of 2 and of 2^20 values; the outermost taps of a kernel of 33, and the last of the longest
odd kernel. -/
theorem witness_firTap :
    2 ≤ 2 ^ 20 ∧ 2 ^ 20 - 1 < 2 ^ 20 ∧ 16 ≤ 16 ∧ 2 * 16 + 1 ≤ 2 ^ 20 ∧ 32 ≤ 2 * 16 ∧ 2 * 524287 + 1 ≤ 2 ^ 20 := by decide

/-- PaddedLengthAndDepth: the least lengths, and those of V-O2. -/
theorem witness_padded :
    1 ≤ 1 ∧ nextPow2 (1 + 1 - 1) = 1 ∧ nextPow2 (3 + 2 - 1) = 4 ∧ ceilDiv 4 2 = 2 := by decide

/-- OlaStepWrites, OlaStepOutput: a valid context and a chunk of its length. -/
theorem witness_olaStep :
    validCtx olaApplyInput 0x100 = none ∧ [0x3F800000#32].length = ctxHeader olaApplyInput 0x100 2 := by decide +kernel

/-- ValidContext: a valid context; a header outside DMEM; a header whose cursor is out of range. -/
theorem witness_validContext :
    validCtx (given (Vector.replicate 8 0#32) identityContext) 0x100 = none ∧ Config.dmemWords < 262137 + 8 ∧
    validCtx (given (Vector.replicate 8 0#32) identityContext) 262137 = some .range ∧
    validCtx (given (Vector.replicate 8 0#32) identityContext) 0x101 = some .ctx := by decide +kernel

/-- MixCompletes, MixWords, MixContexts: a MIX with the plain paths; one with the distance and the LFE low-pass paths
on, the snapshot pending. -/
def mixAllPaths : State :=
  { given #v[1#32, 4#32, 0x10#32, 0x20#32, 0x40#32, 0x100#32, 0x50#32, 0x60#32]
      ((0x10, 0x3F800000#32) :: (0x40, 0#32) :: (0x50, 0x200#32) :: identityContext ++
        identityContext.map fun c => (c.1 + 0x100, c.2)) with
    layout := .surround51, changed := true, tun := { Tunables.reset with revDelay := 0x3F000000#32, enables := 0xF#4 } }

theorem witness_mix :
    checkMix (mixInputState 1#32) = none ∧ checkMix mixAllPaths = none ∧ runsDistance mixAllPaths = true ∧
    runsLfeLowPass mixAllPaths = true ∧ (snapshot mixAllPaths).act.enables.getLsbD 2 = true ∧
    runsDistance (mixInputState 1#32) = false ∧ (mixInputState 1#32).layout.speakers = 6 ∧
    runsLfeLowPass (mixInputState 1#32) = false := by decide +kernel

/-- Each refusal of MIX_CHECKS is reached (42_spatial.md R211; V-M7). -/
theorem witness_mixRefusals :
    checkMix { mixAllPaths with argl := mixAllPaths.argl.set 2 262143#32 } = some .range ∧
    checkMix { mixAllPaths with argl := mixAllPaths.argl.set 5 0x10#32 } = some .ctx ∧
    checkMix { mixAllPaths with argl := mixAllPaths.argl.set 5 262140#32 } = some .range ∧
    checkMix { mixAllPaths with argl := mixAllPaths.argl.set 6 262144#32 } = some .range ∧
    checkMix { mixAllPaths with argl := mixAllPaths.argl.set 6 0x11#32, dmem := mixAllPaths.dmem.write 0x11 0x10#32 } =
      some .ctx ∧
    checkMix { mixAllPaths with argl := mixAllPaths.argl.set 7 0x20#32 } = some .overlap := by decide +kernel

/-- ReverbStep: no reverb, and a reverb of two samples. -/
theorem witness_reverb : State.reset.revLen = 0 ∧ ({ State.reset with revLen := 2 } : State).revLen ≠ 0 := by decide

/-- StopCompletes, StartCompletes: both run states. DrainRequest: each case. -/
theorem witness_ring :
    State.reset.runState = .stopped ∧ ringState.runState = .running ∧ ringState.ringCap < 5 ∧ 1 ≤ ringState.ringLevel ∧
    ¬ 2 ≤ ringState.ringLevel ∧ 4 ≤ ringState.ringCap := by decide

theorem ringState_ring_read (a : Nat) : ringState.ring.read a = if a = 3 then 7#32 else 0#32 := by
  by_cases h : a = 3
  · subst h; rfl
  · rw [if_neg h]
    have h3 : ¬ 3 = a := fun e => h e.symm
    simp [ringState, Ram.read, lookupCell, h3, RamBase.word]

/-- UnderrunDeliversSilence, StepKeepsInv, RingSpace, AccessTypes: a running state with the invariant, which a step leaves by a
next state. -/
theorem witness_inv :
    Inv ringState ∧ ringState.runState = .running ∧ ringState.ringLevel < 2 ∧ 2 ≤ ringState.ringCap ∧
    step ringState = .next ringState := by
  refine ⟨?_, rfl, by decide, by decide, rfl⟩
  constructor
  case freeSpaceZero =>
    intro _ j hj
    have hj : j < 3 := hj
    have h0 : ringState.ringWr = 0 := rfl
    have h4 : ringState.ringCap = 4 := rfl
    rw [ringState_ring_read, if_neg]
    rw [h0, h4]; omega
  case beyondZero =>
    intro _ i hi
    have hi : 4 ≤ i := hi
    rw [ringState_ring_read, if_neg (by omega)]
  case cmdHeld => intro cw h; cases h
  all_goals decide +kernel

/-- CommandStatement: no operand, and eight. -/
theorem witness_commandStatement :
    (List.replicate 8 (Literal.int 0)).length ≤ 8 ∧ State.reset.eng = .idle ∧
    ({ State.reset with inputs := statementEvents (.command .nop []) } : State).inputs =
      statementEvents (.command .nop []) := ⟨by decide, rfl, rfl⟩

end Sys2Proof.Tests
end

section
/-! SUPPORT. Binary32 arithmetic (00_scope.md R15): the classes of words, signed magnitudes, that a result packed from
`roundMag` is the nearest value of its sign, and from these the statement on the four operations. -/

namespace Sys2Proof.Machine

/-! ## Classes of words -/

theorem isNaN_of_isFinite {x : Word} (h : isFinite x = true) : isNaN x = false := by
  simp only [isFinite, isNaN, decide_eq_true_eq, decide_eq_false_iff_not] at h ⊢; omega

theorem isInf_of_isFinite {x : Word} (h : isFinite x = true) : isInf x = false := by
  simp only [isFinite, isInf, decide_eq_true_eq, decide_eq_false_iff_not] at h ⊢; omega

theorem isZero_of_isInf {x : Word} (h : isInf x = true) : isZero x = false := by
  simp only [isInf, isZero, decide_eq_true_eq, decide_eq_false_iff_not] at h ⊢; omega

theorem isFinite_iff_lt (x : Word) : isFinite x = true ↔ fMagBits x < 0x7F800000 := by simp [isFinite]

theorem isInf_iff_eq (x : Word) : isInf x = true ↔ fMagBits x = 0x7F800000 := by simp [isInf]

/-! ## Signed magnitudes -/

/-- The integer of a sign and a magnitude. -/
def signed (s : Bool) (n : Nat) : Int := if s then -(n : Int) else n

theorem fVal_eq_signed (x : Word) : fVal x = signed (fSign x) (fMag x) := rfl

theorem fKey_eq_signed (x : Word) : fKey x = signed (fSign x) (fMagBits x) := rfl

@[simp] theorem signed_zero (s : Bool) : signed s 0 = 0 := by cases s <;> rfl

@[simp] theorem abs_signed (s : Bool) (n : Nat) : |signed s n| = n := by cases s <;> simp [signed]

theorem signed_not (s : Bool) (n : Nat) : signed (!s) n = -signed s n := by cases s <;> simp [signed]

theorem signed_mul (s t : Bool) (m n : Nat) : signed s m * signed t n = signed (s != t) (m * n) := by
  cases s <;> cases t <;> simp [signed]

theorem signed_eq_mul (s : Bool) (n : Nat) : signed s n = (if s then -1 else 1) * (n : Int) := by
  cases s <;> simp [signed]

theorem signed_natAbs (v : Int) : signed (decide (v < 0)) v.natAbs = v := by
  unfold signed
  simp only [decide_eq_true_eq]
  split <;> omega

theorem signed_nonneg_eq {s : Bool} {n : Nat} (h : 0 ≤ signed s n) : signed s n = n := by
  cases s
  · rfl
  · simp only [signed, if_true] at h ⊢; omega

/-- A strictly increasing magnitude map that keeps 0 keeps the order of signed magnitudes. -/
theorem signed_lt_signed_iff {f : Nat → Nat} (hf : StrictMono f) (h0 : f 0 = 0) (s t : Bool) (m n : Nat) :
    signed s (f m) < signed t (f n) ↔ signed s m < signed t n := by
  have hmn := hf.lt_iff_lt (a := m) (b := n)
  have hnm := hf.lt_iff_lt (a := n) (b := m)
  have hm := hf.lt_iff_lt (a := 0) (b := m)
  have hn := hf.lt_iff_lt (a := 0) (b := n)
  cases s <;> cases t <;> simp only [signed, if_true, if_false, Bool.false_eq_true] <;> omega

@[simp] theorem fVal_fneg (x : Word) : fVal (fneg x) = -fVal x := by
  rw [fVal_eq_signed, fSign_fneg, fMag_eq_magOf, fMagBits_fneg, signed_not, ← fMag_eq_magOf, ← fVal_eq_signed]

theorem fMag_fPack (sg : Bool) {m : Nat} (h : m < 2 ^ 31) : fMag (fPack sg m) = magOf m := by
  rw [fMag_eq_magOf, fMagBits_fPack sg h]

theorem fVal_fPack (sg : Bool) {m : Nat} (h : m < 2 ^ 31) : fVal (fPack sg m) = signed sg (magOf m) := by
  rw [fVal_eq_signed, fSign_fPack sg h, fMag_fPack sg h]

@[simp] theorem magOf_zero : magOf 0 = 0 := rfl

/-- The overflow bound 2^128 is the magnitude the bits of infinity would have. -/
theorem magOf_inf : magOf 0x7F800000 = 2 ^ 128 * 2 ^ 149 := by decide

theorem fMag_eq_zero_iff (x : Word) : fMag x = 0 ↔ isZero x = true := by
  rw [fMag_eq_magOf, isZero, decide_eq_true_eq]
  exact magOf_strictMono.injective.eq_iff' magOf_zero

/-- Scaled distances are those of the magnitudes where the signs agree, and their sums where they do not. -/
theorem signed_distance (t g s : Bool) (m den num : Nat) :
    |signed t m * signed (s != g) den - signed s num| =
      if t = g then |(m * den : Int) - num| else ((m * den + num : Nat) : Int) := by
  have hneg : |-(m * den : Int) - num| = ((m * den + num : Nat) : Int) := by
    rw [← neg_add', abs_neg]; push_cast; exact abs_of_nonneg (by positivity)
  have hpos : |(m * den : Int) + num| = ((m * den + num : Nat) : Int) := by
    push_cast; exact abs_of_nonneg (by positivity)
  have hflip : |-(m * den : Int) + num| = |(m * den : Int) - num| := by
    rw [← abs_neg]; congr 1; ring
  cases t <;> cases g <;> cases s <;> simp [signed, hneg, hpos, hflip]

/-! ## A packed rounded magnitude is the nearest value -/

/-- Against the word `w`, the word `r` is the binary32 value nearest `exact / scale` with the sign `sg`, ties to even,
and an infinity from the overflow bound on. -/
def RoundsTo (w r : Word) (sg : Bool) (scale exact : Int) : Prop :=
  fSign r = sg ∧
  if |exact| < (2 ^ 25 - 1) * 2 ^ 252 * |scale| then
    isFinite r = true ∧ (isFinite w = true →
      |fVal r * scale - exact| ≤ |fVal w * scale - exact| ∧
      (fVal w ≠ fVal r → |fVal r * scale - exact| = |fVal w * scale - exact| → r.toNat % 2 = 0))
  else r = if sg then 0xFF800000#32 else 0x7F800000#32

theorem fPack_inf (sg : Bool) : fPack sg 0x7F800000 = if sg then 0xFF800000#32 else 0x7F800000#32 := by
  cases sg <;> decide

theorem fPack_toNat_mod_two (sg : Bool) {m : Nat} (h : m < 2 ^ 31) : (fPack sg m).toNat % 2 = m % 2 := by
  rw [fPack_toNat sg h]; split <;> omega

/-- Some magnitude of the result's sign lies as near as `w` does: that of `w`, or 0 if `w` has the other sign. -/
theorem exists_magnitude_as_near (w : Word) (s g : Bool) (num den : Nat) :
    ∃ m, |(magOf m * den : Int) - num| ≤ |fVal w * signed (s != g) den - signed s num| ∧
      (|(magOf m * den : Int) - num| = |fVal w * signed (s != g) den - signed s num| →
        0 < den → fVal w = signed g (magOf m)) := by
  rw [fVal_eq_signed, fMag_eq_magOf, signed_distance]
  by_cases hsign : fSign w = g
  · exact ⟨fMagBits w, by simp [hsign]⟩
  · refine ⟨0, ?_⟩
    have h0 : |(magOf 0 * den : Int) - num| = num := by simp
    rw [h0, if_neg hsign, magOf_zero, signed_zero]
    refine ⟨by omega, fun htie hden => ?_⟩
    have hprod : magOf (fMagBits w) * den = 0 := by omega
    rw [(Nat.mul_eq_zero.1 hprod).resolve_right hden.ne', signed_zero]

/-- A result packed from `roundMag` is rounded to nearest, where the exact result has the sign `s` and the scale the
sign that makes their quotient's sign `sg`. -/
theorem roundsTo_fPack (w : Word) {s sg : Bool} {num den : Nat} {scale exact : Int} (hd : 0 < den)
    (hexact : exact = signed s num) (hscale : scale = signed (s != sg) den) :
    RoundsTo w (fPack sg (roundMag num den)) sg scale exact := by
  subst hexact hscale
  have hle := roundMag_le num den
  have hlt : roundMag num den < 2 ^ 31 := by omega
  have hbound : |signed s num| < (2 ^ 25 - 1) * 2 ^ 252 * |signed (s != sg) den| ↔ roundMag num den < 0x7F800000 := by
    rw [abs_signed, abs_signed, roundMag_finite_iff num den hd, ← Int.ofNat_lt]; norm_num
  refine ⟨fSign_fPack sg hlt, ?_⟩
  by_cases hfin : roundMag num den < 0x7F800000
  · rw [if_pos (hbound.2 hfin), isFinite_iff_lt, fMagBits_fPack sg hlt]
    refine ⟨hfin, fun _ => ?_⟩
    obtain ⟨m, hnear, hsame⟩ := exists_magnitude_as_near w s sg num den
    have hmin := roundMag_nearest num den hd hfin m
    rw [fVal_fPack sg hlt, signed_distance, if_pos rfl, fPack_toNat_mod_two sg hlt]
    refine ⟨hmin.trans hnear, fun hne htie => ?_⟩
    have heq := le_antisymm hnear (htie ▸ hmin)
    refine roundMag_tie_even num den hd hfin m ?_ (htie.trans heq.symm)
    rintro rfl
    exact hne (hsame heq hd)
  · rw [if_neg (mt hbound.1 hfin), show roundMag num den = 0x7F800000 by omega, fPack_inf]

/-! ## The four operations on finite words -/

/-- The sign of a sum of finite words: an exact zero sum is +0.0 unless both terms are negative zeros. -/
def sumSign (a b : Word) : Bool :=
  if fVal a + fVal b = 0 then fSign a && fSign b else decide (fVal a + fVal b < 0)

theorem roundMag_zero {den : Nat} (hd : 0 < den) : roundMag 0 den = 0 := by
  simpa using roundMag_exact (k := 0) hd (by decide)

theorem fadd_finite {a b : Word} (ha : isFinite a = true) (hb : isFinite b = true) :
    fadd a b = fPack (sumSign a b) (roundMag (fVal a + fVal b).natAbs 1) := by
  simp only [fadd, sumSign, isNaN_of_isFinite ha, isNaN_of_isFinite hb, isInf_of_isFinite ha, isInf_of_isFinite hb,
    Bool.or_self, Bool.false_eq_true, if_false]
  by_cases h : fVal a + fVal b = 0
  · simp [h, roundMag_zero]
  · simp [h]

theorem fmul_finite {a b : Word} (ha : isFinite a = true) (hb : isFinite b = true) :
    fmul a b = fPack (fSign a != fSign b) (roundMag (fMag a * fMag b) (2 ^ 149)) := by
  simp [fmul, isNaN_of_isFinite ha, isNaN_of_isFinite hb, isInf_of_isFinite ha, isInf_of_isFinite hb]

theorem fdiv_finite {a b : Word} (ha : isFinite a = true) (hb : isFinite b = true) (hz : isZero b = false) :
    fdiv a b = fPack (fSign a != fSign b) (roundMag (fMag a * 2 ^ 149) (fMag b)) := by
  simp [fdiv, isNaN_of_isFinite ha, isNaN_of_isFinite hb, isInf_of_isFinite ha, isInf_of_isFinite hb, hz]

theorem fdiv_zero {a b : Word} (ha : isFinite a = true) (hb : isFinite b = true) (hz : isZero b = true) :
    fdiv a b = if isZero a = true then qNaN else fPack (fSign a != fSign b) 0x7F800000 := by
  simp [fdiv, isNaN_of_isFinite ha, isNaN_of_isFinite hb, isInf_of_isFinite ha, isInf_of_isFinite hb, hz]

theorem fadd_roundsTo (w : Word) {a b : Word} (ha : isFinite a = true) (hb : isFinite b = true) :
    RoundsTo w (fadd a b) (sumSign a b) 1 (fVal a + fVal b) := by
  rw [fadd_finite ha hb]
  refine roundsTo_fPack w (s := sumSign a b) Nat.one_pos ?_ (by simp [signed])
  unfold sumSign
  by_cases h : fVal a + fVal b = 0
  · simp [h]
  · rw [if_neg h, signed_natAbs]

theorem fsub_roundsTo (w : Word) {a b : Word} (ha : isFinite a = true) (hb : isFinite b = true) :
    RoundsTo w (fsub a b) (if fVal a - fVal b = 0 then fSign a && !fSign b else decide (fVal a - fVal b < 0)) 1
      (fVal a - fVal b) := by
  simpa [fsub, sumSign, ← sub_eq_add_neg] using fadd_roundsTo w ha ((isFinite_fneg b).trans hb)

theorem fmul_roundsTo (w : Word) {a b : Word} (ha : isFinite a = true) (hb : isFinite b = true) :
    RoundsTo w (fmul a b) (fSign a != fSign b) (2 ^ 149) (fVal a * fVal b) := by
  rw [fmul_finite ha hb]
  refine roundsTo_fPack w (s := fSign a != fSign b) (Nat.two_pow_pos 149) ?_ (by simp [signed])
  rw [fVal_eq_signed, fVal_eq_signed, signed_mul]

theorem fdiv_roundsTo (w : Word) {a b : Word} (ha : isFinite a = true) (hb : isFinite b = true)
    (hz : isZero b = false) :
    RoundsTo w (fdiv a b) (fSign a != fSign b) (fVal b) (fVal a * 2 ^ 149) := by
  have hpos : 0 < fMag b := Nat.pos_of_ne_zero fun h => by simp [(fMag_eq_zero_iff b).1 h] at hz
  rw [fdiv_finite ha hb hz]
  refine roundsTo_fPack w (s := fSign a) hpos ?_ ?_
  · rw [← Bool.bne_false (fSign a), ← signed_mul]; rfl
  · rw [fVal_eq_signed, ← Bool.bne_assoc, bne_self_eq_false, Bool.false_bne]

/-! ## Infinities and NaN operands -/

theorem fadd_nan {a b : Word} (h : isNaN a = true ∨ isNaN b = true) : fadd a b = qNaN := by
  simp [fadd, h]

theorem fmul_nan {a b : Word} (h : isNaN a = true ∨ isNaN b = true) : fmul a b = qNaN := by
  simp [fmul, h]

theorem fdiv_nan {a b : Word} (h : isNaN a = true ∨ isNaN b = true) : fdiv a b = qNaN := by
  simp [fdiv, h]

theorem fadd_inf_finite {a b : Word} (ha : isInf a = true) (hb : isFinite b = true) : fadd a b = a := by
  simp [fadd, isNaN_of_isInf ha, isNaN_of_isFinite hb, ha, isInf_of_isFinite hb]

theorem fadd_finite_inf {a b : Word} (ha : isFinite a = true) (hb : isInf b = true) : fadd a b = b := by
  simp [fadd, isNaN_of_isInf hb, isNaN_of_isFinite ha, hb, isInf_of_isFinite ha]

theorem fadd_inf_inf {a b : Word} (ha : isInf a = true) (hb : isInf b = true) :
    fadd a b = if fSign a != fSign b then qNaN else a := by
  simp [fadd, isNaN_of_isInf ha, isNaN_of_isInf hb, ha, hb]

theorem fmul_inf {a b : Word} (ha : isInf a = true) (hb : isNaN b = false) :
    fmul a b = if isZero b = true then qNaN else fPack (fSign a != fSign b) 0x7F800000 := by
  simp [fmul, isNaN_of_isInf ha, isZero_of_isInf ha, hb, ha]

theorem fmul_comm (a b : Word) : fmul a b = fmul b a := by
  simp only [fmul, Bool.or_comm (isNaN a), Bool.and_comm (isInf a), Bool.and_comm (isZero a), Bool.or_comm (isInf a),
    Nat.mul_comm (fMag a), bne_comm (a := fSign a), Bool.or_comm (isZero b && isInf a)]

theorem fdiv_inf_finite {a b : Word} (ha : isInf a = true) (hb : isFinite b = true) :
    fdiv a b = fPack (fSign a != fSign b) 0x7F800000 := by
  simp [fdiv, isNaN_of_isInf ha, isNaN_of_isFinite hb, ha, isInf_of_isFinite hb, isZero_of_isInf ha]

theorem fdiv_finite_inf {a b : Word} (ha : isFinite a = true) (hb : isInf b = true) :
    fdiv a b = fPack (fSign a != fSign b) 0 := by
  simp [fdiv, isNaN_of_isInf hb, isNaN_of_isFinite ha, hb, isInf_of_isFinite ha, isZero_of_isInf hb]

theorem fdiv_inf_inf {a b : Word} (ha : isInf a = true) (hb : isInf b = true) : fdiv a b = qNaN := by
  simp [fdiv, isNaN_of_isInf ha, isNaN_of_isInf hb, ha, hb]

theorem fPack_zero (sg : Bool) : fPack sg 0 = if sg then 0x80000000#32 else 0x00000000#32 := by
  cases sg <;> decide

/-- Settles O26: finite operands by `roundsTo_fPack`, the special cases by the class of each operand. -/
theorem arithmeticRoundsToNearest : Obligations.ArithmeticRoundsToNearest := by
  unfold Obligations.ArithmeticRoundsToNearest
  intro a b w
  dsimp only
  refine ⟨fun ha hb => ⟨fadd_roundsTo w ha hb, fsub_roundsTo w ha hb, fmul_roundsTo w ha hb, ?_⟩,
    fun ha hb => ?_, fun ha hb => ?_, fun h => ?_⟩
  · cases hz : isZero b with
    | true => rw [if_pos rfl, fdiv_zero ha hb hz, fPack_inf]; rfl
    | false => exact fdiv_roundsTo w ha hb hz
  · have hmul := fmul_inf ha (isNaN_of_isFinite hb)
    rw [fPack_inf] at hmul
    refine ⟨fadd_inf_finite ha hb, fadd_finite_inf hb ha, fadd_inf_finite ha ((isFinite_fneg b).trans hb),
      fadd_finite_inf hb ((isInf_fneg a).trans ha), hmul, (fmul_comm b a).trans hmul, ?_, ?_⟩
    · rw [fdiv_inf_finite ha hb, fPack_inf]
    · rw [fdiv_finite_inf hb ha, fPack_zero, bne_comm]
  · refine ⟨fadd_inf_inf ha hb, ?_, ?_, fdiv_inf_inf ha hb⟩
    · rw [fsub, fadd_inf_inf ha ((isInf_fneg b).trans hb), fSign_fneg]
      cases fSign a <;> cases fSign b <;> rfl
    · rw [fmul_inf ha (isNaN_of_isInf hb), if_neg (by simp [isZero_of_isInf hb]), fPack_inf]
  · exact ⟨fadd_nan h, fadd_nan (by rwa [isNaN_fneg]), fmul_nan h, fdiv_nan h⟩

end Sys2Proof.Machine
end

section
/-! SUPPORT. NaN results, conversions and comparisons, and the numeric functions (00_scope.md R16, R17, R18, R20). -/

namespace Sys2Proof.Machine

/-! ## NaN results (00_scope.md R16) -/

theorem oddExtension_canonical (raw : Word → Word) (x : Word) (h : isNaN (oddExtension raw x) = true) :
    oddExtension raw x = qNaN := by
  cases hn : isNaN x with
  | true => exact oddExtension_nan raw hn
  | false =>
    cases hz : isZero x with
    | true => rw [oddExtension_zero raw hz, hn] at h; cases h
    | false =>
      simp only [oddExtension, hn, hz, Bool.false_eq_true, if_false] at h ⊢
      split at h
      next hs => rw [if_pos hs]; exact canon_canonical _ h
      next hs => rw [if_neg hs]; exact canon_canonical _ h

theorem fCos_canonical (x : Word) (h : isNaN (fCos x) = true) : fCos x = qNaN := by
  cases hn : isNaN x with
  | true => exact fCos_nan hn
  | false =>
    cases hz : isZero x with
    | true => rw [fCos_zero hz] at h; exact absurd h (by decide)
    | false =>
      simp only [fCos, hn, hz, Bool.false_eq_true, if_false] at h ⊢
      exact canon_canonical _ h

theorem fExp_canonical (x : Word) (h : isNaN (fExp x) = true) : fExp x = qNaN := by
  cases hn : isNaN x with
  | true => exact fExp_nan hn
  | false =>
    simp only [fExp, hn, Bool.false_eq_true, if_false] at h ⊢
    split at h
    · exact absurd h (by decide)
    next hc => rw [if_neg hc]; exact canon_canonical _ h

theorem isNaN_f32 (n : Nat) : isNaN (f32 n) = false := isNaN_fPack_of_le false (roundMag_le _ _)

/-- 0x80000000 has bit 31 alone. -/
theorem fneg_getLsbD (x : Word) (k : Nat) : (fneg x).getLsbD k = (x.getLsbD k ^^ decide (k = 31)) := by
  have hmask : (0x80000000#32).getLsbD k = decide (k = 31) := by
    rw [show 0x80000000#32 = BitVec.twoPow 32 31 by decide, BitVec.getLsbD_twoPow]
    simp [eq_comm]
  rw [fneg, BitVec.getLsbD_xor, hmask]

/-- Settles O27: one lemma per operation and function, on the branch in which each can answer a NaN. -/
theorem nanResultsCanonical : Obligations.NanResultsCanonical := by
  unfold Obligations.NanResultsCanonical
  intro a b n
  refine ⟨?_, isNaN_f32 n, fun k _ => fneg_getLsbD a k⟩
  simp only [List.forall_mem_cons, List.not_mem_nil, false_imp_iff, implies_true, and_true]
  exact ⟨fadd_canonical a b, fsub_canonical a b, fmul_canonical a b, fdiv_canonical a b,
    oddExtension_canonical _ a, fCos_canonical a, fExp_canonical a, oddExtension_canonical _ a⟩

/-! ## Fields -/

theorem isNaN_iff_fields (x : Word) : isNaN x = true ↔ x.toNat / 2 ^ 23 % 2 ^ 8 = 255 ∧ x.toNat % 2 ^ 23 ≠ 0 := by
  rw [isNaN, decide_eq_true_eq, fMagBits]; omega

theorem isInf_iff_fields (x : Word) : isInf x = true ↔ x.toNat / 2 ^ 23 % 2 ^ 8 = 255 ∧ x.toNat % 2 ^ 23 = 0 := by
  rw [isInf_iff_eq, fMagBits]; omega

theorem isFinite_iff_field (x : Word) : isFinite x = true ↔ x.toNat / 2 ^ 23 % 2 ^ 8 < 255 := by
  rw [isFinite_iff_lt, fMagBits]; omega

theorem isZero_iff_fields (x : Word) : isZero x = true ↔ x.toNat / 2 ^ 23 % 2 ^ 8 = 0 ∧ x.toNat % 2 ^ 23 = 0 := by
  rw [isZero, decide_eq_true_eq, fMagBits]; omega

/-! ## Sums and conversions of integers (00_scope.md R17, R18) -/

theorem fsum_append (xs : List Word) (x : Word) : fsum (xs ++ [x]) = fadd (fsum xs) x := by
  simp [fsum, List.foldl_append]

theorem f32_exact {n : Nat} (h : n < 2 ^ 24) : isFinite (f32 n) = true ∧ fVal (f32 n) = n * 2 ^ 149 := by
  obtain ⟨k, hk, hmag⟩ := magOf_representable n 149 h (by decide)
  have hround := roundMag_exact Nat.one_pos hk
  rw [hmag, Nat.mul_one] at hround
  rw [f32, hround, isFinite_iff_lt, fMagBits_fPack _ (by omega), fVal_fPack _ (by omega), hmag]
  exact ⟨hk, by simp [signed]⟩

theorem f32_roundsTo (n : Nat) (w : Word) : RoundsTo w (f32 n) false 1 (n * 2 ^ 149) :=
  roundsTo_fPack w (s := false) Nat.one_pos (by simp [signed]) rfl

/-- The overflow bound of `RoundsTo` is 2^128 - 2^103 for an integer. -/
theorem f32_below_bound {n : Nat} (h : n < 2 ^ 128 - 2 ^ 103) :
    |(n * 2 ^ 149 : Int)| < (2 ^ 25 - 1) * 2 ^ 252 * |1| := by
  rw [abs_of_nonneg (by positivity), abs_one]
  omega

theorem f32Int_ofNat (n : Nat) : f32Int n = f32 n := by
  rw [f32Int, f32, Int.natAbs_natCast, decide_eq_false (by omega)]

theorem fneg_fPack (sg : Bool) {m : Nat} (h : m < 2 ^ 31) : fneg (fPack sg m) = fPack (!sg) m :=
  word_ext_fields (by rw [fSign_fneg, fSign_fPack _ h, fSign_fPack _ h])
    (by rw [fMagBits_fneg, fMagBits_fPack _ h, fMagBits_fPack _ h])

theorem f32Int_neg {n : Nat} (h : 0 < n) : f32Int (-n) = fneg (f32 n) := by
  have hlt := roundMag_le (n * 2 ^ 149) 1
  rw [f32Int, f32, Int.natAbs_neg, Int.natAbs_natCast, decide_eq_true (by omega), fneg_fPack _ (by omega),
    Bool.not_false]

/-- ceil_nat is the least natural number not below a finite x that is not below 0. -/
theorem ceilNat_least {x : Word} (h : 0 ≤ fVal x) :
    fVal x ≤ ceilNat x * 2 ^ 149 ∧ ∀ m : Nat, fVal x ≤ m * 2 ^ 149 → ceilNat x ≤ m := by
  rw [fVal_eq_signed] at h ⊢
  rw [signed_nonneg_eq h, ceilNat]
  constructor
  · omega
  · intro m hm; omega

/-! ## Comparisons (00_scope.md R17) -/

/-- The value of a word that is no NaN, in units of 2^-149: an infinity stands beyond every finite value. -/
def extendedValue (x : Word) : Int :=
  if isInf x = true then (if fSign x then -(2 ^ 128 * 2 ^ 149) else 2 ^ 128 * 2 ^ 149) else fVal x

theorem extendedValue_eq_signed (x : Word) : extendedValue x = signed (fSign x) (magOf (fMagBits x)) := by
  unfold extendedValue
  split
  next h => rw [(isInf_iff_eq x).1 h, magOf_inf]; rfl
  next => rw [fVal_eq_signed, fMag_eq_magOf]

theorem extendedValue_lt_iff (x y : Word) : extendedValue x < extendedValue y ↔ fKey x < fKey y := by
  rw [extendedValue_eq_signed, extendedValue_eq_signed, signed_lt_signed_iff magOf_strictMono magOf_zero,
    fKey_eq_signed, fKey_eq_signed]

theorem flt_iff_value {x y : Word} (hx : isNaN x = false) (hy : isNaN y = false) :
    flt x y = true ↔ extendedValue x < extendedValue y := by
  simp [flt, hx, hy, extendedValue_lt_iff]

theorem fle_iff_value {x y : Word} (hx : isNaN x = false) (hy : isNaN y = false) :
    fle x y = true ↔ extendedValue x ≤ extendedValue y := by
  rw [← not_lt, extendedValue_lt_iff, not_lt]
  simp [fle, hx, hy]

theorem flt_fle_nan {x y : Word} (h : isNaN x = true ∨ isNaN y = true) : flt x y = false ∧ fle x y = false := by
  rcases h with h | h <;> simp [flt, fle, h]

theorem abs_fVal_lt {x : Word} (h : isFinite x = true) : |fVal x| < 2 ^ 128 * 2 ^ 149 := by
  have hlt := magOf_strictMono ((isFinite_iff_lt x).1 h)
  rw [magOf_inf] at hlt
  rw [fVal_eq_signed, abs_signed, fMag_eq_magOf]
  exact_mod_cast hlt

/-- Settles O28: each clause by the lemma of its conversion, rounding by `roundsTo_fPack`, the order of values by
`extendedValue_lt_iff`. -/
theorem conversionsAndComparisons : Obligations.ConversionsAndComparisons := by
  unfold Obligations.ConversionsAndComparisons
  dsimp only
  refine ⟨fun x => ⟨isNaN_iff_fields x, isInf_iff_fields x, isFinite_iff_field x, isZero_iff_fields x, ?_⟩,
    ⟨rfl, fsum_append⟩, fun n => f32_exact, fun n w h => ?_, fun n => ⟨f32Int_ofNat n, f32Int_neg⟩,
    fun x _ => ceilNat_least, fun x y => flt_fle_nan, fun x => abs_fVal_lt,
    fun x y hx hy => ⟨flt_iff_value hx hy, fle_iff_value hx hy⟩⟩
  · exact signed_eq_mul (fSign x) (fMag x)
  · obtain ⟨hsign, hround⟩ := f32_roundsTo n w
    rw [if_pos (f32_below_bound h)] at hround
    obtain ⟨hfin, hnear⟩ := hround
    exact ⟨hfin, hsign, by simpa only [mul_one] using hnear⟩

/-! ## The numeric functions (00_scope.md R20) -/

theorem oddExtension_odd (raw : Word → Word) {x : Word} (h : isNaN (oddExtension raw x) = false) :
    oddExtension raw (fneg x) = fneg (oddExtension raw x) := by
  rw [oddExtension_fneg, h, if_neg Bool.false_ne_true]

/-- Settles O29: the zeros, oddness and NaN of `oddExtension` for F_SIN and F_TANH, and the laws of F_COS and F_EXP. -/
theorem numericFunctionProperties : Obligations.NumericFunctionProperties := by
  unfold Obligations.NumericFunctionProperties
  intro x
  have hpos : isZero 0x00000000#32 = true := by decide
  have hneg : isZero 0x80000000#32 = true := by decide
  exact ⟨oddExtension_zero _ hpos, fCos_zero hpos, fCos_zero hneg, oddExtension_zero _ hpos, oddExtension_zero _ hneg,
    oddExtension_odd _, fCos_fneg x, oddExtension_odd _, fExp_pos,
    fun h => ⟨oddExtension_nan _ h, fCos_nan h, fExp_nan h, oddExtension_nan _ h⟩⟩

end Sys2Proof.Machine
end

section
/-! SUPPORT. The host port at the offsets of the CSR map, the result of a step by its cause, and what each command and each
CSR write leaves unchanged, one group of registers at a time (10_state.md R33 to R65). -/

namespace Sys2Proof.Machine

/-! ## The CSR map -/

theorem csrTable_target : ∀ p ∈ csrTable, target (BitVec.ofNat 32 p.1) 4 = .csr p.2 := by decide

/-- No register is listed twice. -/
theorem csrTable_injective : ∀ p ∈ csrTable, ∀ q ∈ csrTable, p.2 = q.2 → p.1 = q.1 := by decide +kernel

theorem csrAt_injective {a b : Nat} {r : Csr} (ha : csrAt a = some r) (hb : csrAt b = some r) : a = b :=
  csrTable_injective _ (csrAt_mem ha) _ (csrAt_mem hb) rfl

/-- The address of an access that reached a register, from the offset the map lists it at. -/
theorem addr_of_csrAt {addr : BitVec 32} {off : Nat} {r : Csr} (ha : csrAt addr.toNat = some r) (ho : csrAt off = some r) :
    addr = BitVec.ofNat 32 off := by
  rw [← csrAt_injective ha ho, BitVec.ofNat_toNat, BitVec.setWidth_eq]

theorem target_of_csrAt {off : Nat} {r : Csr} (h : csrAt off = some r) : target (BitVec.ofNat 32 off) 4 = .csr r :=
  csrTable_target _ (csrAt_mem h)

theorem hostRead_of_csrAt {off : Nat} {r : Csr} (s : State) (h : csrAt off = some r) :
    hostRead s (BitVec.ofNat 32 off) 4 = { s with rdata := csrRead s r } := by
  rw [hostRead, target_of_csrAt h]

theorem hostWrite_of_csrAt {off : Nat} {r : Csr} (s : State) (v : Word) (h : csrAt off = some r) :
    hostWrite s (BitVec.ofNat 32 off) 4 v = csrWrite s r v := by
  rw [hostWrite, target_of_csrAt h]

/-! ## The result of a CSR write -/

/-- The six TUN registers (10_state.md R60, R61). -/
def tunCsrs : List Csr := [.tunMaster, .tunLfe, .tunBase, .tunRevDelay, .tunRevDecay, .tunEnables]

/-- What a write of `v` to a register leaves, by access type (10_state.md R34). -/
inductive CsrWriteResult (s : State) (v : Word) : Csr → State → Prop
  | accepted (idle : s.eng = .idle) : CsrWriteResult s v .cmd { s with argl := s.args, cmd := v, eng := .pending v }
  | overflow : CsrWriteResult s v .cmd { s with irqPend := s.irqPend ||| pendCmdOvf }
  | cleared : CsrWriteResult s v .irqPend { s with irqPend := s.irqPend &&& ~~~(v.truncate 6) }
  | irqEn (bits : BitVec 6) : CsrWriteResult s v .irqEn { s with irqEn := bits }
  | arg (i : Fin 8) : CsrWriteResult s v (.arg i) { s with args := s.args.set i v }
  | device (r : Csr) (devFs devBlock ringMult : Word) (layout : Layout) (stopped : s.runState = .stopped) :
      CsrWriteResult s v r { s with devFs := devFs, devBlock := devBlock, ringMult := ringMult, layout := layout }
  | tun (r : Csr) (tun : Tunables) (isTun : r ∈ tunCsrs) : CsrWriteResult s v r { s with tun := tun, changed := true }
  | settings (bit0 : v.getLsbD 0 = true) : CsrWriteResult s v .settings { s with changed := true }
  | ignored (r : Csr) : CsrWriteResult s v r s

theorem csrWrite_result (s : State) (r : Csr) (v : Word) : CsrWriteResult s v r (csrWrite s r v) := by
  cases r
  case cmd =>
    simp only [csrWrite, writeCmd]
    split
    next hidle => exact .accepted hidle
    next => exact .overflow
  case irqPend => exact .cleared
  case irqEn => exact .irqEn _
  case arg i => exact .arg i
  case devFs =>
    simp only [csrWrite]
    split
    next hstop => exact .device _ v s.devBlock s.ringMult s.layout hstop
    next => exact .ignored _
  case devChannels =>
    simp only [csrWrite, writeDevChannels]
    split
    next hstop =>
      split
      next l _ => exact .device _ s.devFs s.devBlock s.ringMult l hstop
      next => exact .ignored _
    next => exact .ignored _
  case devBlock =>
    simp only [csrWrite]
    split
    next hstop => exact .device _ s.devFs v s.ringMult s.layout hstop
    next => exact .ignored _
  case ringMult =>
    simp only [csrWrite]
    split
    next hstop => exact .device _ s.devFs s.devBlock v s.layout hstop
    next => exact .ignored _
  case tunMaster => exact .tun _ _ (by decide)
  case tunLfe => exact .tun _ _ (by decide)
  case tunBase => exact .tun _ _ (by decide)
  case tunRevDelay => exact .tun _ _ (by decide)
  case tunRevDecay => exact .tun _ _ (by decide)
  case tunEnables => exact .tun _ _ (by decide)
  case settings =>
    simp only [csrWrite]
    split
    next hbit => exact .settings hbit
    next => exact .ignored _
  all_goals exact .ignored _

/-- A drain request changes the ring, its two cursors and level, the counters and its own output, and only sets bits of
IRQ_PEND (43_ring.md R257 to R260). -/
theorem drainRequest_only (s : State) (n : Nat) :
    ∃ ring rd wr level bits drains xruns ws,
      drainRequest s n =
        { s with ring := ring, ringRd := rd, ringWr := wr, ringLevel := level, irqPend := s.irqPend ||| bits,
                 drainCount := drains, xrunCount := xruns, drainData := ws } := by
  have hor : s.irqPend = s.irqPend ||| 0#6 := by simp
  rcases drainRequest_cases s n with ⟨-, h⟩ | ⟨-, -, -, h⟩ | ⟨-, -, h⟩
  · exact ⟨_, _, _, _, 0#6, _, _, _, by rw [h, ← hor]⟩
  · rcases normalDrain_cases s n with ⟨-, hn⟩ | ⟨-, hn⟩ <;> rw [h, hn]
    · exact ⟨_, _, _, _, _, _, _, _, rfl⟩
    · exact ⟨_, _, _, _, pendXrun ||| pendDrain, _, _, _, by rw [BitVec.or_assoc]⟩
  · exact ⟨_, _, _, _, _, _, _, _, h⟩

/-! ## The result of a step -/

@[simp] theorem popEvent_eng (s : State) : s.popEvent.eng = s.eng := rfl
@[simp] theorem popEvent_argl (s : State) : s.popEvent.argl = s.argl := rfl
@[simp] theorem popEvent_cmd (s : State) : s.popEvent.cmd = s.cmd := rfl
@[simp] theorem popEvent_err (s : State) : s.popEvent.err = s.err := rfl
@[simp] theorem popEvent_runState (s : State) : s.popEvent.runState = s.runState := rfl
@[simp] theorem popEvent_irqPend (s : State) : s.popEvent.irqPend = s.irqPend := rfl
@[simp] theorem popEvent_irqEn (s : State) : s.popEvent.irqEn = s.irqEn := rfl
@[simp] theorem popEvent_result0 (s : State) : s.popEvent.result0 = s.result0 := rfl
@[simp] theorem popEvent_result1 (s : State) : s.popEvent.result1 = s.result1 := rfl
@[simp] theorem popEvent_args (s : State) : s.popEvent.args = s.args := rfl
@[simp] theorem popEvent_devFs (s : State) : s.popEvent.devFs = s.devFs := rfl
@[simp] theorem popEvent_layout (s : State) : s.popEvent.layout = s.layout := rfl
@[simp] theorem popEvent_devBlock (s : State) : s.popEvent.devBlock = s.devBlock := rfl
@[simp] theorem popEvent_ringMult (s : State) : s.popEvent.ringMult = s.ringMult := rfl
@[simp] theorem popEvent_ringCap (s : State) : s.popEvent.ringCap = s.ringCap := rfl
@[simp] theorem popEvent_ringRd (s : State) : s.popEvent.ringRd = s.ringRd := rfl
@[simp] theorem popEvent_ringWr (s : State) : s.popEvent.ringWr = s.ringWr := rfl
@[simp] theorem popEvent_ringLevel (s : State) : s.popEvent.ringLevel = s.ringLevel := rfl
@[simp] theorem popEvent_drainCount (s : State) : s.popEvent.drainCount = s.drainCount := rfl
@[simp] theorem popEvent_xrunCount (s : State) : s.popEvent.xrunCount = s.xrunCount := rfl
@[simp] theorem popEvent_tun (s : State) : s.popEvent.tun = s.tun := rfl
@[simp] theorem popEvent_changed (s : State) : s.popEvent.changed = s.changed := rfl
@[simp] theorem popEvent_act (s : State) : s.popEvent.act = s.act := rfl
@[simp] theorem popEvent_revLen (s : State) : s.popEvent.revLen = s.revLen := rfl
@[simp] theorem popEvent_revCur (s : State) : s.popEvent.revCur = s.revCur := rfl
@[simp] theorem popEvent_dmem (s : State) : s.popEvent.dmem = s.dmem := rfl
@[simp] theorem popEvent_ring (s : State) : s.popEvent.ring = s.ring := rfl
@[simp] theorem popEvent_rev (s : State) : s.popEvent.rev = s.rev := rfl
@[simp] theorem popEvent_rdata (s : State) : s.popEvent.rdata = s.rdata := rfl
@[simp] theorem popEvent_drainData (s : State) : s.popEvent.drainData = s.drainData := rfl
@[simp] theorem popEvent_resets (s : State) : s.popEvent.resets = s.resets := rfl

/-- What a step leaves, by its cause: a turn of the engine or the next event. -/
inductive StepResult (s : State) : State → Prop
  | idle (turn : EngineTurn s) (idle : s.eng = .idle) : StepResult s s.popEvent
  | refused (completes : Completes s) (e : ErrCode) : StepResult s (raiseError s.popEvent e)
  | executed (i : Instr) (executes : Executes s i) (passes : checkOf i s.popEvent = none) :
      StepResult s (completeOk (effectOf i s.popEvent).state (effectOf i s.popEvent).r0 (effectOf i s.popEvent).r1)
  | reset (event : NextEvent s .reset) : StepResult s (applyReset s.popEvent)
  | read (bits : BitVec 6) (w : Word) : StepResult s { s.popEvent with irqPend := s.irqPend ||| bits, rdata := w }
  | writeError : StepResult s { s.popEvent with irqPend := s.irqPend ||| pendBusErr }
  | writeReserved : StepResult s s.popEvent
  | writeCsr (addr : BitVec 32) (v : Word) (r : Csr) (t : State) (event : NextEvent s (.write addr 4 v))
      (listed : csrAt addr.toNat = some r) (result : CsrWriteResult s.popEvent v r t) : StepResult s t
  | writeDmem (addr : BitVec 32) (size a : Nat) (v : Word) (event : NextEvent s (.write addr size v))
      (inside : a < Config.dmemWords) (idle : s.eng = .idle) : StepResult s (s.popEvent.dWrite a v)
  | drain (n : Nat) (event : NextEvent s (.drain n)) : StepResult s (drainRequest s.popEvent n)

/-- A turn of the engine, by what the pending word decodes to (60_exceptions.md R270). -/
theorem StepResult.of_engineStep {s t : State} (turn : EngineTurn s) (h : engineStep s.popEvent = .next t) :
    StepResult s t := by
  rcases engineStep_cases h with ⟨hidle, rfl⟩ | ⟨cw, e, hcw, -, rfl⟩ | ⟨cw, i, hcw, hd, hexec⟩
  · exact .idle turn hidle
  · rw [popEvent_eng] at hcw
    exact .refused ⟨turn, by simp [hcw]⟩ _
  · rw [popEvent_eng] at hcw
    rcases exec_cases hexec with ⟨e, -, rfl⟩ | ⟨hpass, rfl⟩
    · exact .refused ⟨turn, by simp [hcw]⟩ e
    · exact .executed i ⟨turn, cw, hcw, hd⟩ hpass

theorem StepResult.of_hostRead (s : State) (addr : BitVec 32) (size : Nat) :
    StepResult s (hostRead s.popEvent addr size) := by
  rcases hostRead_cases s.popEvent addr size with ⟨-, h⟩ | ⟨-, w, h⟩ <;> rw [h]
  · exact .read pendBusErr 0#32
  · simpa [State.popEvent] using StepResult.read (s := s) 0#6 w

theorem StepResult.of_hostWrite {s : State} {addr : BitVec 32} {size : Nat} {v : Word}
    (event : NextEvent s (.write addr size v)) : StepResult s (hostWrite s.popEvent addr size v) := by
  rcases hostWrite_cases s.popEvent addr size v with
    ⟨-, h⟩ | ⟨-, ⟨r, rfl, hr, h⟩ | ⟨-, h⟩ | ⟨a, ha, hidle, h⟩⟩ <;> rw [h]
  · exact .writeError
  · exact .writeCsr addr v r _ event hr (csrWrite_result _ r v)
  · exact .writeReserved
  · exact .writeDmem addr size a v event ha hidle

theorem step_result {s t : State} (h : step s = .next t) : StepResult s t := by
  rcases step_cases h with ⟨turn, he⟩ | ⟨event, rfl⟩ | ⟨addr, size, -, rfl⟩ | ⟨addr, size, v, event, rfl⟩ | ⟨n, event, rfl⟩
  · exact .of_engineStep turn he
  · exact .reset event
  · exact .of_hostRead s addr size
  · exact .of_hostWrite event
  · exact .drain n event

/-! ## What a command leaves unchanged -/

/-- Four commands change more than DMEM. -/
theorem isDmemCommand_or (i : Instr) :
    isDmemCommand i = true ∨ i = .mix ∨ i = .start ∨ i = .stop ∨ i = .ringPush := by
  cases i <;> simp [isDmemCommand]

theorem ringUnchanged_of_dmemOnly {s t : State} (h : DmemOnly s t) : RingUnchanged s t := by
  obtain ⟨d, rfl⟩ := h; exact ⟨rfl, rfl, rfl, rfl, rfl, rfl⟩

theorem settingsUnchanged_of_dmemOnly {s t : State} (h : DmemOnly s t) : SettingsUnchanged s t := by
  obtain ⟨d, rfl⟩ := h; exact ⟨rfl, rfl⟩

theorem reverbUnchanged_of_dmemOnly {s t : State} (h : DmemOnly s t) : ReverbUnchanged s t := by
  obtain ⟨d, rfl⟩ := h; exact ⟨rfl, rfl, rfl⟩

theorem mixEffect_ringUnchanged (s : State) : RingUnchanged s (mixEffect s).state := by
  obtain ⟨d, r, c, l, a, ch, e⟩ := mixEffect_only s
  rw [e]; exact ⟨rfl, rfl, rfl, rfl, rfl, rfl⟩

/-- Only START, STOP and RING_PUSH change the ring. -/
theorem effect_ring (i : Instr) (s : State) :
    i = .start ∨ i = .stop ∨ i = .ringPush ∨ RingUnchanged s (effectOf i s).state := by
  rcases isDmemCommand_or i with hd | rfl | rfl | rfl | rfl
  · exact .inr (.inr (.inr (ringUnchanged_of_dmemOnly (effect_dmemOnly s hd))))
  · exact .inr (.inr (.inr (mixEffect_ringUnchanged s)))
  · exact .inl rfl
  · exact .inr (.inl rfl)
  · exact .inr (.inr (.inl rfl))

/-- RING_PUSH leaves the coordinator, the capacity and the read cursor. -/
theorem effect_coordinator (i : Instr) (s : State) :
    i = .start ∨ i = .stop ∨
      (effectOf i s).state.runState = s.runState ∧ (effectOf i s).state.ringCap = s.ringCap ∧
        (effectOf i s).state.ringRd = s.ringRd := by
  rcases effect_ring i s with h | h | rfl | ⟨hrun, hcap, hrd, -, -, -⟩
  · exact .inl h
  · exact .inr (.inl h)
  · exact .inr (.inr ⟨rfl, rfl, rfl⟩)
  · exact .inr (.inr ⟨hrun, hcap, hrd⟩)

theorem stopEffect_unchanged (s : State) :
    SettingsUnchanged s (stopEffect s).state ∧ ReverbUnchanged s (stopEffect s).state ∧
      (stopEffect s).state.dmem = s.dmem := by
  by_cases h : s.runState = .stopped
  · rw [stopEffect_stopped h]; exact ⟨⟨rfl, rfl⟩, ⟨rfl, rfl, rfl⟩, rfl⟩
  · rw [stopEffect_running h]; exact ⟨⟨rfl, rfl⟩, ⟨rfl, rfl, rfl⟩, rfl⟩

/-- Only MIX changes the active settings. -/
theorem effect_settings (i : Instr) (s : State) : i = .mix ∨ SettingsUnchanged s (effectOf i s).state := by
  rcases isDmemCommand_or i with hd | rfl | rfl | rfl | rfl
  · exact .inr (settingsUnchanged_of_dmemOnly (effect_dmemOnly s hd))
  · exact .inl rfl
  · exact .inr ⟨rfl, rfl⟩
  · exact .inr (stopEffect_unchanged s).1
  · exact .inr ⟨rfl, rfl⟩

/-- MIX leaves SETTINGS.CHANGED clear (42_spatial.md R215). -/
theorem mixEffect_changed (s : State) : (mixEffect s).state.changed = false := by
  obtain ⟨d, r, c, hframes⟩ : FrameOnly (mixStages s) (mixEffect s).state := frames_only _ _ _ _
  obtain ⟨d', hstages⟩ := mixStages_only s
  rw [hframes, hstages]
  exact snapshot_changed s

/-- No command sets SETTINGS.CHANGED. -/
theorem effect_changed {i : Instr} {s : State} (h : (effectOf i s).state.changed = true) : s.changed = true := by
  rcases effect_settings i s with rfl | ⟨-, hchanged⟩
  · rw [show (effectOf .mix s).state = (mixEffect s).state from rfl, mixEffect_changed] at h
    cases h
  · rwa [← hchanged]

/-- Only MIX and START change the reverb. -/
theorem effect_reverb (i : Instr) (s : State) :
    i = .mix ∨ i = .start ∨ ReverbUnchanged s (effectOf i s).state := by
  rcases isDmemCommand_or i with hd | rfl | rfl | rfl | rfl
  · exact .inr (.inr (reverbUnchanged_of_dmemOnly (effect_dmemOnly s hd)))
  · exact .inl rfl
  · exact .inr (.inl rfl)
  · exact .inr (.inr (stopEffect_unchanged s).2.1)
  · exact .inr (.inr ⟨rfl, rfl, rfl⟩)

/-- The commands that can change DMEM. -/
theorem effect_dmem (i : Instr) (s : State) :
    i ∈ [.fft, .ifft, .firDesign, .firDesignHp, .olaInit, .olaInitWin, .olaApply, .panTable, .mix] ∨
      (effectOf i s).state.dmem = s.dmem := by
  cases i
  case nop => exact .inr rfl
  case panGain => exact .inr rfl
  case start => exact .inr rfl
  case stop => exact .inr (stopEffect_unchanged s).2.2
  case ringPush => exact .inr rfl
  all_goals exact .inl (by decide)

end Sys2Proof.Machine
end

section
/-! SUPPORT. The invariant of the states between steps (10_state.md R45, R47, R65, R72): its parts, and each kept by every
step. -/

namespace Sys2Proof.Machine

/-! ## The parts of the invariant -/

/-- The coordinator's part: an empty stopped ring, or a running ring by the ring rules (10_state.md R47, R72). -/
def CoordInv (s : State) : Prop :=
  (s.runState = .stopped ∧ s.ring.wf Config.ringWords = true ∧ s.ringCap = 0 ∧ s.ringRd = 0 ∧ s.ringWr = 0 ∧
    s.ringLevel = 0) ∨
  (s.runState = .running ∧ RingInv s.ring s.ringCap s.ringRd s.ringWr s.ringLevel)

/-- CMD is the word of a pending command (10_state.md R45). -/
def CmdHeld (s : State) : Prop := ∀ cw, s.eng = .pending cw → s.cmd = cw

theorem inv_iff (s : State) :
    Inv s ↔ s.dmem.wf Config.dmemWords = true ∧ CoordInv s ∧ ReverbInv s ∧ CmdHeld s := by
  constructor
  · intro h
    refine ⟨h.dmemCanonical, ?_, ⟨h.revCanonical, h.revLenBound, h.revCurBound, h.revZeroed⟩, h.cmdHeld⟩
    rcases h.visible with hs | hr
    · exact .inl ⟨hs, h.ringCanonical, h.stoppedEmpty hs⟩
    · obtain ⟨hpos, hle⟩ := h.capBound hr
      exact .inr ⟨hr, h.ringCanonical, hpos, hle, h.readCursor hr, h.levelBound hr, h.writeCursor hr, h.freeSpaceZero hr,
        h.beyondZero hr⟩
  · rintro ⟨hd, hc, hv, hcmd⟩
    have hring : s.ring.wf Config.ringWords = true := by
      rcases hc with ⟨-, hw, -⟩ | ⟨-, hr⟩
      · exact hw
      · exact hr.canonical
    have hstopped : s.runState = .stopped → s.ringCap = 0 ∧ s.ringRd = 0 ∧ s.ringWr = 0 ∧ s.ringLevel = 0 := by
      intro hs
      rcases hc with ⟨-, -, hempty⟩ | ⟨hr, -⟩
      · exact hempty
      · rw [hs] at hr; cases hr
    have hrunning : s.runState = .running → RingInv s.ring s.ringCap s.ringRd s.ringWr s.ringLevel := by
      intro hr
      rcases hc with ⟨hs, -⟩ | ⟨-, hi⟩
      · rw [hr] at hs; cases hs
      · exact hi
    exact
      { dmemCanonical := hd, ringCanonical := hring, revCanonical := hv.wf
        visible := hc.imp And.left And.left
        stoppedEmpty := hstopped
        capBound := fun hr => ⟨(hrunning hr).capPos, (hrunning hr).capLe⟩
        readCursor := fun hr => (hrunning hr).readCursor
        levelBound := fun hr => (hrunning hr).levelLe
        writeCursor := fun hr => (hrunning hr).write
        freeSpaceZero := fun hr => (hrunning hr).free
        beyondZero := fun hr => (hrunning hr).beyond
        revLenBound := hv.lenBound, revCurBound := hv.curBound, revZeroed := hv.zeroed, cmdHeld := hcmd }

theorem CoordInv.of_unchanged {s t : State} (h : CoordInv s) (hu : RingUnchanged s t) : CoordInv t := by
  obtain ⟨hrun, hcap, hrd, hwr, hlevel, hring⟩ := hu
  unfold CoordInv
  rw [hrun, hcap, hrd, hwr, hlevel, hring]
  exact h

theorem CoordInv.running {s : State} (h : CoordInv s) (hr : s.runState = .running) :
    RingInv s.ring s.ringCap s.ringRd s.ringWr s.ringLevel := by
  rcases h with ⟨hs, -⟩ | ⟨-, hi⟩
  · rw [hr] at hs; cases hs
  · exact hi

theorem ReverbInv.of_unchanged {s t : State} (h : ReverbInv s) (hu : ReverbUnchanged s t) : ReverbInv t := by
  obtain ⟨hlen, hcur, hrev⟩ := hu
  exact ⟨by rw [hrev]; exact h.wf, by rw [hlen]; exact h.lenBound, by rw [hcur, hlen]; exact h.curBound,
    by rw [hlen, hrev]; exact h.zeroed⟩

/-! ## Commands -/

theorem startEffect_coordInv {s : State} (h : checkStart s = none) : CoordInv (startEffect s).state := by
  obtain ⟨-, hpos, hle⟩ := checkStart_none h
  exact .inr ⟨rfl, RingInv.empty hpos hle⟩

theorem stopEffect_coordInv {s : State} (h : CoordInv s) : CoordInv (stopEffect s).state := by
  by_cases hs : s.runState = .stopped
  · rw [stopEffect_stopped hs]; exact h
  · rw [stopEffect_running hs]; exact .inl ⟨rfl, rfl, rfl, rfl, rfl, rfl⟩

theorem ringPushEffect_coordInv {s : State} (hc : checkRingPush s = none) (h : CoordInv s) :
    CoordInv (ringPushEffect s).state := by
  obtain ⟨hrun, -, hroom⟩ := checkRingPush_none hc
  have hlen := Ram.readWords_length s.dmem (argU32 s 0) (argU32 s 1)
  have hpush := (h.running hrun).push (ws := s.dmem.readWords (argU32 s 0) (argU32 s 1)) (by rw [hlen]; exact hroom)
  rw [hlen] at hpush
  exact .inr ⟨hrun, hpush⟩

/-- A command that passes its checks keeps the ring rules. -/
theorem effect_coordInv {i : Instr} {s : State} (hc : checkOf i s = none) (h : CoordInv s) :
    CoordInv (effectOf i s).state := by
  rcases effect_ring i s with rfl | rfl | rfl | hu
  · exact startEffect_coordInv hc
  · exact stopEffect_coordInv h
  · exact ringPushEffect_coordInv hc h
  · exact h.of_unchanged hu

/-- A command that passes its checks keeps the reverb bounds. -/
theorem effect_reverbInv {i : Instr} {s : State} (hc : checkOf i s = none) (h : ReverbInv s) :
    ReverbInv (effectOf i s).state := by
  rcases effect_reverb i s with rfl | rfl | hu
  · exact mixEffect_reverbInv hc h
  · have hrebuilt := reverbRebuild_inv s
    exact ⟨hrebuilt.wf, hrebuilt.lenBound, hrebuilt.curBound, hrebuilt.zeroed⟩
  · exact h.of_unchanged hu

/-! ## Drain requests -/

theorem drainRequest_coordInv {s : State} (n : Nat) (h : CoordInv s) : CoordInv (drainRequest s n) := by
  rcases drainRequest_cases s n with ⟨-, e⟩ | ⟨hrun, -, hcap, e⟩ | ⟨-, -, e⟩
  · rw [e]; exact h
  · rw [e]
    rcases normalDrain_cases s n with ⟨hlevel, hn⟩ | ⟨hunder, hn⟩ <;> rw [hn]
    · exact .inr ⟨hrun, (h.running hrun).drain hlevel⟩
    · exact .inr ⟨hrun, (h.running hrun).underrun hcap hunder⟩
  · rw [e]; exact h

/-! ## Steps -/

theorem Inv.popEvent {s : State} (h : Inv s) : Inv s.popEvent := by
  obtain ⟨hd, hc, hv, hcmd⟩ := (inv_iff s).1 h
  exact (inv_iff _).2 ⟨hd, hc, ⟨hv.wf, hv.lenBound, hv.curBound, hv.zeroed⟩, hcmd⟩

/-- Where a step leaves DMEM, the ring and the reverb alone, it keeps the invariant if CMD is held. -/
theorem Inv.of_unchanged {s t : State} (h : Inv s) (hcmd : CmdHeld t) (hd : t.dmem = s.dmem := by rfl)
    (hc : RingUnchanged s t := by exact ⟨rfl, rfl, rfl, rfl, rfl, rfl⟩)
    (hv : ReverbUnchanged s t := by exact ⟨rfl, rfl, rfl⟩) : Inv t := by
  obtain ⟨hdmem, hcoord, hrev, -⟩ := (inv_iff s).1 h
  exact (inv_iff t).2 ⟨by rw [hd]; exact hdmem, hcoord.of_unchanged hc, hrev.of_unchanged hv, hcmd⟩

/-- An idle engine holds no command word. -/
theorem cmdHeld_of_idle {s : State} (h : s.eng = .idle) : CmdHeld s := by
  intro cw hcw; rw [h] at hcw; cases hcw

theorem Inv.raiseError {s : State} (h : Inv s) (e : ErrCode) : Inv (raiseError s e) :=
  h.of_unchanged (cmdHeld_of_idle rfl)

theorem Inv.completeOk_effect {i : Instr} {s : State} (hc : checkOf i s = none) (h : Inv s) (r0 r1 : Word) :
    Inv (completeOk (effectOf i s).state r0 r1) := by
  obtain ⟨hdmem, hcoord, hrev, -⟩ := (inv_iff s).1 h
  exact (inv_iff _).2 ⟨effect_dmem_wf hc hdmem,
    (effect_coordInv hc hcoord).of_unchanged ⟨rfl, rfl, rfl, rfl, rfl, rfl⟩,
    (effect_reverbInv hc hrev).of_unchanged ⟨rfl, rfl, rfl⟩, cmdHeld_of_idle rfl⟩

theorem inv_applyReset (s : State) : Inv (applyReset s) :=
  (inv_iff _).2 ⟨rfl, .inl ⟨rfl, rfl, rfl, rfl, rfl, rfl⟩,
    ⟨rfl, Nat.zero_le _, Nat.one_pos, fun h => absurd h (Nat.lt_irrefl 0)⟩, cmdHeld_of_idle rfl⟩

theorem CsrWriteResult.inv {s t : State} {v : Word} {r : Csr} (w : CsrWriteResult s v r t) (h : Inv s) : Inv t := by
  cases w
  case accepted =>
    exact h.of_unchanged fun cw hcw => by cases hcw; rfl
  all_goals exact h.of_unchanged h.cmdHeld

theorem Inv.dWrite {s : State} (h : Inv s) {a : Nat} (ha : a < Config.dmemWords) (v : Word) : Inv (s.dWrite a v) := by
  obtain ⟨hdmem, hcoord, hrev, hcmd⟩ := (inv_iff s).1 h
  exact (inv_iff _).2 ⟨Ram.wf_write a v hdmem ha, hcoord.of_unchanged ⟨rfl, rfl, rfl, rfl, rfl, rfl⟩,
    hrev.of_unchanged ⟨rfl, rfl, rfl⟩, hcmd⟩

theorem Inv.drainRequest {s : State} (h : Inv s) (n : Nat) : Inv (drainRequest s n) := by
  obtain ⟨hdmem, hcoord, hrev, hcmd⟩ := (inv_iff s).1 h
  have hcoord' := drainRequest_coordInv n hcoord
  obtain ⟨ring, rd, wr, level, bits, drains, xruns, ws, e⟩ := drainRequest_only s n
  rw [e] at hcoord' ⊢
  exact (inv_iff _).2 ⟨hdmem, hcoord', hrev.of_unchanged ⟨rfl, rfl, rfl⟩, hcmd⟩

/-- Settles O59: the parts of the invariant one by one, by what each cause of a step leaves. -/
theorem stepKeepsInv : Obligations.StepKeepsInv := by
  unfold Obligations.StepKeepsInv
  intro s t h hstep
  have hp := h.popEvent
  cases step_result hstep with
  | idle => exact hp
  | refused _ e => exact hp.raiseError e
  | executed i _ passes => exact hp.completeOk_effect passes _ _
  | reset => exact inv_applyReset _
  | read => exact hp.of_unchanged hp.cmdHeld
  | writeError => exact hp.of_unchanged hp.cmdHeld
  | writeReserved => exact hp
  | writeCsr _ _ _ _ _ _ result => exact result.inv hp
  | writeDmem _ _ _ v _ inside _ => exact hp.dWrite inside v
  | drain n => exact hp.drainRequest n

end Sys2Proof.Machine
end

section
/-! SUPPORT. Which steps set and clear the bits of IRQ_PEND, and which change each group of registers (10_state.md R42 to
R65). -/

namespace Sys2Proof.Machine

/-! ## IRQ_PEND (10_state.md R49) -/

/-- Setting bits keeps the set ones. -/
theorem getLsbD_or_of_left {n : Nat} {x : BitVec n} (y : BitVec n) {k : Nat} (h : x.getLsbD k = true) :
    (x ||| y).getLsbD k = true := by simp [h]

/-- A completion of a passed command only sets bits of IRQ_PEND. -/
theorem completeOk_effect_irqPend (i : Instr) (s : State) (r0 r1 : Word) :
    ∃ bits, (completeOk (effectOf i s).state r0 r1).irqPend = s.irqPend ||| bits := by
  show ∃ bits, (effectOf i s).state.irqPend ||| pendDone = _
  rw [effect_irqPend]
  split
  · exact ⟨pendDrain ||| pendDone, BitVec.or_assoc _ _ _⟩
  · exact ⟨pendDone, rfl⟩

/-- A CSR write clears a bit of IRQ_PEND only where it writes 1 to it there (10_state.md R34). -/
theorem CsrWriteResult.irqPend_cleared {s t : State} {v : Word} {r : Csr} (w : CsrWriteResult s v r t) {k : Nat}
    (hs : s.irqPend.getLsbD k = true) (ht : t.irqPend.getLsbD k = false) : r = .irqPend ∧ v.getLsbD k = true := by
  cases w
  case cleared =>
    have hk : k < 6 := BitVec.lt_of_getLsbD hs
    refine ⟨rfl, ?_⟩
    simpa [hs, hk] using ht
  case overflow => rw [getLsbD_or_of_left _ hs] at ht; cases ht
  all_goals rw [show _ = s.irqPend from rfl, hs] at ht; cases ht

/-- In every step a set bit is cleared only by a reset or by a host write of 1 to it. -/
theorem step_irqPend_cleared {s t : State} (h : step s = .next t) {k : Nat} (hs : s.irqPend.getLsbD k = true)
    (ht : t.irqPend.getLsbD k = false) :
    NextEvent s .reset ∨ ∃ v, NextEvent s (.write 0x028#32 4 v) ∧ v.getLsbD k = true := by
  have kept : ∀ bits, t.irqPend ≠ s.irqPend ||| bits := by
    intro bits e
    rw [e, getLsbD_or_of_left _ hs] at ht
    cases ht
  have unchanged : t.irqPend ≠ s.irqPend := fun e => kept 0#6 (by simpa using e)
  cases step_result h with
  | idle => exact absurd rfl unchanged
  | refused => exact absurd rfl (kept _)
  | executed i =>
    obtain ⟨bits, hbits⟩ := completeOk_effect_irqPend i s.popEvent _ _
    exact absurd hbits (kept bits)
  | reset event => exact .inl event
  | read => exact absurd rfl (kept _)
  | writeError => exact absurd rfl (kept _)
  | writeReserved => exact absurd rfl unchanged
  | writeCsr addr v r t event listed result =>
    obtain ⟨rfl, hv⟩ := result.irqPend_cleared hs ht
    rw [addr_of_csrAt listed (off := 0x028) rfl] at event
    exact .inr ⟨v, event, hv⟩
  | writeDmem => exact absurd rfl unchanged
  | drain n =>
    obtain ⟨_, _, _, _, bits, _, _, _, e⟩ := drainRequest_only s.popEvent n
    exact absurd (by rw [e]; rfl) (kept bits)

/-- Settles O24: the steps by `step_irqPend_cleared`, the write-one-to-clear access bit by bit. -/
theorem pendingBitsSticky : Obligations.PendingBitsSticky := by
  unfold Obligations.PendingBitsSticky
  refine ⟨fun s t h k => step_irqPend_cleared h, fun s v => ?_⟩
  have hw : hostWrite s 0x028#32 4 v = s.clearPend (v.truncate 6) := hostWrite_of_csrAt (off := 0x028) s v rfl
  have hr : hostRead s 0x028#32 4 = { s with rdata := s.irqPend.zeroExtend 32 } :=
    hostRead_of_csrAt (off := 0x028) s rfl
  dsimp only
  rw [hw, hr]
  refine ⟨rfl, fun k hk => ?_, ?_⟩
  · simp [hk]
  · have := s.irqPend.isLt
    simp; omega

/-! ## Writers of the registers -/

theorem completes_of_executes {s : State} {i : Instr} (h : Executes s i) : Completes s := by
  obtain ⟨turn, cw, hcw, -⟩ := h
  exact ⟨turn, by simp [hcw]⟩

/-- An access that changes CHANGED from clear to set writes a TUN register, or SETTINGS with bit 0 set (10_state.md R62,
R63). -/
theorem CsrWriteResult.changed_set {s t : State} {v : Word} {r : Csr} (w : CsrWriteResult s v r t)
    (hs : s.changed = false) (ht : t.changed = true) : r ∈ tunCsrs ∨ r = .settings ∧ v.getLsbD 0 = true := by
  cases w
  case tun isTun => exact .inl isTun
  case settings bit0 => exact .inr ⟨rfl, bit0⟩
  all_goals exact absurd ht (by rw [show _ = s.changed from rfl, hs]; decide)

theorem tunCsrs_listed : ∀ r ∈ tunCsrs, ∃ off ∈ [0x0C0, 0x0C4, 0x0C8, 0x0CC, 0x0D0, 0x0D4], csrAt off = some r := by
  decide

/-- Settles O25: cause by cause of the step. -/
theorem registerWriters : Obligations.RegisterWriters := by
  unfold Obligations.RegisterWriters
  intro s t h hreset
  dsimp only
  cases step_result h with
  | idle => simp
  | read => simp
  | writeError => simp
  | writeReserved => simp
  | reset event => exact absurd event hreset
  | refused completes => simp [completes]
  | executed i executes =>
    have hhost := effect_hostSide i s.popEvent
    obtain ⟨hargs, hargl, hcmd, hirqEn, hfs, hlayout, hblock, hmult, htun, hdrains, hxruns, -⟩ := hhost
    refine ⟨?_, ?_, ?_, ?_, ?_, ?_, ?_, ?_, ?_, ?_, ?_, ?_⟩
    · rcases effect_coordinator i s.popEvent with rfl | rfl | ⟨hrun, hcap, -⟩
      · exact fun _ => .inl executes
      · exact fun _ => .inr executes
      · simp [hrun, hcap]
    · rcases effect_coordinator i s.popEvent with rfl | rfl | ⟨-, -, hrd⟩
      · exact fun _ => .inl executes
      · exact fun _ => .inr (.inl executes)
      · simp [hrd]
    · rcases effect_ring i s.popEvent with rfl | rfl | rfl | ⟨-, -, -, hwr, hlevel, hring⟩
      · exact fun _ => .inl executes
      · exact fun _ => .inr (.inl executes)
      · exact fun _ => .inr (.inr (.inl executes))
      · simp [hwr, hlevel, hring]
    · simp [hdrains, hxruns]
    · rcases effect_settings i s.popEvent with rfl | ⟨hact, hchanged⟩
      · exact fun _ => executes
      · simp +contextual [hact, hchanged]
    · rintro ⟨hclear, hset⟩
      have hset' : s.changed = true := effect_changed (s := s.popEvent) hset
      rw [hclear] at hset'
      cases hset'
    · rcases effect_reverb i s.popEvent with rfl | rfl | ⟨hlen, hcur, hrev⟩
      · exact fun _ => .inl executes
      · exact fun _ => .inr executes
      · simp [hlen, hcur, hrev]
    · exact fun _ => completes_of_executes executes
    · rcases effect_dmem i s.popEvent with hi | hdmem
      · exact fun _ => .inr ⟨i, hi, executes⟩
      · simp [hdmem]
    · simp [hargs, hirqEn, htun]
    · simp [hfs, hlayout, hblock, hmult]
    · simp [hcmd, hargl]
  | writeCsr addr v r t event listed result =>
    have hwrite : ∃ addr size v, NextEvent s (.write addr size v) := ⟨addr, 4, v, event⟩
    cases result
    case accepted idle =>
      have hcmd : ∃ v, NextEvent s (.write 0x020#32 4 v) :=
        ⟨v, by rwa [addr_of_csrAt listed (off := 0x020) rfl] at event⟩
      have hidle : s.eng = .idle := idle
      simp [hcmd, hidle]
    case device stopped =>
      have hstopped : s.runState = .stopped := stopped
      simp [hwrite, hstopped]
    case tun isTun =>
      obtain ⟨off, hoff, hr⟩ := tunCsrs_listed r isTun
      have htun : ∃ off ∈ [0x0C0, 0x0C4, 0x0C8, 0x0CC, 0x0D0, 0x0D4], ∃ v, NextEvent s (.write (BitVec.ofNat 32 off) 4 v) :=
        ⟨off, hoff, v, by rwa [addr_of_csrAt listed hr] at event⟩
      simp only [htun, hwrite]
      simp
    case settings bit0 =>
      have hsettings : ∃ v, NextEvent s (.write 0x0D8#32 4 v) ∧ v.getLsbD 0 = true :=
        ⟨v, by rwa [addr_of_csrAt listed (off := 0x0D8) rfl] at event, bit0⟩
      simp only [hsettings]
      simp
    all_goals simp [hwrite]
  | writeDmem addr size a v event inside idle =>
    have hwrite : ∃ addr size v, NextEvent s (.write addr size v) := ⟨addr, size, v, event⟩
    simp [hwrite, idle]
  | drain n event =>
    have hdrain : ∃ n, NextEvent s (.drain n) := ⟨n, event⟩
    obtain ⟨_, _, _, _, _, _, _, _, e⟩ := drainRequest_only s.popEvent n
    rw [e]
    simp [hdrain]

end Sys2Proof.Machine
end

section
/-! SUPPORT. Commands read the latched arguments only: every check and every effect commutes with a change of the ARG
registers (10_state.md R43). -/

namespace Sys2Proof.Machine

/-- The state with other values in ARG0..ARG7. -/
def State.withArgs (s : State) (a : Vector Word 8) : State := { s with args := a }

/-- The effect with other values in ARG0..ARG7 of its state. -/
def Effect.withArgs (e : Effect) (a : Vector Word 8) : Effect := { e with state := e.state.withArgs a }

theorem ite_withArgs (c : Prop) [Decidable c] (t u : State) (a : Vector Word 8) :
    (if c then t else u).withArgs a = if c then t.withArgs a else u.withArgs a := apply_ite (State.withArgs · a) c t u

@[simp] theorem argU32_withArgs (s : State) (a : Vector Word 8) (k : Fin 8) : argU32 (s.withArgs a) k = argU32 s k := rfl

@[simp] theorem ctxShape_withArgs (s : State) (a : Vector Word 8) (cx : Nat) :
    ctxShape (s.withArgs a) cx = ctxShape s cx := rfl

theorem checkOf_withArgs (i : Instr) (s : State) (a : Vector Word 8) : checkOf i (s.withArgs a) = checkOf i s := by
  cases i <;> rfl

/-- A fold of steps that commute with a change of the ARGs commutes with it. -/
theorem foldl_withArgs {α : Type} {f : State → α → State} (a : Vector Word 8)
    (hf : ∀ s x, f (s.withArgs a) x = (f s x).withArgs a) (xs : List α) (s : State) :
    xs.foldl f (s.withArgs a) = (xs.foldl f s).withArgs a := by
  induction xs generalizing s with
  | nil => rfl
  | cons x xs ih => rw [List.foldl_cons, List.foldl_cons, hf, ih]

theorem olaApplyChunk_withArgs (c : OlaShape) (i o : Nat) (a : Vector Word 8) (s : State) (j : Nat) :
    olaApplyChunk c i o (s.withArgs a) j = (olaApplyChunk c i o s j).withArgs a := rfl

theorem olaApplyEffect_withArgs (s : State) (a : Vector Word 8) :
    olaApplyEffect (s.withArgs a) = (olaApplyEffect s).withArgs a := by
  simp only [olaApplyEffect, argU32_withArgs, ctxShape_withArgs,
    foldl_withArgs a (olaApplyChunk_withArgs (ctxShape s (argU32 s 0)) (argU32 s 1) (argU32 s 2) a)]
  rfl

theorem stopEffect_withArgs (s : State) (a : Vector Word 8) :
    stopEffect (s.withArgs a) = (stopEffect s).withArgs a := by
  by_cases h : s.runState = .stopped
  · rw [stopEffect_stopped h, stopEffect_stopped (s := s.withArgs a) h]; rfl
  · rw [stopEffect_running h, stopEffect_running (s := s.withArgs a) h]; rfl

/-! ## MIX -/

theorem snapshot_withArgs (s : State) (a : Vector Word 8) : snapshot (s.withArgs a) = (snapshot s).withArgs a := by
  unfold snapshot
  dsimp only
  rw [ite_withArgs, ite_withArgs]
  rfl

theorem distStage_withArgs (d : Ram) (m : MixOperands) (c : OlaShape) (s : State) (a : Vector Word 8) :
    distStage d m c (s.withArgs a) = (distStage d m c s).withArgs a := rfl

theorem lfeChannel_withArgs (d : Ram) (m : MixOperands) (a : Vector Word 8) (s : State) (vc : Nat × OlaShape) :
    lfeChannel d m (s.withArgs a) vc = (lfeChannel d m s vc).withArgs a := rfl

theorem lfeStage_withArgs (d : Ram) (m : MixOperands) (ctxs : List OlaShape) (s : State) (a : Vector Word 8) :
    lfeStage d m ctxs (s.withArgs a) = (lfeStage d m ctxs s).withArgs a := by
  unfold lfeStage
  rw [ite_withArgs, ← foldl_withArgs a (lfeChannel_withArgs d m a)]
  rfl

theorem mixStages_withArgs (s : State) (a : Vector Word 8) : mixStages (s.withArgs a) = (mixStages s).withArgs a := by
  unfold mixStages
  dsimp only
  rw [snapshot_withArgs, ite_withArgs, ← lfeStage_withArgs, ite_withArgs, ← distStage_withArgs]
  rfl

theorem frameReverb_withArgs (m : MixOperands) (s : State) (f : Nat) (a : Vector Word 8) :
    frameReverb m (s.withArgs a) f =
      { state := (frameReverb m s f).state.withArgs a, out := (frameReverb m s f).out } := by
  have hstep (u : Word) :
      reverbStep (s.withArgs a) u = { state := (reverbStep s u).state.withArgs a, out := (reverbStep s u).out } := by
    unfold reverbStep
    by_cases h : s.revLen = 0
    · rw [if_pos h, if_pos (show (s.withArgs a).revLen = 0 from h)]
    · rw [if_neg h, if_neg (show ¬ (s.withArgs a).revLen = 0 from h)]; rfl
  unfold frameReverb
  by_cases h : s.act.distEn = true
  · rw [if_pos h, if_pos (show (s.withArgs a).act.distEn = true from h), hstep]; rfl
  · rw [if_neg h, if_neg (show ¬ (s.withArgs a).act.distEn = true from h)]

theorem frameOut_withArgs (d : Ram) (m : MixOperands) (a : Vector Word 8) (s : State) (f : Nat) :
    frameOut d m (s.withArgs a) f = (frameOut d m s f).withArgs a := by
  rw [frameOut_eq, frameOut_eq, frameReverb_withArgs]
  rfl

theorem mixEffect_withArgs (s : State) (a : Vector Word 8) : mixEffect (s.withArgs a) = (mixEffect s).withArgs a := by
  have hframes := foldl_withArgs a (frameOut_withArgs s.dmem (mixOperands s) a) (List.range (mixOperands s).b) (mixStages s)
  rw [← mixStages_withArgs] at hframes
  unfold mixEffect Effect.withArgs
  dsimp only
  rw [← hframes]
  rfl

/-! ## Commands -/

theorem effectOf_withArgs (i : Instr) (s : State) (a : Vector Word 8) :
    effectOf i (s.withArgs a) = (effectOf i s).withArgs a := by
  cases i
  case olaApply => exact olaApplyEffect_withArgs s a
  case mix => exact mixEffect_withArgs s a
  case stop => exact stopEffect_withArgs s a
  all_goals rfl

/-- What a command answers does not depend on the ARG registers. -/
theorem exec_withArgs {i : Instr} {s t : State} (a : Vector Word 8) (h : exec i s = .next t) :
    exec i (s.withArgs a) = .next (t.withArgs a) := by
  rw [exec_eq_runCommand, runCommand, checkOf_withArgs, effectOf_withArgs]
  rcases exec_cases h with ⟨e, hc, rfl⟩ | ⟨hc, rfl⟩ <;> rw [hc] <;> rfl

/-! ## The latch -/

theorem csrAt_arg : ∀ k : Fin 8, csrAt (0x040 + 4 * k.val) = some (.arg k) := by decide

theorem hostWrite_arg (s : State) (k : Fin 8) (v : Word) :
    hostWrite s (BitVec.ofNat 32 (0x040 + 4 * k.val)) 4 v = { s with args := s.args.set k v } :=
  hostWrite_of_csrAt s v (csrAt_arg k)

theorem hostWrite_cmd_idle {s : State} (v : Word) (h : s.eng = .idle) :
    hostWrite s 0x020#32 4 v = { s with cmd := v, argl := s.args, eng := .pending v } := by
  refine (hostWrite_of_csrAt (off := 0x020) s v rfl).trans ?_
  simp only [csrWrite, writeCmd, h]
  rfl

theorem hostWrite_cmd_pending {s : State} (v : Word) (h : s.eng ≠ .idle) :
    hostWrite s 0x020#32 4 v = { s with irqPend := s.irqPend ||| pendCmdOvf } := by
  refine (hostWrite_of_csrAt (off := 0x020) s v rfl).trans ?_
  simp only [csrWrite, writeCmd]
  split
  next hidle => exact absurd hidle h
  next => rfl

/-- Settles O9: the latch of an accepted CMD write, and `exec_withArgs`. -/
theorem commandReadsLatchedArguments : Obligations.CommandReadsLatchedArguments := by
  unfold Obligations.CommandReadsLatchedArguments
  refine ⟨fun s v h => ?_, hostWrite_arg, fun i s t a => exec_withArgs a, fun s k => ⟨rfl, rfl⟩⟩
  rw [hostWrite_cmd_idle v h]

end Sys2Proof.Machine
end

section
/-! SUPPORT. The registers of the CSR map read and written at their offsets (10_state.md R33 to R65). -/

namespace Sys2Proof.Machine

/-! ## Reads and ignored writes by offset -/

/-- The word a read at a listed offset returns. -/
theorem hostRead_rdata {s : State} {off : Nat} {w : Word} (h : (csrAt off).map (csrRead s) = some w) :
    (hostRead s (BitVec.ofNat 32 off) 4).rdata = w := by
  obtain ⟨r, hr, rfl⟩ := Option.map_eq_some_iff.1 h
  rw [hostRead_of_csrAt s hr]

/-- The registers whose writes are always ignored (10_state.md R34). -/
def Csr.readOnly : Csr → Bool
  | .id | .version | .cfgDmemWords | .cfgRingWords | .cfgRevWords | .cfgLimits | .status
  | .result0 | .result1 | .ringCap | .ringRd | .ringWr | .ringLevel | .ringSpace
  | .drainCount | .xrunCount | .actMaster | .actLfe | .actBase | .actRevDelay | .actRevDecay
  | .actEnables | .revLen | .revCur => true
  | _ => false

theorem csrWrite_readOnly {r : Csr} (h : r.readOnly = true) (s : State) (v : Word) : csrWrite s r v = s := by
  cases r
  case cmd | irqPend | irqEn | arg | devFs | devChannels | devBlock | ringMult | tunMaster | tunLfe | tunBase
    | tunRevDelay | tunRevDecay | tunEnables | settings => cases h
  all_goals rfl

theorem hostWrite_readOnly {off : Nat} (h : (csrAt off).any Csr.readOnly = true) (s : State) (v : Word) :
    hostWrite s (BitVec.ofNat 32 off) 4 v = s := by
  cases hr : csrAt off with
  | none => rw [hr] at h; cases h
  | some r =>
    rw [hr] at h
    rw [hostWrite_of_csrAt s v hr, csrWrite_readOnly h]

/-- Settles O16: the listed offsets are those of the map, so the access reaches no register. -/
theorem reservedOffsets : Obligations.ReservedOffsets := by
  unfold Obligations.ReservedOffsets
  intro s off v hlt halign hout
  have hnone : csrAt off = none := by
    refine List.lookup_eq_none_iff.2 fun p hp => ?_
    rw [bne_iff_ne]
    rintro rfl
    exact hout (List.mem_map_of_mem (f := Prod.fst) hp)
  have hoff : (BitVec.ofNat 32 off).toNat = off := by rw [BitVec.toNat_ofNat]; omega
  have htarget : target (BitVec.ofNat 32 off) 4 = .reserved := by
    unfold target
    rw [hoff]
    simp [halign, hlt, hnone]
  exact ⟨by rw [hostRead, htarget], by rw [hostWrite, htarget]⟩

/-- Settles O10: each row of the map read in the reset state. -/
theorem resetRegisterValues : Obligations.ResetRegisterValues := by
  unfold Obligations.ResetRegisterValues
  intro p hp
  refine hostRead_rdata ?_
  revert p
  decide

theorem cfgLimitsWord_eq : cfgLimitsWord = 0x3FFF1010#32 := by decide

/-- Settles O11: the six registers read words of the configuration alone, and are read-only. -/
theorem identificationRegisters : Obligations.IdentificationRegisters := by
  unfold Obligations.IdentificationRegisters
  intro s v
  have hread (off : Nat) (w : Word) (h : (csrAt off).map (csrRead s) = some w) := hostRead_rdata h
  have hlimits : (hostRead s 0x014#32 4).rdata = cfgLimitsWord := hread 0x014 _ rfl
  refine ⟨hread 0x000 _ rfl, hread 0x004 _ rfl, ?_, ?_, ?_, ?_, ?_, fun off hoff => hostWrite_readOnly ?_ s v⟩
  · exact congrArg BitVec.toNat (hread 0x008 _ rfl)
  · exact congrArg BitVec.toNat (hread 0x00C _ rfl)
  · exact congrArg BitVec.toNat (hread 0x010 _ rfl)
  · rw [hlimits]; decide
  · rw [hlimits]; decide
  · revert off; decide

/-! ## STATUS (10_state.md R46) -/

theorem toNat_append_eq_add {m n : Nat} (x : BitVec m) (y : BitVec n) :
    (x ++ y).toNat = x.toNat * 2 ^ n + y.toNat := by
  rw [BitVec.toNat_append, ← Nat.shiftLeft_add_eq_or_of_lt y.isLt, Nat.shiftLeft_eq]

theorem statusWord_toNat (s : State) :
    (statusWord s).toNat =
      (busy s).toNat + 2 * (runStateBits s.runState).toNat + 8 * (irqLevel s).toNat + 16 * (errBits s.err).toNat := by
  unfold statusWord
  simp only [toNat_append_eq_add, BitVec.toNat_ofBool, BitVec.toNat_zero]
  omega

theorem statusWord_busy (s : State) : (statusWord s).getLsbD 0 = busy s :=
  BitVec.getLsbD_append.trans (by simp)

theorem irqLevel_iff (s : State) :
    irqLevel s = true ↔ ∃ k : Fin 6, (s.irqPend.getLsbD k && s.irqEn.getLsbD k) = true := by
  have hzero : s.irqPend &&& s.irqEn = 0#6 ↔ ∀ k : Fin 6, (s.irqPend.getLsbD k && s.irqEn.getLsbD k) = false := by
    constructor
    · intro h k
      rw [← BitVec.getLsbD_and, h, BitVec.getLsbD_zero]
    · intro h
      refine BitVec.eq_of_getLsbD_eq fun i hi => ?_
      rw [BitVec.getLsbD_and, h ⟨i, hi⟩, BitVec.getLsbD_zero]
  simp [irqLevel, hzero]

/-- Settles O21: the fields of `statusWord_toNat` one by one. -/
theorem statusFields : Obligations.StatusFields := by
  unfold Obligations.StatusFields
  refine ⟨fun s v => hostWrite_readOnly (off := 0x024) rfl s v, hostRead_rdata (off := 0x024) (by decide), fun s => ?_⟩
  rw [hostRead_rdata (off := 0x024) (w := statusWord s) rfl, statusWord_toNat]
  refine congrArg₂ (· + ·) (congrArg₂ (· + ·) (congrArg₂ (· + ·) ?_ (congrArg (2 * ·) ?_)) (congrArg (8 * ·) ?_))
    (congrArg (16 * ·) ?_)
  · by_cases h : s.eng = .idle <;> simp [busy, h]
  · cases s.runState <;> rfl
  · simp only [← irqLevel_iff]
    cases irqLevel s <;> rfl
  · rcases s.err with _ | e
    · rfl
    · cases e <;> rfl

/-! ## CMD -/

/-- Settles O13: the two branches of a CMD write by the engine state. -/
theorem cmdWrite : Obligations.CmdWrite := by
  unfold Obligations.CmdWrite
  intro s v
  refine ⟨fun h => ⟨hostWrite_cmd_idle v h, ?_⟩, fun h => hostWrite_cmd_pending v h, hostRead_rdata (off := 0x020) rfl⟩
  rw [hostWrite_cmd_idle v h, hostRead_rdata (off := 0x024) (w := statusWord _) rfl, statusWord_busy]
  rfl

/-! ## Counts -/

/-- The ring and reverb registers fit a word. -/
theorem Inv.counts_lt {s : State} (h : Inv s) :
    s.ringCap < 2 ^ 32 ∧ s.ringRd < 2 ^ 32 ∧ s.ringWr < 2 ^ 32 ∧ s.ringLevel < 2 ^ 32 ∧ s.revLen < 2 ^ 32 ∧
      s.revCur < 2 ^ 32 := by
  have hlen := h.revLenBound
  have hcur := h.revCurBound
  unfold Config.revWords at hlen
  rcases h.visible with hs | hr
  · obtain ⟨hcap, hrd, hwr, hlevel⟩ := h.stoppedEmpty hs
    omega
  · obtain ⟨hpos, hle⟩ := h.capBound hr
    have hrd := h.readCursor hr
    have hlevel := h.levelBound hr
    have hwr : s.ringWr < s.ringCap := by rw [h.writeCursor hr]; exact Nat.mod_lt _ hpos
    unfold Config.ringWords at hle
    omega

/-! ## RO and RW registers -/

/-- What a register reads after a write to it. -/
theorem hostRead_hostWrite_rdata {off : Nat} {r : Csr} {s : State} {v w : Word} (h : csrAt off = some r)
    (hback : csrRead (csrWrite s r v) r = w) :
    (hostRead (hostWrite s (BitVec.ofNat 32 off) 4 v) (BitVec.ofNat 32 off) 4).rdata = w := by
  rw [hostWrite_of_csrAt s v h, hostRead_of_csrAt _ h]
  exact hback

/-- The writable bits of a word are its low ones. -/
theorem zeroExtend_truncate (v : Word) (n : Nat) :
    (v.truncate n).zeroExtend 32 = v &&& BitVec.ofNat 32 (2 ^ n - 1) := by
  refine BitVec.eq_of_getLsbD_eq fun i hi => ?_
  rw [BitVec.getLsbD_setWidth, BitVec.getLsbD_setWidth, BitVec.getLsbD_and, BitVec.getLsbD_ofNat,
    Nat.testBit_two_pow_sub_one]
  simp [hi, Bool.and_comm]

theorem toNat_zeroExtend_word {n : Nat} (x : BitVec n) (h : n ≤ 32) : (x.zeroExtend 32).toNat = x.toNat :=
  BitVec.toNat_setWidth_of_le h

theorem speakers_word_toNat (l : Layout) : (BitVec.ofNat 32 l.speakers).toNat = l.speakers := by cases l <;> rfl

/-- Settles O18: each register by its read and write rule at its offset. -/
theorem accessTypes : Obligations.AccessTypes := by
  unfold Obligations.AccessTypes
  intro s v
  have hread {off : Nat} {w : Word} (h : (csrAt off).map (csrRead s) = some w) := hostRead_rdata h
  have harg (k : Fin 8) : (hostRead (hostWrite s (BitVec.ofNat 32 (0x040 + 4 * k.val)) 4 v)
      (BitVec.ofNat 32 (0x040 + 4 * k.val)) 4).rdata = v :=
    hostRead_hostWrite_rdata (csrAt_arg k) (by simp [csrRead, csrWrite])
  have hnat {off : Nat} {w : Word} {n : Nat} (h : (csrAt off).map (csrRead s) = some w) (hn : w.toNat = n) :
      (hostRead s (BitVec.ofNat 32 off) 4).rdata.toNat = n := by rw [hostRead_rdata h, hn]
  refine ⟨fun off hoff => hostWrite_readOnly ?_ s v, ?_, fun k => hostWrite_arg s k v,
    hostWrite_of_csrAt (off := 0x02C) s v rfl, ?_, ?_, ?_, fun k => hostRead_rdata (by rw [csrAt_arg]; rfl), ?_,
    fun hinv => ?_⟩
  · revert off; decide
  · simp only [List.forall_mem_cons, List.not_mem_nil, false_imp_iff, implies_true, and_true]
    exact ⟨harg 0, harg 1, harg 2, harg 3, harg 4, harg 5, harg 6, harg 7,
      hostRead_hostWrite_rdata (r := .tunMaster) rfl rfl, hostRead_hostWrite_rdata (r := .tunLfe) rfl rfl,
      hostRead_hostWrite_rdata (r := .tunBase) rfl rfl, hostRead_hostWrite_rdata (r := .tunRevDelay) rfl rfl,
      hostRead_hostWrite_rdata (r := .tunRevDecay) rfl rfl⟩
  · exact hostRead_hostWrite_rdata (off := 0x02C) (r := .irqEn) rfl (zeroExtend_truncate v 6)
  · exact hostRead_hostWrite_rdata (off := 0x0D4) (r := .tunEnables) rfl (zeroExtend_truncate v 4)
  · simp only [List.forall_mem_cons, List.not_mem_nil, false_imp_iff, implies_true, and_true]
    exact ⟨hread rfl, hread rfl, hread rfl, hread rfl, hread rfl, hread rfl, hread rfl, hread rfl, hread rfl, hread rfl,
      hread rfl, hread rfl, hread rfl, hread rfl, hread rfl, hread rfl, hread rfl⟩
  · simp only [List.forall_mem_cons, List.not_mem_nil, false_imp_iff, implies_true, and_true]
    exact ⟨hnat rfl (toNat_zeroExtend_word _ (by decide)), hnat rfl (speakers_word_toNat _),
      hnat rfl (toNat_zeroExtend_word _ (by decide)), hnat rfl (toNat_zeroExtend_word _ (by decide))⟩
  · have hcount {n : Nat} (h : n < 2 ^ 32) : (BitVec.ofNat 32 n).toNat = n := by
      rw [BitVec.toNat_ofNat, Nat.mod_eq_of_lt h]
    obtain ⟨hcap, hrd, hwr, hlevel, hlen, hcur⟩ := hinv.counts_lt
    simp only [List.forall_mem_cons, List.not_mem_nil, false_imp_iff, implies_true, and_true]
    exact ⟨hnat rfl (hcount hcap), hnat rfl (hcount hrd),
      hnat rfl (hcount hwr), hnat rfl (hcount hlevel),
      hnat rfl (hcount hlen), hnat rfl (hcount hcur)⟩

/-! ## Device registers -/

/-- A device register is written while STOPPED only, and then reads back (10_state.md R34). -/
theorem deviceWrite_readBack {off : Nat} {r : Csr} {s t : State} {v : Word} (h : csrAt off = some r)
    (hw : csrWrite s r v = if s.runState = .stopped then t else s) (hback : csrRead t r = v) :
    if s.runState = .stopped then
      (hostRead (hostWrite s (BitVec.ofNat 32 off) 4 v) (BitVec.ofNat 32 off) 4).rdata = v
    else hostWrite s (BitVec.ofNat 32 off) 4 v = s := by
  split
  next hs => exact hostRead_hostWrite_rdata h (by rw [hw, if_pos hs, hback])
  next hs => rw [hostWrite_of_csrAt s v h, hw, if_neg hs]

theorem hostWrite_devChannels (s : State) (v : Word) :
    hostWrite s 0x084#32 4 v = if s.runState = .stopped then writeDevChannels s v else s :=
  hostWrite_of_csrAt (off := 0x084) s v rfl

theorem hostRead_devChannels (s : State) : (hostRead s 0x084#32 4).rdata = BitVec.ofNat 32 s.layout.speakers :=
  hostRead_rdata (off := 0x084) rfl

/-- A legal channel count is the speaker count of the layout it selects (10_state.md R52). -/
theorem layoutOf_some {v : Word} {l : Layout} (h : layoutOf v = some l) : v = BitVec.ofNat 32 l.speakers := by
  unfold layoutOf at h
  split at h
  next hv => cases h; exact hv
  split at h
  next hv => cases h; exact hv
  split at h
  next hv => cases h; exact hv
  split at h
  next hv => cases h; exact hv
  cases h

theorem layoutOf_none_iff (v : Word) : layoutOf v = none ↔ v ∉ [1#32, 2#32, 6#32, 8#32] := by
  unfold layoutOf
  constructor
  · intro h
    repeat (split at h; · cases h)
    simp [*]
  · intro h
    simp only [List.mem_cons, List.not_mem_nil, or_false, not_or] at h
    obtain ⟨h1, h2, h6, h8⟩ := h
    rw [if_neg h1, if_neg h2, if_neg h6, if_neg h8]

/-- Settles O19: the write rule of each register by RUNSTATE, and DEV_CHANNELS by the layouts. -/
theorem deviceRegisterWrites : Obligations.DeviceRegisterWrites := by
  unfold Obligations.DeviceRegisterWrites
  intro s v
  refine ⟨hostWrite_of_csrAt (off := 0x080) s v rfl, hostWrite_of_csrAt (off := 0x088) s v rfl,
    hostWrite_of_csrAt (off := 0x08C) s v rfl, ?_, ?_, ?_, ?_⟩
  · simp only [List.forall_mem_cons, List.not_mem_nil, false_imp_iff, implies_true, and_true]
    exact ⟨deviceWrite_readBack (r := .devFs) rfl rfl rfl, deviceWrite_readBack (r := .devBlock) rfl rfl rfl,
      deviceWrite_readBack (r := .ringMult) rfl rfl rfl⟩
  · have hmem := layoutOf_none_iff v
    split
    next hlegal =>
      obtain ⟨hstop, hv⟩ := hlegal
      cases hl : layoutOf v with
      | none => exact absurd hv (hmem.1 hl)
      | some l =>
        have hw : hostWrite s 0x084#32 4 v = { s with layout := l } := by
          rw [hostWrite_devChannels, if_pos hstop, writeDevChannels, hl]
        rw [hw, hostRead_devChannels, layoutOf_some hl]
        exact ⟨rfl, (speakers_word_toNat l).symm, rfl⟩
    next hillegal =>
      rw [hostWrite_devChannels]
      split
      next hstop => rw [writeDevChannels, hmem.2 fun hv => hillegal ⟨hstop, hv⟩]
      next => rfl
  · rw [hostRead_devChannels]
    cases s.layout <;> decide
  · rw [hostRead_devChannels]
    rfl

/-- Settles O20: one write rule per register. -/
theorem tunWriteSetsChanged : Obligations.TunWriteSetsChanged := by
  unfold Obligations.TunWriteSetsChanged
  intro s v
  refine ⟨hostWrite_of_csrAt (off := 0x0C0) s v rfl, hostWrite_of_csrAt (off := 0x0C4) s v rfl,
    hostWrite_of_csrAt (off := 0x0C8) s v rfl, hostWrite_of_csrAt (off := 0x0CC) s v rfl,
    hostWrite_of_csrAt (off := 0x0D0) s v rfl, hostWrite_of_csrAt (off := 0x0D4) s v rfl,
    hostWrite_of_csrAt (off := 0x0D8) s v rfl, ?_⟩
  rw [hostRead_rdata (off := 0x0D8) (w := (BitVec.ofBool s.changed).zeroExtend 32) rfl]
  cases s.changed <;> rfl

/-- Settles O22: the space is at most the capacity, which fits a word. -/
theorem ringSpaceRegister : Obligations.RingSpace := by
  unfold Obligations.RingSpace
  intro s v h
  refine ⟨?_, hostWrite_readOnly (off := 0x0A0) rfl s v⟩
  rw [hostRead_rdata (off := 0x0A0) (w := BitVec.ofNat 32 (ringSpace s)) rfl, BitVec.toNat_ofNat]
  obtain ⟨hcap, -⟩ := h.counts_lt
  refine Nat.mod_eq_of_lt ?_
  unfold ringSpace
  split <;> omega

end Sys2Proof.Machine
end

section
/-! SUPPORT. Host accesses by their addresses and bytes, and the events of the schedule (20_memory.md R80 to R91). -/

namespace Sys2Proof.Machine

/-! ## Bus errors (20_memory.md R81, R86, R87) -/

/-- Settles O14: the bus error case of all that an access can do. -/
theorem busErrors : Obligations.BusErrors := by
  unfold Obligations.BusErrors
  intro s addr size v herr
  constructor
  · obtain ⟨-, hread⟩ | ⟨hok, -⟩ := hostRead_cases s addr size
    · exact hread
    · exact absurd herr hok
  · obtain ⟨-, hwrite⟩ | ⟨hok, -⟩ := hostWrite_cases s addr size v
    · exact hwrite
    · exact absurd herr hok

/-! ## Reads are pure (20_memory.md R88) -/

/-- No register shows the word the last read returned. -/
theorem csrRead_withRdata (s : State) (w : Word) (r : Csr) : csrRead { s with rdata := w } r = csrRead s r := by
  cases r <;> rfl

/-- A read overwrites the word the last read returned and does not depend on it. -/
theorem hostRead_withRdata (s : State) (w : Word) (addr : BitVec 32) (size : Nat) :
    hostRead { s with rdata := w } addr size = hostRead s addr size := by
  unfold hostRead
  cases target addr size with
  | csr r => simp only [csrRead_withRdata]
  | reserved => rfl
  | dmem a => rfl
  | busError => rfl

/-- Settles O17: a read without a bus error changes `rdata` alone, which the next read does not see. -/
theorem readsHaveNoSideEffects : Obligations.ReadsHaveNoSideEffects := by
  unfold Obligations.ReadsHaveNoSideEffects
  intro s addr size hok
  obtain ⟨hbus, -⟩ | ⟨-, w, hw⟩ := hostRead_cases s addr size
  · exact absurd hbus hok
  · exact ⟨by rw [hw], by rw [hw, hostRead_withRdata, hw]⟩

/-! ## The DMEM window (20_memory.md R85) -/

theorem hostRead_dmem {s : State} {a : Nat} (hidle : s.eng = .idle) (ha : a < Config.dmemWords) :
    hostRead s (BitVec.ofNat 32 (0x01000000 + 4 * a)) 4 = { s with rdata := s.dRead a } := by
  simp [hostRead, target_dmem_word ha, (busy_false_iff s).2 hidle]

theorem hostWrite_dmem {s : State} {a : Nat} (hidle : s.eng = .idle) (ha : a < Config.dmemWords) (v : Word) :
    hostWrite s (BitVec.ofNat 32 (0x01000000 + 4 * a)) 4 v = s.dWrite a v := by
  simp [hostWrite, target_dmem_word ha, (busy_false_iff s).2 hidle]

/-- What the host writes to a DMEM word it reads back. -/
theorem hostRead_hostWrite_dmem {s : State} {a : Nat} (hidle : s.eng = .idle) (ha : a < Config.dmemWords) (v : Word) :
    (hostRead (hostWrite s (BitVec.ofNat 32 (0x01000000 + 4 * a)) 4 v) (BitVec.ofNat 32 (0x01000000 + 4 * a)) 4).rdata
      = v := by
  rw [hostWrite_dmem hidle ha, hostRead_dmem (by rw [dWrite_eng, hidle]) ha]
  simp [dRead_dWrite]

/-! ## Byte order (20_memory.md R82) -/

/-- The word of four bytes has the byte at the lowest address in its low bits. -/
theorem bytesWord_eq_append (b0 b1 b2 b3 : Byte) : bytesWord [b0, b1, b2, b3] = b3 ++ b2 ++ b1 ++ b0 := by
  refine BitVec.eq_of_getLsbD_eq fun n hn => ?_
  rw [bytesWord_getLsbD, if_pos hn]
  show _ = BitVec.getLsbD (w := 8 + 8 + 8 + 8) _ n
  rw [BitVec.getLsbD_append, BitVec.getLsbD_append, BitVec.getLsbD_append]
  simp only [Nat.sub_sub, Nat.reduceAdd, show n - 8 < 8 ↔ n < 16 by omega,
    show n - 16 < 8 ↔ n < 24 by omega]

/-- The bytes of a word of four bytes are those bytes. -/
theorem wordBytes_bytesWord (b0 b1 b2 b3 : Byte) : wordBytes (bytesWord [b0, b1, b2, b3]) = [b0, b1, b2, b3] := by
  have hbyte {i : Nat} {b : Byte} (h : ∀ k < 8, (bytesWord [b0, b1, b2, b3]).getLsbD (8 * i + k) = b.getLsbD k) :
      wordByte (bytesWord [b0, b1, b2, b3]) i = b :=
    BitVec.eq_of_getLsbD_eq fun k hk => by rw [wordByte_getLsbD _ i k hk, h k hk]
  rw [wordBytes, hbyte (i := 0) (b := b0), hbyte (i := 1) (b := b1), hbyte (i := 2) (b := b2), hbyte (i := 3) (b := b3)]
  all_goals
    intro k hk
    rw [bytesWord_getLsbD]
    grind

/-- Byte i of a list of a word's bytes, bit by bit. -/
theorem wordBytes_getD_getLsbD (w : Word) {i k : Nat} (hi : i < 4) (hk : k < 8) :
    ((wordBytes w).getD i 0#8).getLsbD k = w.getLsbD (8 * i + k) := by
  rw [← wordByte_getLsbD w i k hk]
  interval_cases i <;> rfl

/-- Settles O15: the rules of the DMEM window, then those of the byte order. -/
theorem dmemHostAccess : Obligations.DmemHostAccess := by
  unfold Obligations.DmemHostAccess
  refine ⟨fun s a v hidle ha => ?_, fun s addr size => ⟨wordBytes_length _, fun i k => wordBytes_getD_getLsbD _⟩,
    fun s addr v => ?_, fun _ => rfl⟩
  · refine ⟨hostRead_dmem hidle ha, ?_, ?_, fun b hb => ?_, hostRead_hostWrite_dmem hidle ha v, fun b0 b1 b2 b3 => ?_⟩
    · rw [hostWrite_dmem hidle ha]; rfl
    · rw [hostWrite_dmem hidle ha, dRead_dWrite, if_pos rfl]
    · rw [hostWrite_dmem hidle ha, dRead_dWrite, if_neg hb]
    · refine ⟨by rw [← bytesWord_eq_append]; rfl, ?_⟩
      show wordBytes (hostRead (hostWrite s _ 4 _) _ 4).rdata = _
      rw [hostRead_hostWrite_dmem hidle ha, wordBytes_bytesWord]
  · rw [hostWriteBytes, wordBytes_length, bytesWord_wordBytes]

/-! ## Events of the schedule (20_memory.md R91) -/

/-- An idle engine takes no step (60_exceptions.md R270). -/
theorem engineStep_idle {s : State} (h : s.eng = .idle) : engineStep s = .next s := by
  unfold engineStep
  rw [h]

/-- Settles O5: the step takes the head of the schedule, event by event. -/
theorem stepTakesEvent : Obligations.StepTakesEvent := by
  unfold Obligations.StepTakesEvent
  intro s e hnext
  obtain ⟨rest, hinputs⟩ := List.head?_eq_some_iff.1 hnext
  rw [step, hinputs]
  refine ⟨?_, ?_, ?_, ?_, ?_⟩
  · rintro rfl; rfl
  · rintro addr size rfl; rfl
  · rintro addr size v rfl; rfl
  · rintro n rfl; rfl
  · rintro rfl hidle; exact engineStep_idle hidle

end Sys2Proof.Machine
end

section
/-! SUPPORT. The decoder against the encoder (30_encoding.md R110 to R118): the opcode map inverted, the fields of a decoded
word, and what a turn of the engine does with a pending word. -/

namespace Sys2Proof

/-! ## The opcode map (30_encoding.md R115) -/

/-- The OP value of an opcode: that of its instruction with F = 0. -/
def Opcode.bits (op : Opcode) : BitVec 8 := (op.toInstr false).opBits

theorem Opcode.ofBits_bits (op : Opcode) : Opcode.ofBits op.bits = some op := by
  cases op <;> rfl

theorem Opcode.ofBits_of_notMem {b : BitVec 8} (h : b ∉ assignedOps) : Opcode.ofBits b = none := by
  simp only [assignedOps, List.mem_cons, List.not_mem_nil, or_false, not_or] at h
  simp only [Opcode.ofBits, h, if_false]

/-- The assigned OP values are those of the opcodes. -/
theorem exists_opcode_of_mem : ∀ b ∈ assignedOps, ∃ op : Opcode, op.bits = b := by
  simp only [assignedOps, List.forall_mem_cons, List.not_mem_nil, false_imp_iff, implies_true, and_true]
  exact ⟨⟨.nop, rfl⟩, ⟨.fft, rfl⟩, ⟨.ifft, rfl⟩, ⟨.firDesign, rfl⟩, ⟨.olaInit, rfl⟩, ⟨.olaApply, rfl⟩, ⟨.panGain, rfl⟩,
    ⟨.panTable, rfl⟩, ⟨.mix, rfl⟩, ⟨.start, rfl⟩, ⟨.stop, rfl⟩, ⟨.ringPush, rfl⟩⟩

/-- The opcodes with an F flag are those of `flagOps` (30_encoding.md R113). -/
theorem Opcode.hasFlag_iff (op : Opcode) : op.hasFlag = true ↔ op.bits ∈ flagOps := by
  cases op <;> decide

/-- Where F is allowed, the instruction of an opcode and an F bit has that opcode and that bit. -/
theorem Opcode.fields_toInstr {op : Opcode} {f : Bool} (h : f = true → op.hasFlag = true) :
    (op.toInstr f).fields = { op := op.bits, f := f, rsvd := 0#23 } := by
  cases f with
  | false => cases op <;> rfl
  | true =>
    cases op
    case firDesign => rfl
    case olaInit => rfl
    all_goals cases h rfl

/-! ## The checks of the decoder (30_encoding.md R112) -/

theorem decode_of_unassigned {w : Word} (h : Opcode.ofBits (CommandWord.ofWord w).op = none) :
    decode w = .error .illegal := by
  simp [decode, h]

theorem decode_of_reserved {w : Word} {op : Opcode} (h : Opcode.ofBits (CommandWord.ofWord w).op = some op)
    (hr : (CommandWord.ofWord w).rsvd ≠ 0#23) : decode w = .error .rsvd := by
  simp [decode, h, hr]

theorem decode_of_flag {w : Word} {op : Opcode} (h : Opcode.ofBits (CommandWord.ofWord w).op = some op)
    (hf : (CommandWord.ofWord w).f = true) (hflag : op.hasFlag = false) : decode w = .error .rsvd := by
  simp [decode, h, hf, hflag]

theorem decode_of_allowed {w : Word} {op : Opcode} (h : Opcode.ofBits (CommandWord.ofWord w).op = some op)
    (hr : (CommandWord.ofWord w).rsvd = 0#23) (hf : (CommandWord.ofWord w).f = true → op.hasFlag = true) :
    decode w = .ok (op.toInstr (CommandWord.ofWord w).f) := by
  cases hb : (CommandWord.ofWord w).f with
  | false => simp [decode, h, hr, hb]
  | true => simp [decode, h, hr, hb, hf hb]

/-- A word decodes to an instruction only if its fields are that instruction's. -/
theorem ofWord_of_decode {w : Word} {i : Instr} (h : decode w = .ok i) : CommandWord.ofWord w = i.fields := by
  by_cases hmem : (CommandWord.ofWord w).op ∈ assignedOps
  case neg =>
    rw [decode_of_unassigned (Opcode.ofBits_of_notMem hmem)] at h
    cases h
  obtain ⟨op, hbits⟩ := exists_opcode_of_mem _ hmem
  have hop := hbits ▸ op.ofBits_bits
  by_cases hr : (CommandWord.ofWord w).rsvd = 0#23
  · by_cases hf : (CommandWord.ofWord w).f = true → op.hasFlag = true
    · rw [decode_of_allowed hop hr hf] at h
      cases h
      rw [Opcode.fields_toInstr hf, hbits, ← hr]
    · obtain ⟨hset, hflag⟩ := Classical.not_imp.1 hf
      rw [decode_of_flag hop hset (Bool.eq_false_iff.2 hflag)] at h
      cases h
  · rw [decode_of_reserved hop hr] at h
    cases h

/-- The decoder reads an instruction back from its encoding. -/
theorem decode_encode (i : Instr) : decode (encode i) = .ok i := by
  rw [decode, ofWord_encode]
  cases i <;> rfl

/-- Settles O2: a decoded word has the fields of the instruction, and a word is the packing of its fields. -/
theorem decodeInvertsEncode : Obligations.DecodeInvertsEncode := by
  unfold Obligations.DecodeInvertsEncode
  intro w i
  constructor
  · intro h
    rw [encode, ← ofWord_of_decode h, CommandWord.toWord_ofWord]
  · rintro rfl
    exact decode_encode i

/-- Settles O1: each of the words is the encoding of its instruction. -/
theorem decodesSpecWords : Obligations.DecodesSpecWords :=
  ⟨decode_encode .nop, decode_encode .fft, decode_encode .ifft, decode_encode .firDesign, decode_encode .firDesignHp,
    decode_encode .olaInit, decode_encode .olaInitWin, decode_encode .olaApply, decode_encode .panGain,
    decode_encode .panTable, decode_encode .mix, decode_encode .start, decode_encode .stop, decode_encode .ringPush⟩

/-! ## The fields by arithmetic (30_encoding.md R110) -/

theorem toNat_ofWord_op (w : Word) : (CommandWord.ofWord w).op.toNat = w.toNat % 256 := by
  simp [CommandWord.ofWord]

theorem ofWord_f_iff (w : Word) : (CommandWord.ofWord w).f = true ↔ w.toNat / 256 % 2 = 1 := by
  simp [CommandWord.ofWord, BitVec.getLsbD, Nat.testBit_eq_decide_div_mod_eq]

theorem ofWord_rsvd_eq_zero_iff (w : Word) : (CommandWord.ofWord w).rsvd = 0#23 ↔ w.toNat / 512 = 0 := by
  have hrsvd : (CommandWord.ofWord w).rsvd.toNat = w.toNat / 512 % 2 ^ 23 := by
    simp [CommandWord.ofWord, Nat.shiftRight_eq_div_pow]
  rw [← BitVec.toNat_inj, hrsvd, BitVec.toNat_ofNat]
  have := w.isLt
  omega

/-- Membership of an OP field in a list of OP values is that of their numbers. -/
theorem toNat_op_mem_iff (w : Word) (ops : List (BitVec 8)) :
    w.toNat % 256 ∈ ops.map BitVec.toNat ↔ (CommandWord.ofWord w).op ∈ ops := by
  rw [← toNat_ofWord_op]
  exact List.mem_map_of_injective fun _ _ => BitVec.eq_of_toNat_eq

end Sys2Proof

namespace Sys2Proof.Machine

/-! ## A pending word (60_exceptions.md R270) -/

theorem engineStep_pending_error {s : State} {cw : Word} {e : DecodeError} (hp : s.eng = .pending cw)
    (hd : decode cw = .error e) : engineStep s = .next (refusedState s (decodeErrCode e)) := by
  simp only [engineStep, hp, hd]
  rfl

theorem engineStep_pending_ok {s : State} {cw : Word} {i : Instr} (hp : s.eng = .pending cw) (hd : decode cw = .ok i) :
    engineStep s = exec i s := by
  simp only [engineStep, hp, hd]

/-- Settles O3: check by check of the decoder, its fields read by arithmetic. -/
theorem decodeOrder : Obligations.DecodeOrder := by
  unfold Obligations.DecodeOrder
  intro s cw hp
  dsimp only
  have hassigned := toNat_op_mem_iff cw assignedOps
  have hflags := toNat_op_mem_iff cw flagOps
  split
  next hno =>
    exact engineStep_pending_error hp (decode_of_unassigned (Opcode.ofBits_of_notMem (mt hassigned.2 hno)))
  next hyes =>
  obtain ⟨op, hbits⟩ := exists_opcode_of_mem _ (hassigned.1 (not_not.1 hyes))
  have hop := hbits ▸ op.ofBits_bits
  have hflag : op.hasFlag = true ↔ cw.toNat % 256 ∈ [0x10, 0x11] := by
    rw [Opcode.hasFlag_iff, hbits]
    exact hflags.symm
  split
  next hr =>
    exact engineStep_pending_error hp (decode_of_reserved hop (mt (ofWord_rsvd_eq_zero_iff cw).1 hr))
  next hr =>
  split
  next hf =>
    obtain ⟨hset, hno⟩ := hf
    exact engineStep_pending_error hp
      (decode_of_flag hop ((ofWord_f_iff cw).2 hset) (Bool.eq_false_iff.2 (mt hflag.1 hno)))
  next hf =>
    have hd := decode_of_allowed hop ((ofWord_rsvd_eq_zero_iff cw).2 (not_not.1 hr)) fun hset =>
      hflag.2 (by_contra fun hno => hf ⟨(ofWord_f_iff cw).1 hset, hno⟩)
    exact ⟨_, (decodeInvertsEncode cw _).1 hd, engineStep_pending_ok hp hd⟩

end Sys2Proof.Machine
end

section
/-! SUPPORT. A command statement of the assembler, run on an idle engine (30_encoding.md R122). -/

namespace Sys2Proof.Machine

theorem run_succ {s t : State} (n : Nat) (h : step s = .next t) : core.run (n + 1) s = core.run n t := by
  simp only [Host.Core.run, show core.step s = .next t from h]

/-- The step of an ARG write. -/
theorem step_argWrite {s : State} {i : Nat} (hi : i < 8) {v : Word} {rest : List Event}
    (h : s.inputs = wrEvent (0x040 + 4 * i) v :: rest) :
    step s = .next { s with inputs := rest, args := s.args.set i v } := by
  rw [step, h]
  exact congrArg _ (hostWrite_arg { s with inputs := rest } ⟨i, hi⟩ v)

/-- The step of a CMD write on an idle engine. -/
theorem step_cmdWrite {s : State} {v : Word} {rest : List Event} (hidle : s.eng = .idle)
    (h : s.inputs = wrEvent 0x020 v :: rest) :
    step s = .next { s with inputs := rest, cmd := v, argl := s.args, eng := .pending v } := by
  rw [step, h]
  exact congrArg _ (hostWrite_cmd_idle (s := { s with inputs := rest }) v hidle)

/-- The ARG writes of a command statement put the operands into the registers from index i on, and leave the other
registers and the engine; n more steps go on from the state they leave. -/
theorem run_argWrites (n : Nat) {i : Nat} {ops : List Literal} {rest : List Event} {s : State}
    (hi : i + ops.length ≤ 8) (hs : s.inputs = argWrites i ops ++ rest) :
    ∃ t : State, core.run (ops.length + n) s = core.run n t ∧ t.inputs = rest ∧ t.eng = s.eng ∧
      (∀ (j : Nat) (hj : j < ops.length), t.args[i + j] = literalWord ops[j]) ∧
      ∀ (k : Nat) (hk : k < 8), k < i ∨ i + ops.length ≤ k → t.args[k] = s.args[k] := by
  induction ops generalizing i s with
  | nil =>
    exact ⟨s, by rw [List.length_nil, Nat.zero_add], hs, rfl, fun j hj => absurd hj (Nat.not_lt_zero j),
      fun k hk _ => rfl⟩
  | cons op ops ih =>
    have hlen : i + (ops.length + 1) ≤ 8 := hi
    have hlt : i < 8 := by omega
    obtain ⟨t, hrun, hinputs, heng, hset, hkept⟩ :=
      ih (i := i + 1) (s := { s with inputs := argWrites (i + 1) ops ++ rest, args := s.args.set i (literalWord op) })
        (by omega) rfl
    refine ⟨t, ?_, hinputs, heng, fun j hj => ?_, fun k hk hout => ?_⟩
    · rw [List.length_cons, Nat.succ_add, run_succ _ (step_argWrite hlt hs)]
      exact hrun
    · cases j with
      | zero => exact (hkept i hlt (.inl i.lt_succ_self)).trans (Vector.getElem_set_self hlt)
      | succ j =>
        have hnext := hset j (by simpa using hj)
        simpa [Nat.add_assoc, Nat.add_comm 1 j] using hnext
    · rw [List.length_cons] at hout
      exact (hkept k hk (by omega)).trans (Vector.getElem_set_ne hlt hk (by omega))

/-- Settles O60: the ARG writes by `run_argWrites`, then the CMD write accepted by the idle engine. -/
theorem commandStatement : Obligations.CommandStatement := by
  unfold Obligations.CommandStatement
  intro i ops s hlen hidle hinputs
  obtain ⟨t, hrun, hrest, heng, hset, hkept⟩ := run_argWrites 1 (by omega) hinputs
  have hcmd := step_cmdWrite (heng.trans hidle) hrest
  refine ⟨_, hrun.trans (run_succ 0 hcmd), rfl, rfl, fun k => ?_⟩
  split
  next hk => simpa using hset k.val hk
  next hk => exact hkept k.val k.isLt (.inr (by omega))

end Sys2Proof.Machine
end

section
/-! SUPPORT. NOP and the transform engine (40_transform.md R140 to R147): the halves of a sequence and the combine step by
index, and what an FFT or IFFT leaves. -/

namespace Sys2Proof.Machine

/-! ## Completion of a command that changes DMEM only -/

/-- The completion of an effect on DMEM, and its frame. -/
theorem completeOk_of_dmemOnly {s u : State} (h : DmemOnly s u) (r0 r1 : Word) :
    CompletedOk s (completeOk u r0 r1) r0 r1 ∧ HostSideUnchanged s (completeOk u r0 r1) ∧
      RingUnchanged s (completeOk u r0 r1) ∧ ReverbUnchanged s (completeOk u r0 r1) ∧
      SettingsUnchanged s (completeOk u r0 r1) := by
  have hring : RingUnchanged s u := ringUnchanged_of_dmemOnly h
  have hreverb : ReverbUnchanged s u := reverbUnchanged_of_dmemOnly h
  have hsettings : SettingsUnchanged s u := settingsUnchanged_of_dmemOnly h
  obtain ⟨d, rfl⟩ := h
  exact ⟨⟨rfl, rfl, rfl, rfl, rfl⟩, by simp [HostSideUnchanged], hring, hreverb, hsettings⟩

/-! ## NOP (40_transform.md R140) -/

/-- Settles O30: NOP has no check and the identity as effect, and the decoder refuses F = 1 at its opcode. -/
theorem nopCompletes : Obligations.NopCompletes := by
  unfold Obligations.NopCompletes
  refine ⟨fun s => ?_, by decide⟩
  rw [exec_eq_runCommand]
  exact runCommand_passed rfl

/-! ## Twiddles (40_transform.md R142) -/

/-- Settles O34: the two exact points by TWROM's own cases, the conjugate by `twi_conj`. -/
theorem twiddleFactors : Obligations.TwiddleFactors := by
  unfold Obligations.TwiddleFactors
  exact ⟨rfl, rfl, fun L k => ⟨rfl, twi_conj L k⟩⟩

/-- The twiddle W of a direction (40_transform.md R143). -/
def twiddleAt : Direction → Nat → Nat → Cpx
  | .fwd => tw
  | .inv => twi

theorem twiddles_getElem? (d : Direction) {L k : Nat} (h : k < 2 ^ (L - 1)) :
    (twiddles d L)[k]? = some (twiddleAt d L k) := by
  cases d <;> simp [twiddles, twiddleAt, h]

/-! ## The combine step by index (40_transform.md R143) -/

theorem getElem?_eq_some_getD {α : Type} {xs : List α} {k : Nat} (d : α) (h : k < xs.length) :
    xs[k]? = some (xs.getD k d) := by
  simp [h]

/-- A sequence of n values, value k of it value f k of another. -/
theorem eq_map_getD {α : Type} {xs ys : List α} {n : Nat} {f : Nat → Nat} (d : α) (hval : ∀ k, ys[k]? = xs[f k]?)
    (hlen : ∀ k, f k < xs.length ↔ k < n) : ys = (List.range n).map fun k => xs.getD (f k) d := by
  apply List.ext_getElem?
  intro k
  rw [hval]
  by_cases hk : k < n
  · rw [getElem?_eq_some_getD d ((hlen k).2 hk)]; simp [hk]
  · rw [List.getElem?_eq_none (Nat.le_of_not_lt (mt (hlen k).1 hk)), List.getElem?_eq_none (by simpa using hk)]

theorem evens_eq_map {α : Type} {xs : List α} {n : Nat} (d : α) (h : xs.length = 2 * n) :
    evens xs = (List.range n).map fun k => xs.getD (2 * k) d :=
  eq_map_getD d (evens_getElem? xs) fun k => by omega

theorem odds_eq_map {α : Type} {xs : List α} {n : Nat} (d : α) (h : xs.length = 2 * n) :
    odds xs = (List.range n).map fun k => xs.getD (2 * k + 1) d :=
  eq_map_getD d (odds_getElem? xs) fun k => by omega

/-- The sums then the differences of one combine step, of halves E and O of n values. -/
theorem combine_getElem? {E O W : List Cpx} {n k : Nat} {w : Cpx} (zero : Cpx) (hE : E.length = n) (hO : O.length = n)
    (hW : W.length = n) (hk : k < n) (hw : W[k]? = some w) :
    let t := List.zipWith cmul W O
    (List.zipWith cadd E t ++ List.zipWith csub E t)[k]? = some (cadd (E.getD k zero) (cmul w (O.getD k zero))) ∧
    (List.zipWith cadd E t ++ List.zipWith csub E t)[k + n]? = some (csub (E.getD k zero) (cmul w (O.getD k zero))) := by
  dsimp only
  have hEk := getElem?_eq_some_getD zero (hE.symm ▸ hk)
  have hOk := getElem?_eq_some_getD zero (hO.symm ▸ hk)
  have hlen : (List.zipWith cadd E (List.zipWith cmul W O)).length = n := by simp [hE, hO, hW]
  constructor
  · rw [List.getElem?_append_left (by omega)]
    simp only [List.getElem?_zipWith, hEk, hOk, hw]
  · rw [List.getElem?_append_right (by omega), hlen, Nat.add_sub_cancel]
    simp only [List.getElem?_zipWith, hEk, hOk, hw]

/-- Settles O32: `dit` on its halves, each read by index, and the combine step by `combine_getElem?`. -/
theorem ditCombine : Obligations.DitCombine := by
  unfold Obligations.DitCombine
  refine ⟨fun a b c d => ⟨rfl, rfl, rfl, rfl⟩, fun d L x => ⟨fun _ => dit_zero d x, fun hx => ?_⟩⟩
  dsimp only
  have hx2 : x.length = 2 * 2 ^ L := by rw [hx, pow_succ, Nat.mul_comm]
  rw [← evens_eq_map _ hx2, ← odds_eq_map _ hx2]
  have hE := dit_length d L (evens x) (by rw [evens_length]; omega)
  have hO := dit_length d L (odds x) (by rw [odds_length]; omega)
  refine ⟨dit_length d _ x hx, fun k hk => ?_⟩
  have hcombine := combine_getElem? ⟨0#32, 0#32⟩ hE hO (twiddles_length d (L + 1)) hk (twiddles_getElem? d hk)
  cases d <;> exact hcombine

/-! ## The inverse scaling (40_transform.md R144) -/

/-- Settles O33: `invFft` is a map over the inverse `dit`, and 2^L has one significant bit. -/
theorem inverseScaling : Obligations.InverseScaling := by
  unfold Obligations.InverseScaling
  intro L x hx hL
  have hsmall : 2 ^ L < 2 ^ 24 := Nat.pow_lt_pow_right (by decide) (by omega)
  refine ⟨invFft_length L x hx, by simpa using (f32_exact hsmall).2, fun k hk => ?_⟩
  have hy := List.getElem?_eq_getElem ((dit_length .inv L x hx).symm ▸ hk)
  refine ⟨_, hy, ?_⟩
  rw [invFft, List.getElem?_map, hy]
  rfl

/-! ## FFT and IFFT (40_transform.md R145, R146) -/

/-- The transform of a command, by its direction. -/
def transformOf (inverse : Bool) : Nat → List Cpx → List Cpx := if inverse then invFft else dit .fwd

theorem transformOf_length (inverse : Bool) (L : Nat) (x : List Cpx) (h : x.length = 2 ^ L) :
    (transformOf inverse L x).length = 2 ^ L := by
  cases inverse
  · exact dit_length .fwd L x h
  · exact invFft_length L x h

theorem exec_transform (inverse : Bool) (s : State) :
    exec (if inverse then .ifft else .fft) s = runCommand checkTransform (transformEffect (transformOf inverse)) s := by
  cases inverse <;> rfl

/-- The checks of a transform: the length first, then the buffer. -/
theorem checkTransform_eq (s : State) :
    checkTransform s =
      if Config.fftLog2Max < argU32 s 1 then some .cfg
      else if Config.dmemWords < argU32 s 0 + 2 * 2 ^ argU32 s 1 then some .range else none := by
  simp [checkTransform, inside]

/-- Complex values written as words read back as complex values. -/
theorem getElem?_eq_dRead_cpxWords (s : State) (a : Nat) {xs : List Cpx} {k : Nat} (h : k < xs.length) :
    xs[k]? = some ⟨(s.dWriteWords a (cpxWords xs)).dRead (a + 2 * k),
      (s.dWriteWords a (cpxWords xs)).dRead (a + 2 * k + 1)⟩ := by
  have hre := cpxWords_getElem?_even xs k
  have him := cpxWords_getElem?_odd xs k
  have hlen := cpxWords_length xs
  rw [List.getElem?_eq_getElem h] at hre him ⊢
  rw [List.getElem?_eq_getElem (by omega)] at hre him
  rw [Nat.add_assoc, dRead_dWriteWords_at s a _ (by omega), dRead_dWriteWords_at s a _ (by omega),
    Option.some.inj hre, Option.some.inj him]

/-- What a transform of the buffer writes: its values at the buffer's addresses, and no other word. -/
theorem transformEffect_dmem {f : Nat → List Cpx → List Cpx} (s : State)
    (hf : ∀ L x, x.length = 2 ^ L → (f L x).length = 2 ^ L) :
    let A := argU32 s 0
    let L := argU32 s 1
    let t := (transformEffect f s).state
    (∀ k, k < 2 ^ L → (f L (s.dReadCpx A (2 ^ L)))[k]? = some ⟨t.dRead (A + 2 * k), t.dRead (A + 2 * k + 1)⟩) ∧
    DmemUnchangedOutside s t (InRegion A (2 * 2 ^ L)) := by
  dsimp only
  have hlen := hf _ _ (dReadCpx_length s (argU32 s 0) (2 ^ argU32 s 1))
  refine ⟨fun k hk => getElem?_eq_dRead_cpxWords s _ (hlen.symm ▸ hk), fun a ha => ?_⟩
  apply dRead_dWriteWords_other
  rw [cpxWords_length, hlen]
  unfold InRegion at ha
  omega

/-- Settles O31: by the three outcomes of the checks; a transform that passes them writes its buffer only. -/
theorem transformCompletes : Obligations.TransformCompletes := by
  unfold Obligations.TransformCompletes
  intro inverse s
  rw [exec_transform]
  have hcheck := checkTransform_eq s
  dsimp only
  split
  next hcfg =>
    rw [if_pos hcfg] at hcheck
    exact ⟨_, runCommand_refused hcheck, rfl⟩
  next hcfg =>
  rw [if_neg hcfg] at hcheck
  split
  next hrange =>
    rw [if_pos hrange] at hcheck
    exact ⟨_, runCommand_refused hcheck, rfl⟩
  next hrange =>
    rw [if_neg hrange] at hcheck
    obtain ⟨hdone, hhost, hring, hreverb, hsettings⟩ :=
      completeOk_of_dmemOnly (dWriteWords_dmemOnly s _ _) (BitVec.ofNat 32 (2 ^ argU32 s 1)) 0#32
    obtain ⟨hwords, hframe⟩ := transformEffect_dmem s (transformOf_length inverse)
    refine ⟨_, runCommand_passed hcheck, hdone, ?_, hframe, hhost, hring, hreverb, hsettings⟩
    cases inverse <;> exact hwords

end Sys2Proof.Machine
end

section
/-! SUPPORT. The filter designer (41_filter.md R160 to R166): its checks, the kernel by index, and exact binary32
arithmetic, from which the taper, the taps and the kernel are symmetric. -/

namespace Sys2Proof.Machine

/-! ## A command by its checks, and the words it writes -/

/-- A command whose check list begins with `c`: it is refused where `c` holds, else it is as the other checks decide. -/
theorem runCommand_completes_ite {check : State → Option ErrCode} {effect : State → Effect} {s : State} {c : Prop}
    [Decidable c] {e : ErrCode} {rest : Option ErrCode} {Q : State → Prop} (hcheck : check s = if c then some e else rest)
    (hrest : ¬ c → check s = rest → ∃ t, runCommand check effect s = .next t ∧ Q t) :
    ∃ t, runCommand check effect s = .next t ∧ if c then t = refusedState s e else Q t := by
  split at hcheck
  next hc => exact ⟨_, runCommand_refused hcheck, by rw [if_pos hc]; rfl⟩
  next hc =>
    obtain ⟨t, hrun, hq⟩ := hrest hc hcheck
    exact ⟨t, hrun, by rwa [if_neg hc]⟩

@[simp] theorem completeOk_dRead (s : State) (r0 r1 : Word) (a : Nat) : (completeOk s r0 r1).dRead a = s.dRead a := rfl

theorem getElem?_eq_dRead_dWriteWords (s : State) (a : Nat) {ws : List Word} {i : Nat} (h : i < ws.length) :
    ws[i]? = some ((s.dWriteWords a ws).dRead (a + i)) := by
  rw [dRead_dWriteWords_at s a ws h, List.getElem?_eq_getElem h]

theorem dRead_dWriteWords_outside (s : State) {a n : Nat} {ws : List Word} (hlen : ws.length = n) {b : Nat}
    (h : ¬ InRegion a n b) : (s.dWriteWords a ws).dRead b = s.dRead b := by
  unfold InRegion at h
  exact dRead_dWriteWords_other s a ws (by omega)

/-! ## The checks of FIR_DESIGN (41_filter.md R161, R162) -/

theorem exec_firDesign (hp : Bool) (s : State) :
    exec (if hp then .firDesignHp else .firDesign) s = runCommand checkFir (firEffect hp) s := by
  cases hp <;> rfl

theorem checkFir_eq (s : State) :
    checkFir s =
      let fs := argF32 s 0
      let fcut := argF32 s 1
      let ftr := argF32 s 2
      let half := fmul fs Config.half
      let q := firQuotient fs ftr
      if ¬ (isFinite fs = true ∧ flt 0#32 fs = true) then some .cfg
      else if ¬ (flt 0#32 fcut = true ∧ flt fcut half = true) then some .cfg
      else if ¬ (flt 0#32 ftr = true ∧ flt ftr half = true) then some .cfg
      else if ¬ (isFinite q = true) then some .cfg
      else if Config.firMaxTaps < firLength q then some .cfg
      else if Config.dmemWords < argU32 s 3 + argU32 s 4 then some .range
      else if argU32 s 4 < firLength q then some .size
      else none := by
  simp only [checkFir, inside, Bool.not_eq_true', ← Bool.not_eq_true, Bool.and_eq_true, decide_eq_true_eq, not_le]

/-! ## The kernel by index (41_filter.md R162 to R166) -/

theorem firTapered_getElem? (α fc : Word) {N n : Nat} (h : n < N) :
    (firTapered α fc N)[n]? = some (fmul (firTap fc ((N - 1) / 2) n) (tukey N n α)) := by
  simp [firTapered, h]

theorem negateOdd_getElem? (h : List Word) (n : Nat) :
    (negateOdd h)[n]? = h[n]?.map fun x => if n % 2 = 1 then fneg x else x := by
  by_cases hn : n < h.length
  · simp [negateOdd, hn]
  · simp [negateOdd, hn]

theorem firKernel_getElem? (α : Word) (hp : Bool) (fc : Word) (N n : Nat) :
    (firKernel α hp fc N)[n]? = (firTapered α fc N)[n]?.map fun x =>
      if hp = true ∧ n % 2 = 1 then fneg (fdiv x (fsum (firTapered α fc N))) else fdiv x (fsum (firTapered α fc N)) := by
  cases hp with
  | false => simp [firKernel]
  | true => simp [firKernel, negateOdd_getElem?, Function.comp_def]

/-- The kernel a design writes, word by word. -/
theorem firEffect_dRead (hp : Bool) (s : State) {n : Nat} (hn : n < firLength (firQuotient (argF32 s 0) (argF32 s 2))) :
    let fc := firFc hp (argF32 s 0) (argF32 s 1)
    let N := firLength (firQuotient (argF32 s 0) (argF32 s 2))
    let x := fmul (firTap fc ((N - 1) / 2) n) (tukey N n Config.alphaFir)
    let S := fsum (firTapered Config.alphaFir fc N)
    (firEffect hp s).state.dRead (argU32 s 3 + n) =
      if hp = true ∧ n % 2 = 1 then fneg (fdiv x S) else fdiv x S := by
  have hword := getElem?_eq_dRead_dWriteWords s (argU32 s 3)
    (hn.trans_eq (firKernel_length Config.alphaFir hp (firFc hp (argF32 s 0) (argF32 s 1)) _).symm)
  rw [firKernel_getElem?, firTapered_getElem? _ _ hn] at hword
  exact (Option.some.inj hword).symm

/-- Settles O35: check by check in order; a design that passes writes its kernel, by `firKernel_getElem?`, and no other
word. -/
theorem firDesignCompletes : Obligations.FirDesignCompletes := by
  unfold Obligations.FirDesignCompletes
  intro hp s
  rw [exec_firDesign]
  refine runCommand_completes_ite (checkFir_eq s) fun _ hcheck => ?_
  refine runCommand_completes_ite hcheck fun _ hcheck => ?_
  refine runCommand_completes_ite hcheck fun _ hcheck => ?_
  refine runCommand_completes_ite hcheck fun _ hcheck => ?_
  refine runCommand_completes_ite hcheck fun _ hcheck => ?_
  refine runCommand_completes_ite hcheck fun _ hcheck => ?_
  refine runCommand_completes_ite hcheck fun _ hcheck => ?_
  obtain ⟨hdone, hhost, hring, hreverb, hsettings⟩ :=
    completeOk_of_dmemOnly (dWriteWords_dmemOnly s _ _) (firEffect hp s).r0 (firEffect hp s).r1
  exact ⟨_, runCommand_passed hcheck, hdone, fun n hn => firEffect_dRead hp s hn,
    fun a ha => dRead_dWriteWords_outside s (firKernel_length _ _ _ _) ha, hhost, hring, hreverb, hsettings⟩

end Sys2Proof.Machine
end

section
/-! SUPPORT. Exact binary32 arithmetic on small multiples of a power of two, and from it the symmetry of the Tukey taper,
of the taps and of the whole kernel (41_filter.md R160, R164 to R166). -/

namespace Sys2Proof.Machine

/-! ## Exact arithmetic -/

/-- The binary32 value nearest to q · 2^e units of 2^-149: that value itself for fewer than 2^24 units. -/
def exactWord (q e : Nat) : Word := fPack false (roundMag (q * 2 ^ e) 1)

theorem f32_eq_exactWord (n : Nat) : f32 n = exactWord n 149 := rfl

theorem exactWord_fields {q e : Nat} (hq : q < 2 ^ 24) (he : e ≤ 253) :
    isFinite (exactWord q e) = true ∧ fSign (exactWord q e) = false ∧ fMag (exactWord q e) = q * 2 ^ e := by
  obtain ⟨k, hk, hmag⟩ := magOf_representable q e hq he
  have hround := roundMag_exact Nat.one_pos hk
  rw [hmag, Nat.mul_one] at hround
  have hlt : k < 2 ^ 31 := by omega
  rw [exactWord, hround, isFinite_iff_lt, fMagBits_fPack _ hlt, fSign_fPack _ hlt, fMag_fPack _ hlt]
  exact ⟨hk, rfl, hmag⟩

theorem fVal_exactWord {q e : Nat} (hq : q < 2 ^ 24) (he : e ≤ 253) : fVal (exactWord q e) = (q * 2 ^ e : Nat) := by
  obtain ⟨-, hsign, hmag⟩ := exactWord_fields hq he
  rw [fVal_eq_signed, hsign, hmag]
  rfl

theorem exactWord_zero (e : Nat) : exactWord 0 e = 0#32 := by
  rw [exactWord, Nat.zero_mul, roundMag_zero Nat.one_pos]
  rfl

/-- Multiplying by 0.5 is exact. -/
theorem fmul_half_exactWord {q e : Nat} (hq : q < 2 ^ 24) (he : e + 1 ≤ 253) :
    fmul 0x3F000000#32 (exactWord q (e + 1)) = exactWord q e := by
  obtain ⟨hfin, hsign, hmag⟩ := exactWord_fields hq he
  obtain ⟨k, hk, hkmag⟩ := magOf_representable q e hq (by omega)
  have hhalf : isFinite 0x3F000000#32 = true ∧ fSign 0x3F000000#32 = false ∧ fMag 0x3F000000#32 = 2 ^ 148 := by decide
  obtain ⟨hhalfFin, hhalfSign, hhalfMag⟩ := hhalf
  have hprod : 2 ^ 148 * (q * 2 ^ (e + 1)) = magOf k * 2 ^ 149 := by rw [hkmag]; ring
  have hone := roundMag_exact Nat.one_pos hk
  rw [Nat.mul_one, hkmag] at hone
  rw [fmul_finite hhalfFin hfin, hhalfSign, hsign, hhalfMag, hmag, hprod, roundMag_exact (by decide) hk, exactWord, hone]
  rfl

/-- A difference that is a small multiple of a power of two is exact. -/
theorem fsub_eq_exactWord {x y : Word} {q e : Nat} (hx : isFinite x = true) (hy : isFinite y = true)
    (hsign : fSign x = false) (hdiff : fVal x - fVal y = (q * 2 ^ e : Nat)) : fsub x y = exactWord q e := by
  have hsum : fVal x + fVal (fneg y) = (q * 2 ^ e : Nat) := by rw [fVal_fneg, ← sub_eq_add_neg, hdiff]
  have hpos : sumSign x (fneg y) = false := by
    rw [sumSign, hsum, hsign, Bool.false_and]
    split
    · rfl
    · simp
  rw [fsub, fadd_finite hx ((isFinite_fneg y).trans hy), hpos, hsum, Int.natAbs_natCast, exactWord]

theorem flt_exactWord {p q d e : Nat} (hp : p < 2 ^ 24) (hq : q < 2 ^ 24) (hd : d ≤ 253) (he : e ≤ 253) :
    flt (exactWord p d) (exactWord q e) = true ↔ p * 2 ^ d < q * 2 ^ e := by
  obtain ⟨hpfin, -⟩ := exactWord_fields hp hd
  obtain ⟨hqfin, -⟩ := exactWord_fields hq he
  rw [flt_iff_value (isNaN_of_isFinite hpfin) (isNaN_of_isFinite hqfin), extendedValue, extendedValue,
    isInf_of_isFinite hpfin, isInf_of_isFinite hqfin, if_neg Bool.false_ne_true, if_neg Bool.false_ne_true,
    fVal_exactWord hp hd, fVal_exactWord hq he, Int.ofNat_lt]

/-! ## The taper with α = 0.5 (41_filter.md R160) -/

/-- The slope of the taper of L + 1 points with α = 0.5, k points from its end. -/
def tukeySlope (L k : Nat) : Word :=
  fmul 0x3F000000#32
    (fsub 0x3F800000#32 (fCos (fdiv (fmul 0x40C90FDB#32 (exactWord k 149)) (exactWord L 148))))

/-- The taper with α = 0.5, its comparisons on integers. -/
theorem tukey_half {L n : Nat} (hpos : 0 < L) (hL : L < 2 ^ 20) (hn : n ≤ L) :
    tukey (L + 1) n 0x3F000000#32 =
      if 4 * n < L then tukeySlope L n else if 4 * (L - n) < L then tukeySlope L (L - n) else 0x3F800000#32 := by
  have hL24 : L < 2 ^ 24 := by omega
  have h3L24 : 3 * L < 2 ^ 24 := by omega
  have hn24 : n < 2 ^ 24 := by omega
  obtain ⟨hlmFin, hlmSign, -⟩ := exactWord_fields hL24 (show 149 ≤ 253 by decide)
  obtain ⟨htFin, -⟩ := exactWord_fields hn24 (show 149 ≤ 253 by decide)
  obtain ⟨heFin, -⟩ := exactWord_fields hL24 (show 147 ≤ 253 by decide)
  have haL : fmul 0x3F000000#32 (exactWord L 149) = exactWord L 148 := fmul_half_exactWord hL24 (by decide)
  have he : fmul (exactWord L 148) Config.half = exactWord L 147 :=
    (fmul_comm _ _).trans (fmul_half_exactWord hL24 (by decide))
  have hright : fsub (exactWord L 149) (exactWord L 147) = exactWord (3 * L) 147 := by
    refine fsub_eq_exactWord hlmFin heFin hlmSign ?_
    rw [fVal_exactWord hL24 (by decide), fVal_exactWord hL24 (by decide)]
    push_cast
    ring
  have hmirror : fsub (exactWord L 149) (exactWord n 149) = exactWord (L - n) 149 := by
    refine fsub_eq_exactWord hlmFin htFin hlmSign ?_
    rw [fVal_exactWord hL24 (by decide), fVal_exactWord hn24 (by decide)]
    push_cast [Nat.cast_sub hn]
    ring
  have hstart : flt (exactWord n 149) (exactWord L 147) = true ↔ 4 * n < L := by
    rw [flt_exactWord hn24 hL24 (by decide) (by decide)]
    omega
  have hend : flt (exactWord (3 * L) 147) (exactWord n 149) = true ↔ 4 * (L - n) < L := by
    rw [flt_exactWord h3L24 hn24 (by decide) (by decide)]
    omega
  rw [tukey, if_neg (by omega)]
  dsimp only
  rw [Nat.add_sub_cancel, f32_eq_exactWord, f32_eq_exactWord, haL, he, hright, hmirror]
  simp only [hstart, hend]
  rfl

theorem tukey_half_symm {L n : Nat} (hL : L < 2 ^ 20) (hn : n ≤ L) :
    tukey (L + 1) n 0x3F000000#32 = tukey (L + 1) (L - n) 0x3F000000#32 := by
  rcases Nat.eq_zero_or_pos L with rfl | hpos
  · rw [Nat.le_zero.1 hn]
  rw [tukey_half hpos hL hn, tukey_half hpos hL (Nat.sub_le L n), Nat.sub_sub_self hn]
  by_cases hstart : 4 * n < L
  · rw [if_pos hstart, if_neg (by omega), if_pos hstart]
  · rw [if_neg hstart, if_neg hstart]

theorem tukeySlope_zero {L : Nat} (hpos : 0 < L) (hL : L < 2 ^ 24) : tukeySlope L 0 = 0#32 := by
  obtain ⟨hfin, hsign, hmag⟩ := exactWord_fields hL (show 148 ≤ 253 by decide)
  have hnz : isZero (exactWord L 148) = false := by
    rw [← Bool.not_eq_true, ← fMag_eq_zero_iff, hmag]
    positivity
  have hnum : fmul 0x40C90FDB#32 0#32 = 0#32 := by decide
  have hquot : fdiv 0#32 (exactWord L 148) = 0#32 := by
    rw [fdiv_finite (by decide) hfin hnz, hsign, show fMag 0#32 = 0 by decide, Nat.zero_mul,
      roundMag_zero (by rw [hmag]; positivity)]
    decide
  rw [tukeySlope, exactWord_zero, hnum, hquot, fCos_zero (by decide)]
  decide

theorem tukey_half_start {L : Nat} (hpos : 0 < L) (hL : L < 2 ^ 20) : tukey (L + 1) 0 0x3F000000#32 = 0#32 := by
  rw [tukey_half hpos hL (Nat.zero_le L), if_pos (by omega), tukeySlope_zero hpos (by omega)]

/-! ## The taps: sign changes up to the canonical NaN (41_filter.md R164) -/

/-- The negated word, a NaN as the canonical NaN: what an odd operation answers for a negated operand. -/
def negCanon (x : Word) : Word := if isNaN x = true then qNaN else fneg x

@[simp] theorem fMag_fneg (x : Word) : fMag (fneg x) = fMag x := by
  rw [fMag_eq_magOf, fMagBits_fneg, ← fMag_eq_magOf]

theorem negCanon_of_nan {x : Word} (h : isNaN x = true) : negCanon x = qNaN := if_pos h

theorem negCanon_of_not_nan {x : Word} (h : isNaN x = false) : negCanon x = fneg x := if_neg (by simp [h])

theorem negCanon_fPack (sg : Bool) {m : Nat} (h : m ≤ 0x7F800000) : negCanon (fPack sg m) = fPack (!sg) m := by
  rw [negCanon_of_not_nan (isNaN_fPack_of_le sg h), fneg_fPack sg (by omega)]

theorem fmul_fneg_right (x y : Word) : fmul x (fneg y) = negCanon (fmul x y) := by
  simp only [fmul, isNaN_fneg, isInf_fneg, isZero_fneg, fSign_fneg, fMag_fneg, Bool.bne_not]
  split
  · rfl
  split
  · rfl
  split
  · exact (negCanon_fPack _ le_rfl).symm
  · exact (negCanon_fPack _ (roundMag_le _ _)).symm

theorem fSin_negCanon (x : Word) : fSin (negCanon x) = negCanon (fSin x) := by
  cases h : isNaN x with
  | true =>
    have hsin : fSin x = qNaN := oddExtension_nan _ h
    rw [negCanon_of_nan h, hsin, negCanon_of_nan isNaN_qNaN]
    exact oddExtension_nan _ isNaN_qNaN
  | false =>
    rw [negCanon_of_not_nan h]
    exact oddExtension_fneg _ x

theorem fdiv_fneg_fneg (x y : Word) : fdiv (fneg x) (fneg y) = fdiv x y := by
  simp only [fdiv, isNaN_fneg, isInf_fneg, isZero_fneg, fSign_fneg, fMag_fneg, Bool.not_bne_not]

theorem fdiv_negCanon (x y : Word) : fdiv (negCanon x) (negCanon y) = fdiv x y := by
  cases hx : isNaN x with
  | true => rw [negCanon_of_nan hx, fdiv_nan (.inl isNaN_qNaN), fdiv_nan (.inl hx)]
  | false =>
    cases hy : isNaN y with
    | true => rw [negCanon_of_nan hy, fdiv_nan (.inr isNaN_qNaN), fdiv_nan (.inr hy)]
    | false => rw [negCanon_of_not_nan hx, negCanon_of_not_nan hy, fdiv_fneg_fneg]

/-- The argument of the sine and the divisor change sign together. -/
theorem firTap_symm (fc : Word) {c m : Nat} (h : m ≤ c) : firTap fc c (c + m) = firTap fc c (c - m) := by
  rcases Nat.eq_zero_or_pos m with rfl | hpos
  · rfl
  have hright : ((c + m : Nat) : Int) - c = m := by omega
  have hleft : ((c - m : Nat) : Int) - c = -m := by omega
  simp only [firTap, hright, hleft]
  rw [if_neg (by omega), if_neg (by omega), f32Int_neg hpos, f32Int_ofNat, fmul_fneg_right, fmul_fneg_right,
    fSin_negCanon, fdiv_negCanon]

/-! ## The kernel (41_filter.md R165, R166) -/

theorem firTapered_half_symm (fc : Word) {c k : Nat} (hc : 2 * c + 1 ≤ 2 ^ 20) (hk : k ≤ 2 * c) :
    (firTapered 0x3F000000#32 fc (2 * c + 1))[k]? = (firTapered 0x3F000000#32 fc (2 * c + 1))[2 * c - k]? := by
  have hcenter : (2 * c + 1 - 1) / 2 = c := by omega
  rw [firTapered_getElem? _ _ (by omega), firTapered_getElem? _ _ (by omega), hcenter,
    tukey_half_symm (by omega) hk]
  have htap : firTap fc c k = firTap fc c (2 * c - k) := by
    rcases Nat.le_total k c with hle | hle
    · have := firTap_symm fc (Nat.sub_le c k)
      rw [Nat.sub_sub_self hle] at this
      rw [← this]; congr 1; omega
    · have := firTap_symm fc (show k - c ≤ c by omega)
      rw [Nat.add_sub_cancel' hle] at this
      rw [this]; congr 1; omega
  rw [htap]

/-- Settles O36: the taper by exact arithmetic on integers, the taps by their odd parts, the kernel by both. -/
theorem firTapSymmetry : Obligations.FirTapSymmetry := by
  unfold Obligations.FirTapSymmetry
  refine ⟨fun M n α => rfl, fun M n hM hn => ?_, fun M h2 hM => ?_, fun fc c m h => firTap_symm fc h,
    fun hp fc c k hc hk => ?_⟩
  · obtain ⟨L, rfl⟩ : ∃ L, M = L + 1 := ⟨M - 1, by omega⟩
    exact tukey_half_symm (by omega) (by omega)
  · obtain ⟨L, rfl⟩ : ∃ L, M = L + 1 := ⟨M - 1, by omega⟩
    have hstart := tukey_half_start (L := L) (by omega) (by omega)
    have hsymm := tukey_half_symm (L := L) (n := L) (by omega) le_rfl
    rw [Nat.sub_self] at hsymm
    exact ⟨hstart, hsymm.trans hstart⟩
  · have hparity : (2 * c - k) % 2 = k % 2 := by omega
    rw [firKernel_getElem?, firKernel_getElem?, hparity, firTapered_half_symm fc hc hk]

end Sys2Proof.Machine
end

section
/-! SUPPORT. Overlap-add contexts (41_filter.md R170 to R173): NEXTPOW2 and the ceiling as least numbers, VALIDCTX by what
it requires, and the context an OLA_INIT builds. -/

namespace Sys2Proof.Machine

/-! ## The padded length and the depth (41_filter.md R171, R173) -/

theorem ceilDiv_le_iff {a b d : Nat} (hb : 0 < b) : ceilDiv a b ≤ d ↔ a ≤ d * b := by
  rw [ceilDiv, ← Nat.lt_succ_iff, Nat.div_lt_iff_lt_mul hb, Nat.succ_mul]
  omega

theorem le_ceilDiv_mul (a : Nat) {b : Nat} (hb : 0 < b) : a ≤ ceilDiv a b * b := (ceilDiv_le_iff hb).1 le_rfl

theorem eq_ceilDiv_iff {a b d : Nat} (hb : 0 < b) : d = ceilDiv a b ↔ a ≤ d * b ∧ ∀ d', a ≤ d' * b → d ≤ d' := by
  constructor
  · rintro rfl
    exact ⟨le_ceilDiv_mul a hb, fun d' => (ceilDiv_le_iff hb).2⟩
  · rintro ⟨hcovers, hleast⟩
    exact le_antisymm (hleast _ (le_ceilDiv_mul a hb)) ((ceilDiv_le_iff hb).2 hcovers)

/-- The exponent of NEXTPOW2 is the least of a power of two not below n. -/
theorem log2_nextPow2_least {n e : Nat} (h : n ≤ 2 ^ e) : Nat.log2 (nextPow2 n) ≤ e :=
  (Nat.pow_le_pow_iff_right (by decide)).1 (nextPow2_eq_two_pow n ▸ nextPow2_least n e h)

theorem eq_nextPow2_iff {n p : Nat} :
    p = nextPow2 n ↔ ∃ e, p = 2 ^ e ∧ n ≤ 2 ^ e ∧ ∀ e', n ≤ 2 ^ e' → e ≤ e' := by
  constructor
  · rintro rfl
    exact ⟨_, nextPow2_eq_two_pow n, nextPow2_eq_two_pow n ▸ nextPow2_ge n, fun _ => log2_nextPow2_least⟩
  · rintro ⟨e, rfl, hge, hleast⟩
    have hexp := hleast _ (nextPow2_eq_two_pow n ▸ nextPow2_ge n)
    rw [nextPow2_eq_two_pow n, le_antisymm hexp (log2_nextPow2_least hge)]

/-- Settles O39: the least power of two and the least depth; a chunk has at most K + B - 1 outputs of its convolution. -/
theorem paddedLengthAndDepth : Obligations.PaddedLengthAndDepth := by
  unfold Obligations.PaddedLengthAndDepth
  intro K B hK hB
  dsimp only
  have hge := nextPow2_ge (K + B - 1)
  exact ⟨⟨_, nextPow2_eq_two_pow _, fun _ => log2_nextPow2_least⟩, hge, by omega, ceilDiv_pos (nextPow2_pos _) hB,
    le_ceilDiv_mul _ hB, fun d => (ceilDiv_le_iff hB).2⟩

/-! ## VALIDCTX (41_filter.md R171) -/

theorem validCtx_eq (s : State) (cx : Nat) :
    validCtx s cx =
      if Config.dmemWords < cx + 8 then some .range else if ctxConsistent s cx = true then none else some .ctx := by
  simp only [validCtx, inside, Bool.not_eq_true', decide_eq_false_iff_not, not_le]
  cases ctxConsistent s cx <;> rfl

theorem ctxHeader_eq_zero_iff (s : State) (cx j : Nat) : ctxHeader s cx j = 0 ↔ s.dRead (cx + j) = 0#32 := by
  rw [ctxHeader, ← BitVec.toNat_inj]
  rfl

theorem ctxHeader_eq_one_iff (s : State) (cx j : Nat) : ctxHeader s cx j = 1 ↔ s.dRead (cx + j) = 1#32 := by
  rw [ctxHeader, ← BitVec.toNat_inj]
  rfl

/-- The padded length of a header, with the bound on its exponent. -/
theorem nextPow2_bounded_iff {n p m : Nat} :
    p = nextPow2 n ∧ Nat.log2 p ≤ m ↔ ∃ e, p = 2 ^ e ∧ e ≤ m ∧ n ≤ 2 ^ e ∧ ∀ e', n ≤ 2 ^ e' → e ≤ e' := by
  rw [eq_nextPow2_iff]
  constructor
  · rintro ⟨⟨e, rfl, hleast⟩, hm⟩
    exact ⟨e, rfl, by rwa [Nat.log2_two_pow] at hm, hleast⟩
  · rintro ⟨e, rfl, hm, hleast⟩
    exact ⟨⟨e, rfl, hleast⟩, by rwa [Nat.log2_two_pow]⟩

/-- The header conditions, with NEXTPOW2 and the ceiling by what they mean. -/
theorem ctxConsistent_iff (s : State) (cx : Nat) :
    let K := ctxHeader s cx 1
    let B := ctxHeader s cx 2
    let P := ctxHeader s cx 3
    let DEPTH := ctxHeader s cx 4
    ctxConsistent s cx = true ↔
      s.dRead cx = 0x4F4C4131#32 ∧ 1 ≤ K ∧ 1 ≤ B ∧
      (∃ e, P = 2 ^ e ∧ e ≤ Config.fftLog2Max ∧ K + B - 1 ≤ 2 ^ e ∧ ∀ e', K + B - 1 ≤ 2 ^ e' → e ≤ e') ∧
      P ≤ DEPTH * B ∧ (∀ d, P ≤ d * B → DEPTH ≤ d) ∧
      ctxHeader s cx 5 < DEPTH ∧ (s.dRead (cx + 6) = 0#32 ∨ s.dRead (cx + 6) = 1#32) ∧
      s.dRead (cx + 7) = 0#32 ∧ cx + (8 + 2 * P + 2 * P * DEPTH) ≤ Config.dmemWords := by
  dsimp only
  rw [← nextPow2_bounded_iff, ← ctxHeader_eq_zero_iff, ← ctxHeader_eq_zero_iff, ← ctxHeader_eq_one_iff,
    ← Nat.le_one_iff_eq_zero_or_eq_one]
  simp only [ctxConsistent, Bool.and_eq_true, decide_eq_true_eq, inside_iff, ctxSize, and_assoc]
  refine and_congr_right fun _ => and_congr_right fun _ => and_congr_right fun hB => and_congr_right fun _ =>
    and_congr_right fun _ => ?_
  rw [eq_ceilDiv_iff hB, and_assoc]

/-- Settles O37: the header's fit, then `ctxConsistent_iff`. -/
theorem validContext : Obligations.ValidContext := by
  unfold Obligations.ValidContext
  intro s cx
  have hconsistent := ctxConsistent_iff s cx
  dsimp only at hconsistent ⊢
  rw [← hconsistent, validCtx_eq]
  refine ⟨fun _ => rfl, fun hout => if_pos hout, fun hin => ?_⟩
  rw [if_neg (by omega)]
  cases ctxConsistent s cx <;> simp

@[simp] theorem ctxHeader_completeOk (s : State) (r0 r1 : Word) (cx j : Nat) :
    ctxHeader (completeOk s r0 r1) cx j = ctxHeader s cx j := rfl

@[simp] theorem validCtx_completeOk (s : State) (r0 r1 : Word) (cx : Nat) :
    validCtx (completeOk s r0 r1) cx = validCtx s cx := rfl

@[simp] theorem dmemUnchangedOutside_completeOk (s t : State) (r0 r1 : Word) (written : Nat → Prop) :
    DmemUnchangedOutside s (completeOk t r0 r1) written ↔ DmemUnchangedOutside s t written := Iff.rfl

/-! ## OLA_INIT (41_filter.md R170, R172) -/

theorem exec_olaInit (win : Bool) (s : State) :
    exec (if win then .olaInitWin else .olaInit) s = runCommand checkOlaInit (olaInitEffect win) s := by
  cases win <;> rfl

theorem overlap_iff_bounds {a n b k : Nat} :
    overlap ⟨a, n⟩ ⟨b, k⟩ = true ↔ 0 < n ∧ 0 < k ∧ a < b + k ∧ b < a + n := by
  simp only [overlap, Bool.and_eq_true, decide_eq_true_eq, and_assoc]

theorem overlap_iff_lt {a n b k : Nat} (hn : 0 < n) (hk : 0 < k) :
    overlap ⟨a, n⟩ ⟨b, k⟩ = true ↔ a < b + k ∧ b < a + n := by
  simp only [overlap_iff_bounds, hn, hk, true_and]

theorem ctxSize_pos (p depth : Nat) : 0 < ctxSize p depth := by
  unfold ctxSize
  omega

theorem checkOlaInit_eq (s : State) :
    checkOlaInit s =
      let CX := argU32 s 0
      let KA := argU32 s 1
      let K := argU32 s 2
      let B := argU32 s 3
      let P := nextPow2 (K + B - 1)
      let size := ctxSize P (ceilDiv P B)
      if K = 0 ∨ B = 0 then some .cfg
      else if Config.fftLog2Max < Nat.log2 P then some .cfg
      else if Config.dmemWords < KA + K then some .range
      else if Config.dmemWords < CX + size then some .range
      else if KA < CX + size ∧ CX < KA + K then some .overlap
      else none := by
  dsimp only [checkOlaInit]
  by_cases hzero : argU32 s 2 = 0 ∨ argU32 s 3 = 0
  · rw [if_pos hzero, if_pos hzero]
  · have hK : 0 < argU32 s 2 := by omega
    simp only [if_neg hzero, inside, Bool.not_eq_true', decide_eq_false_iff_not, not_le,
      overlap_iff_lt hK (ctxSize_pos _ _)]

/-- The zero-padded kernel by index. -/
theorem paddedKernel_eq (s : State) (ka : Nat) {k p : Nat} (h : k ≤ p) :
    paddedKernel s ka k p = (List.range p).map fun i => ⟨if i < k then s.dRead (ka + i) else 0#32, 0#32⟩ := by
  apply List.ext_getElem
  · rw [paddedKernel_length h]; simp
  · intro i _ _
    by_cases hi : i < k
    · simp [paddedKernel, Ram.readWords, State.dRead, hi]
    · simp [paddedKernel, Ram.readWords, List.getElem_append, hi]

theorem Ram.writeWords_append (m : Ram) (a : Nat) (xs ys : List Word) :
    m.writeWords a (xs ++ ys) = (m.writeWords a xs).writeWords (a + xs.length) ys := by
  induction xs generalizing m a with
  | nil => rfl
  | cons x xs ih =>
    rw [List.cons_append, Ram.writeWords, ih, Ram.writeWords, List.length_cons, Nat.add_right_comm, Nat.add_assoc]

/-- The eight header words of a new context (41_filter.md R170). -/
def newHeader (k b p depth : Nat) (win : Bool) : List Word :=
  [olaMagic, BitVec.ofNat 32 k, BitVec.ofNat 32 b, BitVec.ofNat 32 p, BitVec.ofNat 32 depth, 0#32,
    if win then 1#32 else 0#32, 0#32]

/-- A new context is written as its header, then H, then the zeroed segments. -/
theorem dWriteWords_newContext (s : State) (cx k b : Nat) {p : Nat} (depth : Nat) (win : Bool) {H : List Cpx}
    (hH : H.length = p) :
    s.dWriteWords cx (newContext k b p depth win H) =
      ((s.dWriteWords cx (newHeader k b p depth win)).dWriteWords (cx + 8) (cpxWords H)).dWriteWords (cx + 8 + 2 * p)
        (List.replicate (2 * p * depth) 0#32) := by
  have hsplit : newContext k b p depth win H =
      newHeader k b p depth win ++ (cpxWords H ++ List.replicate (2 * p * depth) 0#32) := List.append_assoc _ _ _
  simp only [State.dWriteWords, hsplit, Ram.writeWords_append, cpxWords_length, hH]
  rfl

section
variable (s : State) (cx k b depth : Nat) (win : Bool) {p : Nat} {H : List Cpx} (hH : H.length = p)
include hH

theorem newContext_header {j : Nat} (hj : j < 8) :
    (s.dWriteWords cx (newContext k b p depth win H)).dRead (cx + j) = (newHeader k b p depth win)[j] := by
  rw [dWriteWords_newContext s cx k b depth win hH, dRead_dWriteWords_other _ _ _ (by omega),
    dRead_dWriteWords_other _ _ _ (by omega), dRead_dWriteWords_at _ _ _ hj]

theorem newContext_spectrum {i : Nat} (hi : i < p) :
    let t := s.dWriteWords cx (newContext k b p depth win H)
    H[i]? = some ⟨t.dRead (cx + 8 + 2 * i), t.dRead (cx + 8 + 2 * i + 1)⟩ := by
  dsimp only
  rw [dWriteWords_newContext s cx k b depth win hH, dRead_dWriteWords_other _ _ _ (b := cx + 8 + 2 * i) (by omega),
    dRead_dWriteWords_other _ _ _ (b := cx + 8 + 2 * i + 1) (by omega)]
  exact getElem?_eq_dRead_cpxWords _ _ (hH.symm ▸ hi)

theorem newContext_segments {a : Nat} (ha : InRegion (cx + 8 + 2 * p) (2 * p * depth) a) :
    (s.dWriteWords cx (newContext k b p depth win H)).dRead a = 0#32 := by
  obtain ⟨hlow, hhigh⟩ := ha
  obtain ⟨j, rfl⟩ := Nat.exists_eq_add_of_le hlow
  rw [dWriteWords_newContext s cx k b depth win hH, dRead_dWriteWords_at _ _ _ (by rw [List.length_replicate]; omega),
    List.getElem_replicate]

end

/-- The header of the context at `cx`, word by word (41_filter.md R170), with the cursor at 0. -/
structure NewHeader (t : State) (cx k b p depth : Nat) (win : Bool) : Prop where
  magic    : t.dRead cx = olaMagic
  kernel   : ctxHeader t cx 1 = k
  block    : ctxHeader t cx 2 = b
  padded   : ctxHeader t cx 3 = p
  segments : ctxHeader t cx 4 = depth
  cursor   : ctxHeader t cx 5 = 0
  window   : ctxHeader t cx 6 = if win then 1 else 0
  reserved : ctxHeader t cx 7 = 0

theorem newContext_newHeader (s : State) (cx : Nat) {k b p depth : Nat} (win : Bool) {H : List Cpx} (hH : H.length = p)
    (hk : k < 2 ^ 32) (hb : b < 2 ^ 32) (hp : p < 2 ^ 32) (hdepth : depth < 2 ^ 32) :
    NewHeader (s.dWriteWords cx (newContext k b p depth win H)) cx k b p depth win := by
  have hread (j : Nat) (hj : j < 8) := newContext_header s cx k b depth win hH hj
  have hword (j n : Nat) (hj : j < 8) (hn : n < 2 ^ 32) (hval : (newHeader k b p depth win)[j] = BitVec.ofNat 32 n) :
      ctxHeader (s.dWriteWords cx (newContext k b p depth win H)) cx j = n := by
    rw [ctxHeader, hread j hj, hval, BitVec.toNat_ofNat, Nat.mod_eq_of_lt hn]
  exact ⟨hread 0 (by decide), hword 1 k (by decide) hk rfl, hword 2 b (by decide) hb rfl,
    hword 3 p (by decide) hp rfl, hword 4 depth (by decide) hdepth rfl, hword 5 0 (by decide) (by decide) rfl,
    hword 6 _ (by decide) (by cases win <;> decide) (by cases win <;> rfl), hword 7 0 (by decide) (by decide) rfl⟩

theorem olaInitEffect_newHeader (win : Bool) {s : State} (h : checkOlaInit s = none) :
    let P := nextPow2 (argU32 s 2 + argU32 s 3 - 1)
    NewHeader (olaInitEffect win s).state (argU32 s 0) (argU32 s 2) (argU32 s 3) P (ceilDiv P (argU32 s 3)) win := by
  obtain ⟨-, hb, hlog, -⟩ := checkOlaInit_none h
  have hp : nextPow2 (argU32 s 2 + argU32 s 3 - 1) < 2 ^ 32 := by
    rw [nextPow2_eq_two_pow]
    exact Nat.pow_lt_pow_right (by decide) (Nat.lt_of_le_of_lt hlog (by decide))
  exact newContext_newHeader s _ win (olaInit_kernel_length s hb) (BitVec.isLt _) (BitVec.isLt _) hp
    (Nat.lt_of_le_of_lt (ceilDiv_le hb) hp)

/-- The kernel's transform and the zeroed segments of a new context, and the words outside it. -/
theorem olaInitEffect_words (win : Bool) {s : State} (h : checkOlaInit s = none) :
    let CX := argU32 s 0
    let K := argU32 s 2
    let P := nextPow2 (K + argU32 s 3 - 1)
    let DEPTH := ceilDiv P (argU32 s 3)
    let t := (olaInitEffect win s).state
    let kernel : List Cpx := (List.range P).map fun i => ⟨if i < K then s.dRead (argU32 s 1 + i) else 0#32, 0#32⟩
    (∀ i, i < P →
      (dit .fwd (Nat.log2 P) kernel)[i]? = some ⟨t.dRead (CX + 8 + 2 * i), t.dRead (CX + 9 + 2 * i)⟩) ∧
    (∀ a, InRegion (CX + 8 + 2 * P) (2 * P * DEPTH) a → t.dRead a = 0#32) ∧
    DmemUnchangedOutside s t (InRegion CX (ctxSize P DEPTH)) := by
  obtain ⟨-, hb, -⟩ := checkOlaInit_none h
  have hH := olaInit_kernel_length s (ka := argU32 s 1) (k := argU32 s 2) hb
  have hfits : argU32 s 2 ≤ nextPow2 (argU32 s 2 + argU32 s 3 - 1) := by
    have := nextPow2_ge (argU32 s 2 + argU32 s 3 - 1)
    omega
  dsimp only [olaInitEffect]
  refine ⟨fun i hi => ?_, fun a ha => newContext_segments s _ _ _ _ win hH ha,
    fun a ha => dRead_dWriteWords_outside s (newContext_length hH) ha⟩
  have hword := newContext_spectrum s (argU32 s 0) (argU32 s 2) (argU32 s 3)
    (ceilDiv (nextPow2 (argU32 s 2 + argU32 s 3 - 1)) (argU32 s 3)) win hH hi
  rw [paddedKernel_eq s _ hfits] at hword ⊢
  rw [hword, show argU32 s 0 + 9 + 2 * i = argU32 s 0 + 8 + 2 * i + 1 by omega]

/-- Settles O38: check by check in order; a passed OLA_INIT writes header, H and zeroed segments, and no other word. -/
theorem olaInitCompletes : Obligations.OlaInitCompletes := by
  unfold Obligations.OlaInitCompletes
  intro win s
  rw [exec_olaInit]
  refine runCommand_completes_ite (checkOlaInit_eq s) fun _ hcheck => ?_
  refine runCommand_completes_ite hcheck fun _ hcheck => ?_
  refine runCommand_completes_ite hcheck fun _ hcheck => ?_
  refine runCommand_completes_ite hcheck fun _ hcheck => ?_
  refine runCommand_completes_ite hcheck fun _ hcheck => ?_
  obtain ⟨hdone, hhost, hring, hreverb, hsettings⟩ := completeOk_of_dmemOnly (u := (olaInitEffect win s).state)
    (dWriteWords_dmemOnly s _ _) (olaInitEffect win s).r0 (olaInitEffect win s).r1
  obtain ⟨hmagic, hkernel, hblock, hpadded, hsegments, hcursor, hwindow, hreserved⟩ := olaInitEffect_newHeader win hcheck
  obtain ⟨hspectrum, hzero, hframe⟩ := olaInitEffect_words win hcheck
  refine ⟨_, runCommand_passed hcheck, hdone, ?_⟩
  simp only [completeOk_dRead, ctxHeader_completeOk, dmemUnchangedOutside_completeOk]
  exact ⟨hmagic, hkernel, hblock, hpadded, hsegments, hcursor, hwindow, hreserved, hspectrum, hzero, hframe, hhost, hring,
    hreverb, hsettings⟩

/-- Settles O40: the header of a new context meets the conditions of VALIDCTX. -/
theorem olaInitMakesValidContext : Obligations.OlaInitMakesValidContext := by
  unfold Obligations.OlaInitMakesValidContext
  intro win s hcheck
  refine ⟨_, (exec_olaInit win s).trans (runCommand_passed hcheck), ?_⟩
  obtain ⟨hk, hb, hlog, -, hin, -⟩ := checkOlaInit_none hcheck
  obtain ⟨hmagic, hkernel, hblock, hpadded, hsegments, hcursor, hwindow, hreserved⟩ := olaInitEffect_newHeader win hcheck
  have hconsistent : ctxConsistent (olaInitEffect win s).state (argU32 s 0) = true := by
    have hwin : ctxHeader (olaInitEffect win s).state (argU32 s 0) 6 ≤ 1 := by rw [hwindow]; cases win <;> decide
    simp only [ctxConsistent, Bool.and_eq_true, decide_eq_true_eq, inside_iff, hmagic, hkernel, hblock, hpadded,
      hsegments, hcursor, hreserved, hwin, hlog, hin, ceilDiv_pos (nextPow2_pos _) hb, and_true, true_and]
    exact ⟨hk, hb⟩
  have hheader : ¬ Config.dmemWords < argU32 s 0 + 8 := by unfold ctxSize at hin; omega
  rw [validCtx_completeOk, validCtx_eq, if_neg hheader, if_pos hconsistent]

end Sys2Proof.Machine
end

section
/-! SUPPORT. Chunks through an overlap-add context (41_filter.md R174 to R178): what one chunk writes and outputs, that it
depends on the words of its context only, and OLA_APPLY as a run of consecutive chunks. -/

namespace Sys2Proof.Machine

/-! ## One chunk (41_filter.md R175 to R177) -/

/-- A chunk, zero-padded, by index. -/
theorem chunkSegment_eq (α : Word) (win : Bool) {p : Nat} {xs : List Word} (h : xs.length ≤ p) :
    chunkSegment α win p xs = (List.range p).map fun i =>
      ⟨if win = true then fmul (xs.getD i 0#32) (tukey p i α) else xs.getD i 0#32, 0#32⟩ := by
  apply List.ext_getElem
  · rw [chunkSegment_length _ _ h]; simp
  · intro i _ _
    by_cases hi : i < xs.length <;> simp [chunkSegment, List.getElem_append, hi]

/-- The product of a spectrum with H, by index. -/
theorem zipWith_cmul_dReadCpx (s : State) (a : Nat) {p : Nat} {spec : List Cpx} (h : spec.length = p) (zero : Cpx) :
    List.zipWith cmul spec (s.dReadCpx a p) =
      (List.range p).map fun i => cmul (spec.getD i zero) ⟨s.dRead (a + 2 * i), s.dRead (a + 2 * i + 1)⟩ := by
  apply List.ext_getElem
  · simp [h]
  · intro i hi _
    have hlt : i < spec.length := by simp at hi; omega
    simp [State.dReadCpx, hlt]

/-- The filtered segment written out: the padded, optionally windowed chunk, its product with H, transformed back. -/
theorem filteredSegment_eq {c : OlaShape} {s : State} {xs : List Word} (hf : c.Fits s) (hx : xs.length ≤ c.p) :
    let chunk : List Cpx := (List.range c.p).map fun i =>
      ⟨if s.dRead (c.cx + 6) = 1#32 then fmul (xs.getD i 0#32) (tukey c.p i Config.alphaOla) else xs.getD i 0#32, 0#32⟩
    let spec := dit .fwd (Nat.log2 c.p) chunk
    filteredSegment c s xs = invFft (Nat.log2 c.p) ((List.range c.p).map fun i =>
      cmul (spec.getD i ⟨0#32, 0#32⟩) ⟨s.dRead (c.hBase + 2 * i), s.dRead (c.hBase + 2 * i + 1)⟩) := by
  have hchunk := chunkSegment_eq Config.alphaOla (decide (s.dRead (c.cx + 6) = 1#32)) hx
  have hspec := dit_length .fwd _ _ ((chunkSegment_length Config.alphaOla (decide (s.dRead (c.cx + 6) = 1#32)) hx).trans
    hf.pPow)
  rw [← hf.pPow] at hspec
  dsimp only [filteredSegment]
  rw [zipWith_cmul_dReadCpx s c.hBase hspec ⟨0#32, 0#32⟩, hchunk]
  simp only [decide_eq_true_eq]

/-- The segment a chunk leaves at the cursor. -/
theorem olaStep_segment {c : OlaShape} {s : State} {xs : List Word} (hf : c.Fits s) (hx : xs.length ≤ c.p) {i : Nat}
    (hi : i < c.p) :
    let t := (olaStep c xs s).state
    let seg := c.segBase (ctxHeader s c.cx 5)
    (filteredSegment c s xs)[i]? = some ⟨t.dRead (seg + 2 * i), t.dRead (seg + 2 * i + 1)⟩ := by
  have hseg := OlaShape.segBase_bounds hf.curLt
  dsimp only [olaStep]
  rw [dRead_dWrite, dRead_dWrite, if_neg (by omega), if_neg (by omega)]
  exact getElem?_eq_dRead_cpxWords s _ ((filteredSegment_length s hf.pPow hx).symm ▸ hi)

/-- Settles O41: the segment at the cursor by `olaStep_segment`, the cursor and the frame by the chunk's laws. -/
theorem olaStepWrites : Obligations.OlaStepWrites := by
  unfold Obligations.OlaStepWrites
  intro s cx xs hv hxs
  have hf := validCtx_fits hv
  have hx : xs.length ≤ (ctxShape s cx).p := hxs.trans_le hf.bLe
  refine ⟨fun i hi => ?_, olaStep_cursor_header xs hf, olaStep_dmemOnly _ xs s, fun a ha => ?_⟩
  · have hword := olaStep_segment hf hx hi
    rw [filteredSegment_eq hf hx] at hword
    exact hword
  · unfold InRegion at ha
    refine olaStep_dRead_other hf.pPow hx (fun h => ha (.inr h)) ?_
    simp only [OlaShape.segBase, ctxShape]
    omega

/-- The output of a chunk reads the segments as the chunk leaves them: the cursor is no word of a segment. -/
theorem olaStep_out {c : OlaShape} {s : State} (xs : List Word) (hdepth : 0 < c.depth) :
    (olaStep c xs s).out = (List.range c.b).map (chunkOutput c (olaStep c xs s).state (ctxHeader s c.cx 5)) := by
  refine List.map_congr_left fun n _ => ?_
  rw [chunkOutput, chunkOutput]
  congr 1
  refine List.map_congr_left fun i _ => ?_
  have hseg := OlaShape.segBase_bounds (c := c) (Nat.mod_lt (ctxHeader s c.cx 5 + c.depth - i) hdepth)
  dsimp only [olaStep]
  rw [dRead_dWrite, if_neg (by omega)]

/-- Settles O42: by `olaStep_out`. -/
theorem olaStepOutput : Obligations.OlaStepOutput := by
  unfold Obligations.OlaStepOutput
  intro s cx xs hv _
  have hout := olaStep_out (s := s) xs (validCtx_fits hv).depthPos
  refine ⟨olaStep_out_length _ xs s, fun n hn => ?_⟩
  rw [hout, List.getElem?_map, List.getElem?_range (show n < (ctxShape s cx).b from hn)]
  rfl

/-! ## A chunk depends on its context only -/

/-- The words of the context read the same. -/
def OlaShape.Agree (c : OlaShape) (s t : State) : Prop :=
  ∀ a, InRegion c.cx (ctxSize c.p c.depth) a → t.dRead a = s.dRead a

theorem dRead_dWriteWords_congr {s t : State} {b : Nat} (a : Nat) (ws : List Word) (h : t.dRead b = s.dRead b) :
    (t.dWriteWords a ws).dRead b = (s.dWriteWords a ws).dRead b := by
  by_cases hin : a ≤ b ∧ b < a + ws.length
  · obtain ⟨i, rfl⟩ := Nat.exists_eq_add_of_le hin.1
    have hi : i < ws.length := by omega
    rw [dRead_dWriteWords_at t a ws hi, dRead_dWriteWords_at s a ws hi]
  · rw [dRead_dWriteWords_other t a ws (by omega), dRead_dWriteWords_other s a ws (by omega), h]

section
variable {c : OlaShape} {s t : State} (hf : c.Fits s) (hag : c.Agree s t)
include hag

theorem ctxHeader_of_agree {j : Nat} (hj : j < 8) : ctxHeader t c.cx j = ctxHeader s c.cx j := by
  unfold ctxHeader
  rw [hag (c.cx + j) (by unfold InRegion ctxSize; omega)]

theorem filteredSegment_of_agree (xs : List Word) : filteredSegment c t xs = filteredSegment c s xs := by
  have hwin : t.dRead (c.cx + 6) = s.dRead (c.cx + 6) := hag _ (by unfold InRegion ctxSize; omega)
  have hH : t.dReadCpx c.hBase c.p = s.dReadCpx c.hBase c.p := by
    refine List.map_congr_left fun k hk => ?_
    rw [List.mem_range] at hk
    rw [hag _ (by unfold InRegion ctxSize OlaShape.hBase; omega), hag _ (by unfold InRegion ctxSize OlaShape.hBase; omega)]
  simp only [filteredSegment, hwin, hH]

theorem olaStep_agree (xs : List Word) : c.Agree (olaStep c xs s).state (olaStep c xs t).state := by
  intro a ha
  have hcur := ctxHeader_of_agree hag (show 5 < 8 by decide)
  dsimp only [olaStep]
  rw [hcur, filteredSegment_of_agree hag, dRead_dWrite, dRead_dWrite, dRead_dWriteWords_congr _ _ (hag a ha)]

include hf in
theorem olaStep_out_of_agree (xs : List Word) : (olaStep c xs t).out = (olaStep c xs s).out := by
  have hcur := ctxHeader_of_agree hag (show 5 < 8 by decide)
  rw [olaStep_out xs hf.depthPos, olaStep_out xs hf.depthPos, hcur]
  refine List.map_congr_left fun n _ => ?_
  rw [chunkOutput, chunkOutput]
  congr 1
  refine List.map_congr_left fun i hi => ?_
  have hlt := (List.mem_filter.1 hi).2
  rw [decide_eq_true_eq] at hlt
  have hseg := OlaShape.segBase_bounds (c := c) (Nat.mod_lt (ctxHeader s c.cx 5 + c.depth - i) hf.depthPos)
  refine olaStep_agree hag xs _ ?_
  unfold InRegion ctxSize
  omega

end

/-! ## The checks of OLA_APPLY (41_filter.md R178) -/

theorem validCtx_cases (s : State) (cx : Nat) :
    validCtx s cx = none ∨ validCtx s cx = some .range ∨ validCtx s cx = some .ctx := by
  rw [validCtx_eq]
  split
  · exact .inr (.inl rfl)
  split
  · exact .inl rfl
  · exact .inr (.inr rfl)

theorem checkOlaApply_eq (s : State) :
    checkOlaApply s =
      let CX := argU32 s 0
      let I := argU32 s 1
      let O := argU32 s 2
      let M := argU32 s 3
      let c := ctxShape s CX
      let size := ctxSize c.p c.depth
      let meets := fun a n b k => 0 < n ∧ 0 < k ∧ a < b + k ∧ b < a + n
      if validCtx s CX = some .range then some .range
      else if validCtx s CX ≠ none then some .ctx
      else if M % c.b ≠ 0 then some .cfg
      else if Config.dmemWords < I + M ∨ Config.dmemWords < O + M then some .range
      else if (I ≠ O ∧ meets I M O M) ∨ meets I M CX size ∨ meets O M CX size then some .overlap
      else none := by
  have hregion : (ctxShape s (argU32 s 0)).region =
      ⟨argU32 s 0, ctxSize (ctxShape s (argU32 s 0)).p (ctxShape s (argU32 s 0)).depth⟩ := rfl
  rcases validCtx_cases s (argU32 s 0) with hv | hv | hv
  · simp only [checkOlaApply, hv, reduceCtorEq, if_false, ne_eq, not_true_eq_false, inside, Bool.or_eq_true,
      Bool.not_eq_true', decide_eq_false_iff_not, not_le, hregion, overlap_iff_bounds, ite_or]
  · simp only [checkOlaApply, hv, if_true]
  · simp [checkOlaApply, hv]

/-! ## The chunks of OLA_APPLY as a run (41_filter.md R178) -/

/-- A word that n chunks from cursor `cur` on write (41_filter.md R175): of one of the next n segments, or the cursor. -/
def OlaShape.Stepped (c : OlaShape) (cur n a : Nat) : Prop :=
  (∃ j, j < n ∧ InRegion (c.segBase ((cur + j) % c.depth)) (2 * c.p) a) ∨ (0 < n ∧ a = c.cx + 5)

theorem chunksWrite_iff (s : State) (cx n a : Nat) :
    ChunksWrite s cx n a ↔ (ctxShape s cx).Stepped (ctxHeader s cx 5) n a := Iff.rfl

theorem OlaShape.stepped_in_region {c : OlaShape} (hdepth : 0 < c.depth) {cur n a : Nat} (h : c.Stepped cur n a) :
    InRegion c.cx (ctxSize c.p c.depth) a := by
  apply OlaShape.written_in_region
  rcases h with ⟨j, -, hlow, hhigh⟩ | ⟨-, ha⟩
  · have hseg := OlaShape.segBase_bounds (c := c) (Nat.mod_lt (cur + j) hdepth)
    exact .inl ⟨by omega, by omega⟩
  · exact .inr ha

theorem OlaShape.Stepped.mono {c : OlaShape} {cur m n a : Nat} (h : c.Stepped cur m a) (hmn : m ≤ n) :
    c.Stepped cur n a := by
  rcases h with ⟨j, hj, hin⟩ | ⟨hpos, ha⟩
  · exact .inl ⟨j, by omega, hin⟩
  · exact .inr ⟨by omega, ha⟩

theorem olaRun_concat (c : OlaShape) (s : State) (xss : List (List Word)) (xs : List Word) :
    olaRun c s (xss ++ [xs]) =
      { state := (olaStep c xs (olaRun c s xss).state).state
        out := (olaRun c s xss).out ++ (olaStep c xs (olaRun c s xss).state).out } := by
  induction xss generalizing s with
  | nil => simp [olaRun]
  | cons ys yss ih => simp [olaRun, ih]

theorem olaRun_out_length (c : OlaShape) (s : State) (xss : List (List Word)) :
    (olaRun c s xss).out.length = xss.length * c.b := by
  induction xss generalizing s with
  | nil => simp [olaRun]
  | cons ys yss ih => simp [olaRun, ih, Nat.add_mul, Nat.add_comm]

/-- The first k chunks of the input at `i`. -/
def inputChunks (c : OlaShape) (i : Nat) (s : State) (k : Nat) : List (List Word) :=
  (List.range k).map fun j => s.dmem.readWords (i + j * c.b) c.b

/-- The run of the first k chunks through the context, their outputs written nowhere. -/
def chunkRun (c : OlaShape) (i : Nat) (s : State) (k : Nat) : ChunkResult := olaRun c s (inputChunks c i s k)

/-- The state after the first k chunks of OLA_APPLY. -/
def applyState (c : OlaShape) (i o : Nat) (s : State) (k : Nat) : State :=
  (List.range k).foldl (olaApplyChunk c i o) s

theorem chunkRun_succ (c : OlaShape) (i : Nat) (s : State) (k : Nat) :
    let u := (chunkRun c i s k).state
    let xs := s.dmem.readWords (i + k * c.b) c.b
    chunkRun c i s (k + 1) = { state := (olaStep c xs u).state, out := (chunkRun c i s k).out ++ (olaStep c xs u).out } := by
  simp only [chunkRun, inputChunks, List.range_succ, List.map_append, List.map_cons, List.map_nil, olaRun_concat]

theorem chunkRun_out_length (c : OlaShape) (i : Nat) (s : State) (k : Nat) : (chunkRun c i s k).out.length = k * c.b := by
  simp [chunkRun, inputChunks, olaRun_out_length]

theorem applyState_succ (c : OlaShape) (i o : Nat) (s : State) (k : Nat) :
    applyState c i o s (k + 1) = olaApplyChunk c i o (applyState c i o s k) k := by
  simp [applyState, List.range_succ]

/-- What the checks of OLA_APPLY guarantee of its operands. -/
structure ApplySetting (c : OlaShape) (s : State) (i o m : Nat) : Prop where
  fits        : c.Fits s
  inMemory    : o + m ≤ Config.dmemWords
  inPlace     : i = o ∨ overlap ⟨i, m⟩ ⟨o, m⟩ = false
  inputApart  : overlap ⟨i, m⟩ c.region = false
  outputApart : overlap ⟨o, m⟩ c.region = false

/-- What holds of the state `t` after the first k chunks: the context as the run of the chunks found leaves it, their
outputs, and every other word as found. -/
structure Applied (c : OlaShape) (s : State) (i o k : Nat) (t : State) : Prop where
  agree  : c.Agree (chunkRun c i s k).state t
  out    : ∀ n, n < k * c.b → (chunkRun c i s k).out[n]? = some (t.dRead (o + n))
  frame  : ∀ a, ¬ InRegion o (k * c.b) a → ¬ c.Stepped (ctxHeader s c.cx 5) k a → t.dRead a = s.dRead a
  cursor : ctxHeader t c.cx 5 = (ctxHeader s c.cx 5 + k) % c.depth

theorem not_inRegion_of_not_overlap {a n b k x : Nat} (h : overlap ⟨a, n⟩ ⟨b, k⟩ = false) (hx : InRegion a n x) :
    ¬ InRegion b k x := fun hx' => by
  rw [(overlap_iff ⟨a, n⟩ ⟨b, k⟩).2 ⟨x, hx, hx'⟩] at h
  cases h

theorem chunk_le_length {b j m : Nat} (hj : j < m / b) : j * b + b ≤ m := by
  calc j * b + b = (j + 1) * b := (Nat.succ_mul j b).symm
    _ ≤ m / b * b := Nat.mul_le_mul_right _ hj
    _ ≤ m := Nat.div_mul_le_self _ _

section
variable {c : OlaShape} {s : State} {i o m : Nat} (hs : ApplySetting c s i o m)
include hs

theorem ApplySetting.fits_applyState {k : Nat} (hk : k ≤ m / c.b) : c.Fits (applyState c i o s k) :=
  (olaApply_fold_inv hs.inMemory hs.outputApart (List.range k)
    (fun _ hj => Nat.lt_of_lt_of_le (List.mem_range.1 hj) hk) s ⟨rfl, hs.fits, fun _ _ => rfl, id⟩).fits

/-- A chunk not yet read is the one the command found, also in place. -/
theorem ApplySetting.readWords_chunk {k : Nat} (hk : k < m / c.b) {t : State} (h : Applied c s i o k t) :
    t.dmem.readWords (i + k * c.b) c.b = s.dmem.readWords (i + k * c.b) c.b := by
  have hm := chunk_le_length hk
  refine List.map_congr_left fun x hx => h.frame _ ?_ ?_
  · rcases hs.inPlace with rfl | happart
    · unfold InRegion
      omega
    · have hout := not_inRegion_of_not_overlap happart
        (x := i + k * c.b + x) (by rw [List.mem_range] at hx; unfold InRegion; omega)
      unfold InRegion at hout ⊢
      omega
  · intro hstep
    exact not_inRegion_of_not_overlap hs.inputApart
      (x := i + k * c.b + x) (by rw [List.mem_range] at hx; unfold InRegion; omega)
      (OlaShape.stepped_in_region hs.fits.depthPos hstep)

/-- Where the chunk's output is not written, the chunk leaves what its step leaves. -/
theorem ApplySetting.olaApplyChunk_dRead_context {k : Nat} (hk : k < m / c.b) (t : State) {a : Nat}
    (ha : InRegion c.cx (ctxSize c.p c.depth) a) :
    (olaApplyChunk c i o t k).dRead a = (olaStep c (t.dmem.readWords (i + k * c.b) c.b) t).state.dRead a := by
  have hm := chunk_le_length hk
  refine dRead_dWriteWords_outside _ (olaStep_out_length c _ t) fun hin => ?_
  refine not_inRegion_of_not_overlap hs.outputApart ?_ ha
  unfold InRegion at hin ⊢
  omega

theorem ApplySetting.applied_succ {k : Nat} (hk : k < m / c.b) {t : State} (hf : c.Fits t) (h : Applied c s i o k t) :
    Applied c s i o (k + 1) (olaApplyChunk c i o t k) := by
  have hm := chunk_le_length hk
  have hsucc : (k + 1) * c.b = k * c.b + c.b := Nat.succ_mul k c.b
  have hx : (t.dmem.readWords (i + k * c.b) c.b).length ≤ c.p := (Ram.readWords_length _ _ _).trans_le hf.bLe
  have hcursor : InRegion c.cx (ctxSize c.p c.depth) (c.cx + 5) := by unfold InRegion ctxSize; omega
  have hfu : c.Fits (chunkRun c i s k).state := hf.of_cursor (h.agree _ hcursor).symm
  have hother (a : Nat) (ha : ¬ InRegion (o + k * c.b) c.b a) :
      (olaApplyChunk c i o t k).dRead a = (olaStep c (t.dmem.readWords (i + k * c.b) c.b) t).state.dRead a :=
    dRead_dWriteWords_outside _ (olaStep_out_length c _ t) ha
  refine ⟨fun a ha => ?_, fun n hn => ?_, fun a hout hstep => ?_, ?_⟩
  · rw [hs.olaApplyChunk_dRead_context hk t ha, hs.readWords_chunk hk h, chunkRun_succ]
    exact olaStep_agree h.agree _ a ha
  · rw [chunkRun_succ]
    by_cases hlt : n < k * c.b
    · have hfree : ¬ c.Written (o + n) := fun hw =>
        not_inRegion_of_not_overlap hs.outputApart (x := o + n) (by unfold InRegion; omega)
          (OlaShape.written_in_region hw)
      rw [List.getElem?_append_left (by rw [chunkRun_out_length]; omega), h.out n hlt,
        hother _ (by unfold InRegion; omega), olaStep_frame hf hx hfree]
    · obtain ⟨x, rfl⟩ := Nat.exists_eq_add_of_le (Nat.le_of_not_lt hlt)
      rw [List.getElem?_append_right (by rw [chunkRun_out_length]; omega), chunkRun_out_length, Nat.add_sub_cancel_left,
        ← olaStep_out_of_agree hfu h.agree, ← hs.readWords_chunk hk h, ← Nat.add_assoc]
      exact getElem?_eq_dRead_dWriteWords _ _ (by rw [olaStep_out_length]; omega)
  · have hcur := h.cursor
    have hseg : ¬ InRegion (c.segBase (ctxHeader t c.cx 5)) (2 * c.p) a := fun hin =>
      hstep (.inl ⟨k, by omega, hcur ▸ hin⟩)
    have hnot5 : a ≠ c.cx + 5 := fun ha => hstep (.inr ⟨by omega, ha⟩)
    unfold InRegion at hseg hout
    rw [hother a (by unfold InRegion; omega), olaStep_dRead_other hf.pPow hx hnot5 (by omega)]
    exact h.frame a (by unfold InRegion; omega) fun hw => hstep (hw.mono (by omega))
  · have hword : ctxHeader (olaApplyChunk c i o t k) c.cx 5 =
        ctxHeader (olaStep c (t.dmem.readWords (i + k * c.b) c.b) t).state c.cx 5 :=
      congrArg BitVec.toNat (hs.olaApplyChunk_dRead_context hk t hcursor)
    rw [hword, olaStep_cursor_header _ hf, h.cursor, Nat.mod_add_mod, Nat.add_assoc]

theorem ApplySetting.applied {k : Nat} (hk : k ≤ m / c.b) : Applied c s i o k (applyState c i o s k) := by
  induction k with
  | zero =>
    refine ⟨fun _ _ => rfl, fun n hn => ?_, fun _ _ _ => rfl, (Nat.mod_eq_of_lt hs.fits.curLt).symm⟩
    omega
  | succ k ih =>
    rw [applyState_succ]
    exact hs.applied_succ hk (hs.fits_applyState (by omega)) (ih (by omega))

end

theorem checkOlaApply_setting {s : State} (h : checkOlaApply s = none) :
    ApplySetting (ctxShape s (argU32 s 0)) s (argU32 s 1) (argU32 s 2) (argU32 s 3) := by
  obtain ⟨hv, -, -, hout, hplace, hinput, houtput⟩ := checkOlaApply_none h
  exact ⟨validCtx_fits hv, hout, hplace, hinput, houtput⟩

/-- Settles O43: check by check in order; the chunks of a passed OLA_APPLY by `ApplySetting.applied`. -/
theorem olaApplyCompletes : Obligations.OlaApplyCompletes := by
  unfold Obligations.OlaApplyCompletes
  intro s
  rw [exec_eq_runCommand]
  refine runCommand_completes_ite (checkOlaApply_eq s) fun _ hcheck => ?_
  refine runCommand_completes_ite hcheck fun _ hcheck => ?_
  refine runCommand_completes_ite hcheck fun hlen hcheck => ?_
  refine runCommand_completes_ite hcheck fun _ hcheck => ?_
  refine runCommand_completes_ite hcheck fun _ hcheck => ?_
  obtain ⟨hdone, hhost, hring, hreverb, hsettings⟩ := completeOk_of_dmemOnly (effect_dmemOnly (i := .olaApply) s rfl)
    (olaApplyEffect s).r0 (olaApplyEffect s).r1
  obtain ⟨hagree, hout, hframe, hcursor⟩ := (checkOlaApply_setting hcheck).applied le_rfl
  have hall : argU32 s 3 / (ctxShape s (argU32 s 0)).b * (ctxShape s (argU32 s 0)).b = argU32 s 3 :=
    Nat.div_mul_cancel (Nat.dvd_of_mod_eq_zero (not_not.1 hlen))
  rw [hall] at hout hframe
  refine ⟨_, runCommand_passed hcheck, hdone, ?_⟩
  simp only [completeOk_dRead, ctxHeader_completeOk, dmemUnchangedOutside_completeOk]
  exact ⟨hcursor, hout, hagree, fun a ha => hframe a (fun hin => ha (.inl hin))
    fun hw => ha (.inr ((chunksWrite_iff s _ _ a).2 hw)), hhost, hring, hreverb, hsettings⟩

end Sys2Proof.Machine
end

section
/-! SUPPORT. The spatializer apart from MIX (42_spatial.md R201 to R206, R216, R218): the pan law, PAN_GAIN, PAN_TABLE, the
reverb length and one reverb step. -/

namespace Sys2Proof.Machine

/-! ## The pan law (42_spatial.md R201, R202) -/

/-- F_COS reads the magnitude bits only: the sign of its argument, that of a zero included, does not show. -/
theorem fCos_congr {x y : Word} (h : fMagBits x = fMagBits y) : fCos x = fCos y := by
  have habs : fabs x = fabs y := word_ext_fields (by simp) (by simpa using h)
  have hnan : isNaN x = isNaN y := by simp [isNaN, h]
  have hzero : isZero x = isZero y := by simp [isZero, h]
  simp only [fCos, hnan, hzero, habs]

/-- The difference of two finite words has the same magnitude either way round. -/
theorem fMagBits_fsub_comm {a b : Word} (ha : isFinite a = true) (hb : isFinite b = true) :
    fMagBits (fsub a b) = fMagBits (fsub b a) := by
  have hswap : (fVal a + -fVal b).natAbs = (fVal b + -fVal a).natAbs := by omega
  have hle := roundMag_le (fVal b + -fVal a).natAbs 1
  rw [fsub, fsub, fadd_finite ha (by simpa using hb), fadd_finite hb (by simpa using ha), fVal_fneg, fVal_fneg, hswap,
    fMagBits_fPack _ (by omega), fMagBits_fPack _ (by omega)]

/-- Settles O45: the angle enters by its cosine, which reads the magnitude of the difference only. -/
theorem panWeightSymmetric : Obligations.PanWeightSymmetric := by
  unfold Obligations.PanWeightSymmetric
  intro th ph hth hph
  rw [panW, panW, fCos_congr (fMagBits_fsub_comm hth hph)]

theorem softClip_negZero : softClip 0x80000000#32 = 0x80000000#32 := by
  have hscaled : fmul Config.dPan 0x80000000#32 = 0x80000000#32 := by decide
  rw [softClip, hscaled]
  exact oddExtension_zero _ (by decide)

theorem softClip_nan {x : Word} (h : isNaN x = true) : softClip x = qNaN := by
  rw [softClip, fmul_nan (.inr h)]
  exact oddExtension_nan _ isNaN_qNaN

theorem panW_nan {th ph : Word} (h : isNaN th = true ∨ isNaN ph = true) : panW th ph = qNaN := by
  have hdiff : fsub th ph = qNaN := fadd_nan (by simpa using h)
  have hexponent : fsub qNaN Config.half = qNaN := fadd_nan (.inl isNaN_qNaN)
  rw [panW, hdiff, fCos_nan isNaN_qNaN, fmul_nan (.inr isNaN_qNaN), hexponent, fExp_nan isNaN_qNaN]

theorem fSign_of_pos {p : Word} (hpos : flt 0#32 p = true) : fSign p = false := by
  have hzero : fKey 0#32 = 0 := by decide
  simp only [flt, Bool.and_eq_true, decide_eq_true_eq, hzero] at hpos
  obtain ⟨-, hkey⟩ := hpos
  cases hs : fSign p with
  | false => rfl
  | true =>
    simp only [fKey, hs, if_true] at hkey
    omega

/-- -0.0 times a finite positive word is -0.0. -/
theorem fmul_negZero_pos {w : Word} (hfin : isFinite w = true) (hpos : flt 0#32 w = true) :
    fmul 0x80000000#32 w = 0x80000000#32 := by
  have hmag : fMag 0x80000000#32 = 0 := by decide
  have hneg : fSign 0x80000000#32 = true := by decide
  rw [fmul_finite (by decide) hfin, hmag, Nat.zero_mul, roundMag_zero (by decide), fSign_of_pos hpos, hneg]
  decide

/-- Settles O44: PAN_GAIN has no check and changes the completion's fields only; its corner cases by the pan law's. -/
theorem panGainCompletes : Obligations.PanGainCompletes := by
  unfold Obligations.PanGainCompletes
  intro s
  refine ⟨rfl, fun hx => ?_, fun hx => ?_, fun hangle => ?_⟩
  · rw [hx]
    show fmul (softClip 0x80000000#32) _ = _
    rw [softClip_negZero]
    split
    next h => exact fmul_negZero_pos h.1 h.2
    next => rfl
  · have hclip := softClip_nan hx
    exact fmul_nan (.inl (by rw [← isNaN_qNaN, ← hclip]; rfl))
  · have hw := panW_nan hangle
    exact ⟨fmul_nan (.inr (by rw [← isNaN_qNaN, ← hw]; rfl)), hw⟩

/-! ## PAN_TABLE (42_spatial.md R206) -/

theorem hasLfe_iff (l : Layout) : l.hasLfe = true ↔ l.speakers = 6 ∨ l.speakers = 8 := by cases l <;> decide

theorem isLfeSlot_iff (l : Layout) (sp : Nat) :
    l.isLfeSlot sp = true ↔ (l.speakers = 6 ∨ l.speakers = 8) ∧ sp = 3 := by
  rw [Layout.isLfeSlot, Bool.and_eq_true, hasLfe_iff, decide_eq_true_eq]

theorem checkPanTable_eq (s : State) :
    checkPanTable s =
      let T := argU32 s 0
      let V := argU32 s 1
      let O := argU32 s 2
      let S := s.layout.speakers
      if V = 0 ∨ Config.maxV < V then some .cfg
      else if Config.dmemWords < T + V ∨ Config.dmemWords < O + V * S then some .range
      else if T < O + V * S ∧ O < T + V then some .overlap
      else none := by
  dsimp only [checkPanTable]
  by_cases hV : argU32 s 1 = 0 ∨ Config.maxV < argU32 s 1
  · rw [if_pos hV, if_pos hV]
  · have hpos : 0 < argU32 s 1 := by omega
    simp only [if_neg hV, inside, Bool.or_eq_true, Bool.not_eq_true', decide_eq_false_iff_not, not_le,
      overlap_iff_lt hpos (Nat.mul_pos hpos (speakers_pos s.layout))]

/-- Word sp of row v of the weight matrix. -/
theorem panTable_getElem? (l : Layout) (ths : List Word) {v sp : Nat} (hv : v < ths.length) (hsp : sp < l.speakers) :
    (ths.flatMap (panRow l))[v * l.speakers + sp]? =
      some (if l.isLfeSlot sp then 0#32 else panW ths[v] (l.angle sp)) := by
  induction ths generalizing v with
  | nil => simp at hv
  | cons th ths ih =>
    rw [List.flatMap_cons]
    cases v with
    | zero =>
      rw [Nat.zero_mul, Nat.zero_add, List.getElem?_append_left (by rwa [panRow_length]), panRow, List.getElem?_map,
        List.getElem?_range hsp]
      rfl
    | succ v =>
      rw [List.getElem?_append_right (by rw [panRow_length, Nat.succ_mul]; omega), panRow_length, Nat.succ_mul,
        Nat.add_right_comm, Nat.add_sub_cancel]
      exact ih (Nat.lt_of_succ_lt_succ hv)

/-- Word sp of frame f lies in an output of n frames of S words. -/
theorem frameWord_lt {f n sp S : Nat} (hf : f < n) (hsp : sp < S) : f * S + sp < n * S := by
  calc f * S + sp < f * S + S := by omega
    _ = (f + 1) * S := (Nat.succ_mul f S).symm
    _ ≤ n * S := Nat.mul_le_mul_right _ hf

theorem panTableEffect_dRead (s : State) {v sp : Nat} (hv : v < argU32 s 1) (hsp : sp < s.layout.speakers) :
    (panTableEffect s).state.dRead (argU32 s 2 + v * s.layout.speakers + sp) =
      if s.layout.isLfeSlot sp then 0#32 else panW (s.dRead (argU32 s 0 + v)) (s.layout.angle sp) := by
  have hlen := (panTable_length s.layout (s.dmem.readWords (argU32 s 0) (argU32 s 1)))
  rw [Ram.readWords_length] at hlen
  have hread := panTable_getElem? s.layout (s.dmem.readWords (argU32 s 0) (argU32 s 1))
    (v := v) (by rwa [Ram.readWords_length]) hsp
  rw [Ram.readWords_getElem, getElem?_eq_dRead_dWriteWords s (argU32 s 2) (hlen.symm ▸ frameWord_lt hv hsp)] at hread
  rw [Nat.add_assoc]
  exact Option.some.inj hread

/-- Settles O46: check by check in order; a passed PAN_TABLE writes the rows, and no other word. -/
theorem panTableCompletes : Obligations.PanTableCompletes := by
  unfold Obligations.PanTableCompletes
  intro s
  rw [exec_eq_runCommand]
  refine runCommand_completes_ite (checkPanTable_eq s) fun _ hcheck => ?_
  refine runCommand_completes_ite hcheck fun _ hcheck => ?_
  refine runCommand_completes_ite hcheck fun _ hcheck => ?_
  obtain ⟨hdone, hhost, hring, hreverb, hsettings⟩ := completeOk_of_dmemOnly (effect_dmemOnly (i := .panTable) s rfl)
    (panTableEffect s).r0 (panTableEffect s).r1
  refine ⟨_, runCommand_passed hcheck, hdone, fun v sp hv hsp => ?_, fun a ha => ?_, hhost, hring, hreverb, hsettings⟩
  · have hword := panTableEffect_dRead s hv hsp
    simp only [isLfeSlot_iff] at hword
    exact hword
  · exact dRead_dWriteWords_outside s (by rw [panTable_length, Ram.readWords_length]) ha

/-! ## The reverb (42_spatial.md R216, R218) -/

/-- The value of a word above zero is its magnitude. -/
theorem fVal_of_pos {p : Word} (hpos : flt 0#32 p = true) : fVal p = fMag p := by
  rw [fVal, fSign_of_pos hpos]
  rfl

/-- Truncation by inequality: the integer part of a word above zero. -/
theorem truncNat_bounds {p : Word} (hpos : flt 0#32 p = true) :
    (truncNat p : Int) * 2 ^ 149 ≤ fVal p ∧ fVal p < (truncNat p + 1) * 2 ^ 149 := by
  rw [fVal_of_pos hpos, truncNat]
  constructor
  · exact_mod_cast Nat.div_mul_le_self _ _
  · exact_mod_cast (Nat.div_lt_iff_lt_mul (Nat.two_pow_pos 149)).1 (Nat.lt_succ_self _)

theorem revLength_eq (s : State) :
    revLength s =
      let p := fmul s.act.revDelay (f32 s.devFs.toNat)
      if isNaN p = true ∨ flt 0#32 p = false then 0
      else if fle (f32 Config.revWords) p = true then Config.revWords
      else truncNat p := by
  simp [revLength]

/-- Settles O51: the three cases of `revLength_eq` in order, and the bound of the model's laws. -/
theorem reverbLength : Obligations.ReverbLength := by
  unfold Obligations.ReverbLength
  intro s
  refine ⟨?_, revLength_le s⟩
  have hlen := revLength_eq s
  dsimp only at hlen
  split
  next hnone => rw [hlen, if_pos hnone]
  next hnone =>
    rw [if_neg hnone] at hlen
    split
    next hfull => rw [hlen, if_pos hfull]
    next hfull =>
      rw [hlen, if_neg hfull]
      exact truncNat_bounds (by simpa using (not_or.1 hnone).2)

/-- Settles O52: both branches of the step, by the laws of one memory write. -/
theorem reverbStepBranches : Obligations.ReverbStep := by
  unfold Obligations.ReverbStep
  intro s u
  dsimp only [reverbStep]
  split
  next => exact ⟨rfl, rfl⟩
  next => exact ⟨rfl, Ram.read_write_same _ _ _, fun a ha => Ram.read_write_other _ _ ha, rfl, rfl⟩

end Sys2Proof.Machine
end

section
/-! SUPPORT. The checks of MIX (42_spatial.md R211). -/

namespace Sys2Proof.Machine

/-- A command whose check list begins with one that may give a code: it is refused with the code, else it is as the other
checks decide. -/
theorem runCommand_completes_match {check : State → Option ErrCode} {effect : State → Effect} {s : State}
    {first rest : Option ErrCode} {Q : State → Prop} :
    check s = first.elim rest some → (check s = rest → ∃ t, runCommand check effect s = .next t ∧ Q t) →
      ∃ t, runCommand check effect s = .next t ∧ match first with | some e => t = refusedState s e | none => Q t := by
  intro hcheck hrest
  cases first with
  | some e => exact ⟨_, runCommand_refused hcheck, rfl⟩
  | none => exact hrest hcheck

/-- A list with two overlapping regions, by the places of the two. -/
theorem anyOverlap_iff (rs : List Region) :
    anyOverlap rs = true ↔
      ∃ j, j < rs.length ∧ ∃ i, i < j ∧ overlap (rs.getD i ⟨0, 0⟩) (rs.getD j ⟨0, 0⟩) = true := by
  rw [← Bool.not_eq_false, anyOverlap_false_iff, List.pairwise_iff_getElem]
  push Not
  constructor
  · rintro ⟨i, j, hi, hj, hlt, hov⟩
    exact ⟨j, hj, i, hlt, by simpa [List.getD_eq_getElem, hi, hj] using hov⟩
  · rintro ⟨j, hj, i, hlt, hov⟩
    have hi : i < rs.length := by omega
    exact ⟨i, j, hi, hj, hlt, by simpa [List.getD_eq_getElem, hi, hj] using hov⟩

theorem lfeBases_eq (s : State) (m : MixOperands) :
    lfeBases s m = (List.range m.v).map fun v => (s.dRead (m.cl + v)).toNat := by
  simp [lfeBases, Ram.readWords, State.dRead]

theorem prospective_enables (s : State) :
    (prospective s).enables = if s.changed then s.tun.enables else s.act.enables := apply_ite Tunables.enables _ _ _

theorem runsLfeLowPass_iff (s : State) :
    runsLfeLowPass s = true ↔
      (s.layout.speakers = 6 ∨ s.layout.speakers = 8) ∧ (prospective s).enables.getLsbD 3 = true := by
  rw [runsLfeLowPass, Bool.and_eq_true, hasLfe_iff]
  rfl

/-- MIX_CHECKS by its parts. -/
theorem checkMix_eq_parts (s : State) :
    checkMix s =
      let m := mixOperands s
      if m.v = 0 ∨ Config.maxV < m.v ∨ m.b = 0 then some .cfg
      else if Config.dmemWords < m.x + m.v * m.b ∨ Config.dmemWords < m.y + s.layout.speakers * m.b ∨
          Config.dmemWords < m.t + m.v ∨ Config.dmemWords < m.scr + 3 * m.b then some .range
      else (checkDistance s m).elim
        ((checkLfe s m).elim (if anyOverlap (mixRegions s m) = true then some .overlap else none) some) some := by
  simp only [checkMix, inside, Bool.or_eq_true, Bool.not_eq_true', decide_eq_false_iff_not, not_le, or_assoc]
  cases checkDistance s (mixOperands s) with
  | some e => rfl
  | none =>
    cases checkLfe s (mixOperands s) with
    | some e => rfl
    | none => rfl

/-- The LFE part: the table's place first, then its contexts. -/
theorem checkLfe_elim (s : State) (m : MixOperands) (rest : Option ErrCode) :
    (checkLfe s m).elim rest some =
      if runsLfeLowPass s = true ∧ Config.dmemWords < m.cl + m.v then some .range
      else (if runsLfeLowPass s = true then (lfeBases s m).findSome? (checkMixCtx s m.b) else none).elim rest some := by
  simp only [checkLfe, inside, Bool.not_eq_true', decide_eq_false_iff_not, not_le]
  by_cases hlfe : runsLfeLowPass s = true
  · by_cases hcl : Config.dmemWords < m.cl + m.v
    · simp [hlfe, hcl]
    · simp [hlfe, hcl]
  · simp [hlfe]

/-- Settles O47: check by check in order; the statement's regions, table and enables are those of MIX_CHECKS. -/
theorem mixChecks : Obligations.MixChecks := by
  unfold Obligations.MixChecks
  intro s
  have hdist : (prospective s).enables.getLsbD 2 = true ↔ runsDistance s = true := Iff.rfl
  have htable : ((List.range (argU32 s 0)).map fun v => (s.dRead (argU32 s 6 + v)).toNat) = lfeBases s (mixOperands s) :=
    (lfeBases_eq s (mixOperands s)).symm
  rw [exec_eq_runCommand]
  simp only [← anyOverlap_iff, ← prospective_enables, hdist, ← runsLfeLowPass_iff, htable]
  refine runCommand_completes_ite (checkMix_eq_parts s) fun _ hcheck => ?_
  refine runCommand_completes_ite hcheck fun _ hcheck => ?_
  refine runCommand_completes_match hcheck fun hcheck => ?_
  rw [checkLfe_elim] at hcheck
  refine runCommand_completes_ite hcheck fun _ hcheck => ?_
  refine runCommand_completes_match hcheck fun hcheck => ?_
  refine runCommand_completes_ite hcheck fun _ hcheck => ?_
  exact ⟨_, runCommand_passed hcheck, hcheck, rfl⟩

end Sys2Proof.Machine
end

section
/-! SUPPORT. The stages of MIX (42_spatial.md R213, R214): a chunk filtered in place in scratch, the distance stage and the
LFE stage by the state the command found, and all that the stages leave. -/

namespace Sys2Proof.Machine

/-! ## A chunk filtered in place -/

/-- A chunk written to a block, stepped through a context, its output written over it. -/
def chunkInPlace (c : OlaShape) (a : Nat) (xs : List Word) (t : State) : State :=
  let r := olaStep c xs (t.dWriteWords a xs)
  r.state.dWriteWords a r.out

theorem chunkInPlace_only (c : OlaShape) (a : Nat) (xs : List Word) (t : State) : DmemOnly t (chunkInPlace c a xs t) :=
  ((dWriteWords_dmemOnly t a xs).trans (olaStep_only c xs _)).trans (dWriteWords_dmemOnly _ a _)

theorem readWords_dWriteWords (t : State) (a : Nat) {ws : List Word} {n : Nat} (h : ws.length = n) :
    (t.dWriteWords a ws).dmem.readWords a n = ws := by
  subst h
  exact Ram.readWords_writeWords t.dmem a ws

/-- The words one chunk through the context writes, from the cursor that `s` holds (41_filter.md R175). -/
def OlaShape.ChunkWrites (c : OlaShape) (s : State) (a : Nat) : Prop := c.Stepped (ctxHeader s c.cx 5) 1 a

/-- What a chunk filtered in place in the block at `a` leaves, by a state `s` that the context reads the same in. -/
structure FilteredInPlace (c : OlaShape) (a : Nat) (xs : List Word) (s t u : State) : Prop where
  context : c.Agree (olaStep c xs s).state u
  output  : ∀ f, f < c.b → u.dRead (a + f) = (olaStep c xs s).out.getD f 0#32
  frame   : ∀ x, ¬ InRegion a c.b x → ¬ c.ChunkWrites s x → u.dRead x = t.dRead x

theorem chunkInPlace_filtered {c : OlaShape} {a : Nat} {xs : List Word} {s t : State} (hf : c.Fits s) (hag : c.Agree s t)
    (hx : xs.length = c.b) (hblock : ∀ x, InRegion a c.b x → ¬ InRegion c.cx (ctxSize c.p c.depth) x) :
    FilteredInPlace c a xs s t (chunkInPlace c a xs t) := by
  have hout := olaStep_out_length c xs (t.dWriteWords a xs)
  have hwritten : c.Agree s (t.dWriteWords a xs) := fun x hin =>
    (dRead_dWriteWords_outside t hx fun hin' => hblock x hin' hin).trans (hag x hin)
  have hcur := ctxHeader_of_agree hwritten (show 5 < 8 by decide)
  refine ⟨fun x hin => ?_, fun f hlt => ?_, fun x hblk hstep => ?_⟩
  · exact (dRead_dWriteWords_outside _ hout fun hin' => hblock x hin' hin).trans (olaStep_agree hwritten xs x hin)
  · have hword := getElem?_eq_dRead_dWriteWords (olaStep c xs (t.dWriteWords a xs)).state a (hout.symm ▸ hlt)
    rw [olaStep_out_of_agree hf hwritten] at hword
    rw [List.getD_eq_getElem?_getD, hword, ← olaStep_out_of_agree hf hwritten]
    rfl
  · have hseg : ¬ InRegion (c.segBase (ctxHeader s c.cx 5)) (2 * c.p) x := fun hin =>
      hstep (.inl ⟨0, by omega, by rwa [Nat.add_zero, Nat.mod_eq_of_lt hf.curLt]⟩)
    have hcursor : x ≠ c.cx + 5 := fun he => hstep (.inr ⟨by omega, he⟩)
    unfold InRegion at hseg
    rw [chunkInPlace, dRead_dWriteWords_outside _ hout hblk,
      olaStep_dRead_other hf.pPow (hx.trans_le hf.bLe) hcursor (by rw [hcur]; omega), dRead_dWriteWords_outside t hx hblk]

/-! ## The contexts of a MIX and their inputs (42_spatial.md R211, R213, R214) -/

/-- The context of the distance stage. -/
def distContext (s : State) (m : MixOperands) : OlaShape := ctxShape s m.cd

/-- The mono sum of the frames. -/
def monoSum (s : State) (m : MixOperands) : List Word := (List.range m.b).map (channelSum s.dmem m)

/-- The context of channel v in the LFE low-pass. -/
def lfeContext (s : State) (m : MixOperands) (v : Nat) : OlaShape := ctxShape s (s.dRead (m.cl + v)).toNat

/-- The samples of channel v. -/
def channel (s : State) (m : MixOperands) (v : Nat) : List Word := (List.range m.b).map fun f => mixInput s.dmem m f v

/-- Channel v filtered. -/
def lowPassed (s : State) (m : MixOperands) (v : Nat) : List Word := (olaStep (lfeContext s m v) (channel s m v) s).out

/-- The filtered distance signal. -/
def distSignal (s : State) (m : MixOperands) : List Word := (olaStep (distContext s m) (monoSum s m) s).out

/-- The sum of the filtered channels at frame f. -/
def lowPassedSum (s : State) (m : MixOperands) (f : Nat) : Word :=
  fsum ((List.range m.v).map fun v => (lowPassed s m v).getD f 0#32)

@[simp] theorem monoSum_length (s : State) (m : MixOperands) : (monoSum s m).length = m.b := by simp [monoSum]

@[simp] theorem channel_length (s : State) (m : MixOperands) (v : Nat) : (channel s m v).length = m.b := by simp [channel]

/-- The words of two contexts lie apart. -/
def OlaShape.Apart (c d : OlaShape) : Prop :=
  ∀ a, InRegion c.cx (ctxSize c.p c.depth) a → ¬ InRegion d.cx (ctxSize d.p d.depth) a

/-- What MIX_CHECKS guarantees of one context it will step: its size, and that scratch and output lie apart from it. -/
structure ContextReady (s : State) (m : MixOperands) (c : OlaShape) : Prop where
  fits    : c.Fits s
  block   : c.b = m.b
  scratch : ∀ a, InRegion m.scr (3 * m.b) a → ¬ InRegion c.cx (ctxSize c.p c.depth) a
  output  : ∀ a, InRegion m.y (s.layout.speakers * m.b) a → ¬ InRegion c.cx (ctxSize c.p c.depth) a

theorem MixReady.contextReady {s : State} {m : MixOperands} (h : MixReady s m) {c : OlaShape} (hc : c ∈ mixContexts s m) :
    ContextReady s m c := by
  obtain ⟨hfits, hblock⟩ := h.context hc
  obtain ⟨-, hscratch, houtput⟩ := h.apart
  exact ⟨hfits, hblock, fun _ => not_inRegion_of_not_overlap (hscratch c hc),
    fun _ => not_inRegion_of_not_overlap (houtput c hc)⟩

theorem lfeContexts_eq (s : State) (m : MixOperands) :
    (lfeBases s m).map (ctxShape s) = (List.range m.v).map (lfeContext s m) := by
  rw [lfeBases_eq, List.map_map]
  rfl

theorem mixContexts_eq (s : State) (m : MixOperands) :
    mixContexts s m = (if runsDistance s then [distContext s m] else []) ++
      (if runsLfeLowPass s then (List.range m.v).map (lfeContext s m) else []) := by
  rw [← lfeContexts_eq]
  rfl

section
variable {s : State} {m : MixOperands} (h : MixReady s m)
include h

theorem MixReady.distReady (hdist : runsDistance s = true) : ContextReady s m (distContext s m) :=
  h.contextReady (by simp [mixContexts_eq, hdist])

theorem MixReady.lfeReady (hlfe : runsLfeLowPass s = true) {v : Nat} (hv : v < m.v) : ContextReady s m (lfeContext s m v) :=
  h.contextReady (by
    rw [mixContexts_eq, if_pos hlfe]
    exact List.mem_append_right _ (List.mem_map.2 ⟨v, List.mem_range.2 hv, rfl⟩))

theorem MixReady.dist_apart_lfe (hdist : runsDistance s = true) (hlfe : runsLfeLowPass s = true) {v : Nat} (hv : v < m.v) :
    (distContext s m).Apart (lfeContext s m v) := by
  obtain ⟨happart, -, -⟩ := h.apart
  rw [mixContexts_eq, if_pos hdist, if_pos hlfe] at happart
  obtain ⟨hfirst, -⟩ := List.pairwise_cons.1 happart
  exact fun _ => not_inRegion_of_not_overlap (hfirst _ (List.mem_map.2 ⟨v, List.mem_range.2 hv, rfl⟩))

theorem MixReady.lfe_apart_lfe (hlfe : runsLfeLowPass s = true) {v w : Nat} (hv : v < m.v) (hw : w < m.v) (hne : v ≠ w) :
    (lfeContext s m v).Apart (lfeContext s m w) := by
  obtain ⟨happart, -, -⟩ := h.apart
  rw [mixContexts_eq, if_pos hlfe] at happart
  obtain ⟨-, hlist, -⟩ := List.pairwise_append.1 happart
  rw [List.pairwise_map] at hlist
  have hsymm : Std.Symm fun v w => overlap (lfeContext s m v).region (lfeContext s m w).region = false :=
    ⟨fun _ _ hvw => by rwa [overlap_comm]⟩
  exact fun _ => not_inRegion_of_not_overlap (hlist.forall (List.mem_range.2 hv) (List.mem_range.2 hw) hne)

end

theorem ContextReady.chunkWrites_in_region {s : State} {m : MixOperands} {c : OlaShape} (h : ContextReady s m c) {a : Nat}
    (ha : c.ChunkWrites s a) : InRegion c.cx (ctxSize c.p c.depth) a := OlaShape.stepped_in_region h.fits.depthPos ha

theorem ContextReady.scratch_apart {s : State} {m : MixOperands} {c : OlaShape} (h : ContextReady s m c) {base a : Nat}
    (hlow : m.scr ≤ base) (hhigh : base ≤ m.scr + 2 * m.b) (ha : InRegion base m.b a) :
    ¬ InRegion c.cx (ctxSize c.p c.depth) a := by
  refine h.scratch a ?_
  unfold InRegion at ha ⊢
  omega

/-- A chunk of a ready context filtered in place in one of the three scratch blocks. -/
theorem ContextReady.filtered {s t : State} {m : MixOperands} {c : OlaShape} (h : ContextReady s m c) (hag : c.Agree s t)
    {base : Nat} (hlow : m.scr ≤ base) (hhigh : base ≤ m.scr + 2 * m.b) {xs : List Word} (hx : xs.length = m.b) :
    FilteredInPlace c base xs s t (chunkInPlace c base xs t) :=
  chunkInPlace_filtered h.fits hag (hx.trans h.block.symm) fun _ ha => h.scratch_apart hlow hhigh (h.block ▸ ha)

/-! ## The LFE low-pass (42_spatial.md R214) -/

theorem lfeChannel_eq (s t : State) (m : MixOperands) (v : Nat) :
    let u := chunkInPlace (lfeContext s m v) (m.scr + m.b) (channel s m v) t
    lfeChannel s.dmem m t (v, lfeContext s m v) = u.dWriteWords (m.scr + 2 * m.b)
      ((List.range m.b).map fun f => fadd (u.dRead (m.scr + 2 * m.b + f)) (u.dRead (m.scr + m.b + f))) := by
  have hread := readWords_dWriteWords t (m.scr + m.b) (channel_length s m v)
  unfold channel at hread
  simp only [lfeChannel, chunkInPlace, channel, hread]

/-- The low-pass as a fold over the channels. -/
def lowPassFold (s : State) (m : MixOperands) (n : Nat) (t : State) : State :=
  (List.range n).foldl (fun u v => lfeChannel s.dmem m u (v, lfeContext s m v)) t

theorem lowPassFold_succ (s : State) (m : MixOperands) (n : Nat) (t : State) :
    lowPassFold s m (n + 1) t = lfeChannel s.dmem m (lowPassFold s m n t) (n, lfeContext s m n) := by
  simp [lowPassFold, List.range_succ]

theorem lfeStage_lowPass (s : State) (m : MixOperands) {t : State} (h : t.act.lfeLpEn = true) :
    lfeStage s.dmem m ((lfeBases s m).map (ctxShape s)) t =
      lowPassFold s m m.v (t.dWriteWords (m.scr + 2 * m.b) (List.replicate m.b 0#32)) := by
  rw [lfeStage, if_pos h, lfeContexts_eq, ← List.map_prod_left_eq_zip, List.foldl_map]
  rfl

/-- What the low-pass of the first n channels leaves, from a state `t` on. -/
structure LowPassLeft (s : State) (m : MixOperands) (t : State) (n : Nat) (u : State) : Prop where
  contexts : ∀ v, v < n → (lfeContext s m v).Agree (olaStep (lfeContext s m v) (channel s m v) s).state u
  last     : ∀ v, n = v + 1 → ∀ f, f < m.b → u.dRead (m.scr + m.b + f) = (lowPassed s m v).getD f 0#32
  sum      : ∀ f, f < m.b →
    u.dRead (m.scr + 2 * m.b + f) = fsum ((List.range n).map fun v => (lowPassed s m v).getD f 0#32)
  frame    : ∀ a, ¬ InRegion (m.scr + m.b) m.b a → ¬ InRegion (m.scr + 2 * m.b) m.b a →
    (∀ v, v < n → ¬ (lfeContext s m v).ChunkWrites s a) → u.dRead a = t.dRead a

section
variable {s : State} {m : MixOperands} (h : MixReady s m) (hlfe : runsLfeLowPass s = true)
include h hlfe

/-- A channel's context still reads as found before its chunk: the channels before it wrote elsewhere. -/
theorem LowPassLeft.agree {t u : State} {n v : Nat} (hu : LowPassLeft s m t n u) (hn : n ≤ v) (hv : v < m.v)
    (hag : (lfeContext s m v).Agree s t) : (lfeContext s m v).Agree s u := by
  have hready := h.lfeReady hlfe hv
  refine fun a ha => (hu.frame a (fun hin => ?_) (fun hin => ?_) fun w hw hwrite => ?_).trans (hag a ha)
  · exact hready.scratch_apart (by omega) (by omega) hin ha
  · exact hready.scratch_apart (by omega) (by omega) hin ha
  · exact h.lfe_apart_lfe hlfe (by omega) hv (by omega) a
      ((h.lfeReady hlfe (by omega)).chunkWrites_in_region hwrite) ha

theorem LowPassLeft.succ {t u : State} {n : Nat} (hu : LowPassLeft s m t n u) (hn : n < m.v)
    (hag : (lfeContext s m n).Agree s t) :
    LowPassLeft s m t (n + 1) (lfeChannel s.dmem m u (n, lfeContext s m n)) := by
  have hready := h.lfeReady hlfe hn
  obtain ⟨hcontext, houtput, hframe⟩ := hready.filtered (hu.agree h hlfe le_rfl hn hag) (base := m.scr + m.b) (by omega)
    (by omega) (channel_length s m n)
  rw [hready.block] at houtput hframe
  rw [lfeChannel_eq]
  generalize chunkInPlace (lfeContext s m n) (m.scr + m.b) (channel s m n) u = w at hcontext houtput hframe
  have hsum : ((List.range m.b).map fun f =>
      fadd (w.dRead (m.scr + 2 * m.b + f)) (w.dRead (m.scr + m.b + f))).length = m.b := by simp
  refine ⟨fun v hv a ha => ?_, fun v hv f hf => ?_, fun f hf => ?_, fun a hlast hblock hwrites => ?_⟩
  · have hvready := h.lfeReady hlfe (v := v) (by omega)
    rw [dRead_dWriteWords_outside w hsum fun hin => hvready.scratch_apart (by omega) (by omega) hin ha]
    rcases Nat.lt_succ_iff_lt_or_eq.1 hv with hlt | rfl
    · rw [hframe a (fun hin => hvready.scratch_apart (by omega) (by omega) hin ha) fun hwrite =>
        h.lfe_apart_lfe hlfe hn (by omega) (by omega) a (hready.chunkWrites_in_region hwrite) ha]
      exact hu.contexts v hlt a ha
    · exact hcontext a ha
  · obtain rfl : n = v := by omega
    rw [dRead_dWriteWords_outside w hsum (by unfold InRegion; omega)]
    exact houtput f hf
  · have hold : w.dRead (m.scr + 2 * m.b + f) = u.dRead (m.scr + 2 * m.b + f) :=
      hframe _ (by unfold InRegion; omega) fun hwrite => hready.scratch_apart (base := m.scr + 2 * m.b) (by omega) (by omega)
        (by unfold InRegion; omega) (hready.chunkWrites_in_region hwrite)
    rw [dRead_dWriteWords_at w _ _ (hsum.symm ▸ hf), List.getElem_map, List.getElem_range, hold, houtput f hf, hu.sum f hf,
      List.range_succ, List.map_append, List.map_singleton, fsum_append]
    rfl
  · rw [dRead_dWriteWords_outside w hsum hblock, hframe a hlast (hwrites n (by omega)),
      hu.frame a hlast hblock fun v hv => hwrites v (by omega)]

/-- The low-pass over the zeroed sum block. -/
theorem lowPassFold_left {t : State} (hag : ∀ v, v < m.v → (lfeContext s m v).Agree s t)
    (hzero : ∀ f, f < m.b → t.dRead (m.scr + 2 * m.b + f) = 0#32) {n : Nat} (hn : n ≤ m.v) :
    LowPassLeft s m t n (lowPassFold s m n t) := by
  induction n with
  | zero => exact ⟨fun v hv => absurd hv (Nat.not_lt_zero v), fun v hv => by omega, hzero, fun _ _ _ _ => rfl⟩
  | succ n ih =>
    rw [lowPassFold_succ]
    exact (ih (by omega)).succ h hlfe hn (hag n hn)

end

/-! ## All that the stages leave -/

/-- The distance part of the stages. -/
def distPart (s : State) (m : MixOperands) : State :=
  if runsDistance s then chunkInPlace (distContext s m) m.scr (monoSum s m) (snapshot s) else snapshot s

/-- The LFE part of the stages. -/
def lfePart (s : State) (m : MixOperands) (t : State) : State :=
  if s.layout.hasLfe then
    if runsLfeLowPass s then lowPassFold s m m.v (t.dWriteWords (m.scr + 2 * m.b) (List.replicate m.b 0#32))
    else t.dWriteWords (m.scr + 2 * m.b) (monoSum s m)
  else t

theorem distStage_eq (s t : State) (m : MixOperands) :
    distStage s.dmem m (distContext s m) t = chunkInPlace (distContext s m) m.scr (monoSum s m) t := by
  have hread := readWords_dWriteWords t m.scr (monoSum_length s m)
  unfold monoSum at hread
  simp only [distStage, chunkInPlace, monoSum, hread]

theorem distPart_act (s : State) (m : MixOperands) : (distPart s m).act = prospective s := by
  obtain ⟨d, hd⟩ : DmemOnly (snapshot s) (distPart s m) := by
    rw [distPart]
    split
    · exact chunkInPlace_only _ _ _ _
    · exact DmemOnly.refl _
  rw [hd]
  exact snapshot_act s

theorem mixStages_eq (s : State) : mixStages s = lfePart s (mixOperands s) (distPart s (mixOperands s)) := by
  have hdist : (snapshot s).act.distEn = runsDistance s := by rw [snapshot_act]; rfl
  have hpart : (if (snapshot s).act.distEn = true then
      distStage s.dmem (mixOperands s) (ctxShape s (mixOperands s).cd) (snapshot s) else snapshot s) =
      distPart s (mixOperands s) := by
    rw [distPart, hdist, ← distStage_eq]
    rfl
  simp only [mixStages, hpart]
  rw [lfePart]
  split
  next hl =>
    have hlp : (distPart s (mixOperands s)).act.lfeLpEn = runsLfeLowPass s := by
      simp [distPart_act, runsLfeLowPass, hl]
    split
    next hrun => exact lfeStage_lowPass s _ (hlp.trans hrun)
    next hrun => rw [lfeStage, if_neg (hlp ▸ hrun)]; rfl
  next => rfl

/-- A DMEM word the distance part writes. -/
def DistWrites (s : State) (m : MixOperands) (a : Nat) : Prop :=
  runsDistance s = true ∧ (InRegion m.scr m.b a ∨ (distContext s m).ChunkWrites s a)

/-- A DMEM word the LFE part writes. -/
def LfeWrites (s : State) (m : MixOperands) (a : Nat) : Prop :=
  (s.layout.hasLfe = true ∧ InRegion (m.scr + 2 * m.b) m.b a) ∨
  (runsLfeLowPass s = true ∧
    (InRegion (m.scr + m.b) m.b a ∨ ∃ v, v < m.v ∧ (lfeContext s m v).ChunkWrites s a))

/-- What the distance part leaves. -/
structure DistLeft (s : State) (m : MixOperands) (t : State) : Prop where
  context : runsDistance s = true → (distContext s m).Agree (olaStep (distContext s m) (monoSum s m) s).state t
  output  : runsDistance s = true → ∀ f, f < m.b →
    t.dRead (m.scr + f) = (distSignal s m).getD f 0#32
  frame   : ∀ a, ¬ DistWrites s m a → t.dRead a = s.dRead a

/-- What the LFE part leaves, from a state `t` on. -/
structure LfeLeft (s : State) (m : MixOperands) (t u : State) : Prop where
  contexts : runsLfeLowPass s = true →
    ∀ v, v < m.v → (lfeContext s m v).Agree (olaStep (lfeContext s m v) (channel s m v) s).state u
  last     : runsLfeLowPass s = true → ∀ f, f < m.b →
    u.dRead (m.scr + m.b + f) = (lowPassed s m (m.v - 1)).getD f 0#32
  sum      : runsLfeLowPass s = true → ∀ f, f < m.b →
    u.dRead (m.scr + 2 * m.b + f) = lowPassedSum s m f
  raw      : s.layout.hasLfe = true → runsLfeLowPass s = false → ∀ f, f < m.b →
    u.dRead (m.scr + 2 * m.b + f) = channelSum s.dmem m f
  frame    : ∀ a, ¬ LfeWrites s m a → u.dRead a = t.dRead a

theorem snapshot_dRead (s : State) (a : Nat) : (snapshot s).dRead a = s.dRead a := by rw [State.dRead, snapshot_dmem]; rfl

section
variable {s : State} {m : MixOperands} (h : MixReady s m)
include h

theorem distPart_left : DistLeft s m (distPart s m) := by
  rw [distPart]
  split
  next hdist =>
    have hready := h.distReady hdist
    obtain ⟨hcontext, houtput, hframe⟩ := hready.filtered (fun a _ => snapshot_dRead s a) le_rfl (by omega)
      (monoSum_length s m)
    rw [hready.block] at houtput hframe
    refine ⟨fun _ => hcontext, fun _ => houtput, fun a ha => ?_⟩
    rw [hframe a (fun hin => ha ⟨hdist, .inl hin⟩) fun hwrite => ha ⟨hdist, .inr hwrite⟩, snapshot_dRead]
  next hdist => exact ⟨fun hrun => absurd hrun hdist, fun hrun => absurd hrun hdist, fun a _ => snapshot_dRead s a⟩

/-- The channels' contexts read as found after the distance part. -/
theorem DistLeft.lfe_agree {t : State} (ht : DistLeft s m t) (hlfe : runsLfeLowPass s = true) {v : Nat} (hv : v < m.v) :
    (lfeContext s m v).Agree s t := by
  refine fun a ha => ht.frame a ?_
  rintro ⟨hdist, hin | hwrite⟩
  · exact (h.lfeReady hlfe hv).scratch_apart le_rfl (by omega) hin ha
  · exact h.dist_apart_lfe hdist hlfe hv a ((h.distReady hdist).chunkWrites_in_region hwrite) ha

theorem lfePart_left {t : State} (ht : DistLeft s m t) : LfeLeft s m t (lfePart s m t) := by
  have hvpos := h.vPos
  rw [lfePart]
  split
  next hl =>
    split
    next hlfe =>
      have hzeros : (List.replicate m.b 0#32).length = m.b := List.length_replicate
      obtain ⟨hcontexts, hlast, hsum, hframe⟩ := lowPassFold_left h hlfe
        (t := t.dWriteWords (m.scr + 2 * m.b) (List.replicate m.b 0#32))
        (fun v hv a ha => by
          rw [dRead_dWriteWords_outside t hzeros fun hin => (h.lfeReady hlfe hv).scratch_apart (by omega) (by omega) hin ha]
          exact ht.lfe_agree h hlfe hv a ha)
        (fun f hf => by rw [dRead_dWriteWords_at t _ _ (hzeros.symm ▸ hf), List.getElem_replicate]) le_rfl
      refine ⟨fun _ => hcontexts, fun _ => hlast _ (by omega), fun _ => hsum, fun _ hrun => ?_, fun a ha => ?_⟩
      · rw [hlfe] at hrun
        cases hrun
      · have hblock : ¬ InRegion (m.scr + 2 * m.b) m.b a := fun hin => ha (.inl ⟨hl, hin⟩)
        rw [hframe a (fun hin => ha (.inr ⟨hlfe, .inl hin⟩)) hblock
          fun v hv hwrite => ha (.inr ⟨hlfe, .inr ⟨v, hv, hwrite⟩⟩), dRead_dWriteWords_outside t hzeros hblock]
    next hlfe =>
      refine ⟨fun hrun => absurd hrun hlfe, fun hrun => absurd hrun hlfe, fun hrun => absurd hrun hlfe, fun _ _ f hf => ?_,
        fun a ha => ?_⟩
      · rw [dRead_dWriteWords_at t _ _ ((monoSum_length s m).symm ▸ hf)]
        simp [monoSum]
      · exact dRead_dWriteWords_outside t (monoSum_length s m) fun hin => ha (.inl ⟨hl, hin⟩)
  next hl =>
    have hlfe : ¬ runsLfeLowPass s = true := by simp [runsLfeLowPass, hl]
    exact ⟨fun hrun => absurd hrun hlfe, fun hrun => absurd hrun hlfe, fun hrun => absurd hrun hlfe,
      fun hrun => absurd hrun hl, fun _ _ => rfl⟩

/-- Where the LFE part writes: the upper two scratch blocks, and the contexts of the channels. -/
theorem LfeWrites.place {a : Nat} (ha : LfeWrites s m a) :
    InRegion (m.scr + m.b) (2 * m.b) a ∨
      runsLfeLowPass s = true ∧ ∃ v, v < m.v ∧
        InRegion (lfeContext s m v).cx (ctxSize (lfeContext s m v).p (lfeContext s m v).depth) a := by
  rcases ha with ⟨-, hin⟩ | ⟨hlfe, hin | ⟨v, hv, hwrite⟩⟩
  · exact .inl (by unfold InRegion at hin ⊢; omega)
  · exact .inl (by unfold InRegion at hin ⊢; omega)
  · exact .inr ⟨hlfe, v, hv, (h.lfeReady hlfe hv).chunkWrites_in_region hwrite⟩

/-- What the distance part leaves in its context and block, the LFE part keeps. -/
theorem DistLeft.after_lfe {t u : State} (ht : DistLeft s m t) (hu : LfeLeft s m t u) (hdist : runsDistance s = true) :
    (distContext s m).Agree (olaStep (distContext s m) (monoSum s m) s).state u ∧
      ∀ f, f < m.b → u.dRead (m.scr + f) = (distSignal s m).getD f 0#32 := by
  refine ⟨fun a ha => (hu.frame a fun hwrite => ?_).trans (ht.context hdist a ha),
    fun f hf => (hu.frame _ fun hwrite => ?_).trans (ht.output hdist f hf)⟩
  · rcases hwrite.place h with hin | ⟨hlfe, v, hv, hin⟩
    · exact (h.distReady hdist).scratch a (by unfold InRegion at hin ⊢; omega) ha
    · exact h.dist_apart_lfe hdist hlfe hv a ha hin
  · rcases hwrite.place h with hin | ⟨hlfe, v, hv, hin⟩
    · unfold InRegion at hin
      omega
    · exact (h.lfeReady hlfe hv).scratch (m.scr + f) (by unfold InRegion; omega) hin

end

end Sys2Proof.Machine
end

section
/-! SUPPORT. The frames of MIX (42_spatial.md R212, R218), and what a MIX that passes its checks leaves: its results and
frame, its output words and reverb, its contexts and scratch (R210 to R217). -/

namespace Sys2Proof.Machine

/-! ## The reverb over a run of inputs (42_spatial.md R218) -/

/-- Everything a reverb step reads is the same. -/
structure SameReverb (s t : State) : Prop where
  rev    : t.rev = s.rev
  revCur : t.revCur = s.revCur
  revLen : t.revLen = s.revLen
  act    : t.act = s.act

theorem SameReverb.trans {s t u : State} (h : SameReverb s t) (k : SameReverb t u) : SameReverb s u :=
  ⟨k.rev.trans h.rev, k.revCur.trans h.revCur, k.revLen.trans h.revLen, k.act.trans h.act⟩

theorem sameReverb_of_dmemOnly {s t : State} (h : DmemOnly s t) : SameReverb s t := by
  obtain ⟨d, rfl⟩ := h
  exact ⟨rfl, rfl, rfl, rfl⟩

theorem SameReverb.step {s t : State} (h : SameReverb s t) (u : Word) :
    SameReverb (reverbStep s u).state (reverbStep t u).state ∧ (reverbStep t u).out = (reverbStep s u).out := by
  obtain ⟨hrev, hcur, hlen, hact⟩ := h
  simp only [reverbStep, hrev, hcur, hlen, hact]
  split
  · exact ⟨⟨hrev, hcur, hlen, hact⟩, rfl⟩
  · exact ⟨⟨rfl, rfl, rfl, rfl⟩, rfl⟩

theorem SameReverb.run {s t : State} (h : SameReverb s t) (us : List Word) :
    SameReverb (reverbRun s us).state (reverbRun t us).state ∧ (reverbRun t us).out = (reverbRun s us).out := by
  induction us generalizing s t with
  | nil => exact ⟨h, rfl⟩
  | cons u us ih =>
    obtain ⟨hstate, hout⟩ := h.step u
    obtain ⟨hstates, houts⟩ := ih hstate
    exact ⟨hstates, by simp only [reverbRun, hout, houts]⟩

theorem reverbRun_concat (s : State) (us : List Word) (u : Word) :
    reverbRun s (us ++ [u]) =
      { state := (reverbStep (reverbRun s us).state u).state
        out := (reverbRun s us).out ++ [(reverbStep (reverbRun s us).state u).out] } := by
  induction us generalizing s with
  | nil => rfl
  | cons v us ih => simp [reverbRun, ih]

theorem reverbRun_out_length (s : State) (us : List Word) : (reverbRun s us).out.length = us.length := by
  induction us generalizing s with
  | nil => rfl
  | cons u us ih => simp [reverbRun, ih]

/-- The run of the first n of a sequence of inputs. -/
def reverbRunTo (s : State) (w : Nat → Word) (n : Nat) : ChunkResult := reverbRun s ((List.range n).map w)

theorem reverbRunTo_succ (s : State) (w : Nat → Word) (n : Nat) :
    reverbRunTo s w (n + 1) =
      { state := (reverbStep (reverbRunTo s w n).state (w n)).state
        out := (reverbRunTo s w n).out ++ [(reverbStep (reverbRunTo s w n).state (w n)).out] } := by
  rw [reverbRunTo, List.range_succ, List.map_append, List.map_singleton, reverbRun_concat]
  rfl

/-- Output f of a run is that of the step at f, whatever follows. -/
theorem reverbRunTo_out (s : State) (w : Nat → Word) {f n : Nat} (hf : f < n) :
    (reverbRunTo s w n).out.getD f 0#32 = (reverbStep (reverbRunTo s w f).state (w f)).out := by
  have hlen (k : Nat) : (reverbRunTo s w k).out.length = k := by simp [reverbRunTo, reverbRun_out_length]
  induction n with
  | zero => omega
  | succ n ih =>
    rw [reverbRunTo_succ, List.getD_eq_getElem?_getD]
    rcases Nat.lt_succ_iff_lt_or_eq.1 hf with hlt | rfl
    · rw [List.getElem?_append_left (by rwa [hlen]), ← List.getD_eq_getElem?_getD, ih hlt]
    · rw [List.getElem?_append_right (by rw [hlen]), hlen, Nat.sub_self]
      rfl

/-! ## The frames (42_spatial.md R212) -/

/-- The state after the first n frames. -/
def framesTo (d : Ram) (m : MixOperands) (s : State) (n : Nat) : State := (List.range n).foldl (frameOut d m) s

theorem framesTo_succ (d : Ram) (m : MixOperands) (s : State) (n : Nat) :
    framesTo d m s (n + 1) = frameOut d m (framesTo d m s n) n := by simp [framesTo, List.range_succ]

/-- The reverb input of frame f, by the scratch words the stages left. -/
def reverbInput (m : MixOperands) (s : State) (f : Nat) : Word := fmul s.act.base (s.dRead (m.scr + f))

theorem frameOut_sameReverb (d : Ram) (m : MixOperands) (t : State) (f : Nat) :
    SameReverb (frameReverb m t f).state (frameOut d m t f) := ⟨rfl, rfl, rfl, rfl⟩

/-- A word outside the frame's output is left alone. -/
theorem frameOut_dRead_other (d : Ram) (m : MixOperands) (t : State) (f : Nat) {a : Nat}
    (h : ¬ InRegion (m.y + f * t.layout.speakers) t.layout.speakers a) : (frameOut d m t f).dRead a = t.dRead a := by
  have hr := frameReverb_only m t f
  rw [frameOut_eq, dRead_dWriteWords_outside _ (by simp) h, hr]
  rfl

theorem frameOut_dRead_word (d : Ram) (m : MixOperands) (t : State) (f : Nat) {sp : Nat} (hsp : sp < t.layout.speakers) :
    (frameOut d m t f).dRead (m.y + f * t.layout.speakers + sp) =
      speakerSample d m t (frameReverb m t f).out f sp := by
  have hr := frameReverb_only m t f
  rw [frameOut_eq, dRead_dWriteWords_at _ _ _ (by simpa using hsp), List.getElem_map, List.getElem_range, hr]
  exact speakerSample_congr d m _ f sp rfl rfl rfl

section
variable {m : MixOperands} {s : State} (d : Ram) (hy : m.y + s.layout.speakers * m.b ≤ Config.dmemWords)
  (hov : overlap ⟨m.y, s.layout.speakers * m.b⟩ ⟨m.scr, 3 * m.b⟩ = false)
include hy

theorem framesTo_inv {n : Nat} (hn : n ≤ m.b) : FrameInv m s (framesTo d m s n) :=
  frames_inv d hy (List.range n) (fun _ hf => Nat.lt_of_lt_of_le (List.mem_range.1 hf) hn) s (FrameInv.refl m s)

include hov

theorem framesTo_dRead_scratch {n a : Nat} (hn : n ≤ m.b) (ha : InRegion m.scr (3 * m.b) a) :
    (framesTo d m s n).dRead a = s.dRead a :=
  (framesTo_inv d hy hn).frame a fun hin => not_inRegion_of_not_overlap hov hin ha

/-- The reverb part of frame n, on the inputs the stages left. -/
theorem frameReverb_framesTo {n : Nat} (hn : n < m.b) :
    frameReverb m (framesTo d m s n) n =
      if s.act.distEn then reverbStep (framesTo d m s n) (reverbInput m s n) else ⟨framesTo d m s n, 0#32⟩ := by
  rw [frameReverb, (framesTo_inv d hy hn.le).act,
    framesTo_dRead_scratch d hy hov hn.le (a := m.scr + n) (by unfold InRegion; omega)]
  rfl

theorem framesTo_reverb (hdist : s.act.distEn = true) {n : Nat} (hn : n ≤ m.b) :
    SameReverb (reverbRunTo s (reverbInput m s) n).state (framesTo d m s n) := by
  induction n with
  | zero => exact ⟨rfl, rfl, rfl, rfl⟩
  | succ n ih =>
    obtain ⟨hstep, -⟩ := (ih (by omega)).step (reverbInput m s n)
    have hframe := frameOut_sameReverb d m (framesTo d m s n) n
    rw [frameReverb_framesTo d hy hov hn, if_pos hdist] at hframe
    rw [framesTo_succ, reverbRunTo_succ]
    exact hstep.trans hframe

/-- The reverb output of frame f: that of the run of all the frames' inputs. -/
theorem frameReverb_framesTo_out {f : Nat} (hf : f < m.b) :
    (frameReverb m (framesTo d m s f) f).out =
      if s.act.distEn then (reverbRunTo s (reverbInput m s) m.b).out.getD f 0#32 else 0#32 := by
  rw [frameReverb_framesTo d hy hov hf]
  split
  next hdist =>
    obtain ⟨-, hout⟩ := (framesTo_reverb d hy hov hdist hf.le).step (reverbInput m s f)
    rw [reverbRunTo_out s _ hf, hout]
  next => rfl

/-- Every output word, by the state the stages left. -/
theorem framesTo_word {n f sp : Nat} (hn : n ≤ m.b) (hf : f < n) (hsp : sp < s.layout.speakers) :
    (framesTo d m s n).dRead (m.y + f * s.layout.speakers + sp) =
      speakerSample d m s (if s.act.distEn then (reverbRunTo s (reverbInput m s) m.b).out.getD f 0#32 else 0#32) f sp := by
  induction n with
  | zero => omega
  | succ n ih =>
    have hinv := framesTo_inv d hy (n := n) (by omega)
    rw [framesTo_succ]
    rcases Nat.lt_succ_iff_lt_or_eq.1 hf with hlt | rfl
    · rw [frameOut_dRead_other, ih (by omega) hlt]
      have hbefore := Nat.mul_le_mul_right s.layout.speakers (show f + 1 ≤ n from hlt)
      rw [Nat.succ_mul] at hbefore
      rw [hinv.layout]
      unfold InRegion
      omega
    · have hword := frameOut_dRead_word d m (framesTo d m s f) f (sp := sp) (by rwa [hinv.layout])
      rw [hinv.layout, frameReverb_framesTo_out d hy hov (by omega)] at hword
      rw [hword]
      exact speakerSample_congr d m _ f sp hinv.layout hinv.act
        (framesTo_dRead_scratch d hy hov (by omega) (by unfold InRegion; omega))

end

/-! ## MIX -/

theorem exec_mix_passed {s : State} (h : checkMix s = none) :
    exec .mix s = .next (completeOk (mixEffect s).state (mixEffect s).r0 (mixEffect s).r1) :=
  (exec_eq_runCommand .mix s).trans (runCommand_passed h)

/-- What the snapshot leaves of the reverb (42_spatial.md R215, R217). -/
theorem snapshot_reverb (s : State) :
    let rebuilt := s.changed = true ∧ (s.tun.revDelay ≠ s.act.revDelay ∨ s.tun.revDecay ≠ s.act.revDecay)
    (snapshot s).revLen = (if rebuilt then revLength { s with act := s.tun } else s.revLen) ∧
    (snapshot s).revCur = (if rebuilt then 0 else s.revCur) ∧
    ∀ a, (snapshot s).rev.read a = if rebuilt then 0#32 else s.rev.read a := by
  dsimp only
  rcases snapshot_cases s with ⟨hc, hs⟩ | ⟨hc, hdelay, hdecay, hs⟩ | ⟨hc, hdiff, hs⟩
  · rw [hs]
    simp [hc]
  · rw [hs]
    simp [hdelay, hdecay]
  · rw [hs]
    simp only [hc, hdiff, and_self, if_true]
    exact ⟨rfl, rfl, fun _ => rfl⟩

section
variable {s : State} (h : checkMix s = none)
include h

theorem mixStages_left : ∃ t, DistLeft s (mixOperands s) t ∧ LfeLeft s (mixOperands s) t (mixStages s) := by
  have hready := checkMix_ready h
  rw [mixStages_eq]
  exact ⟨_, distPart_left hready, lfePart_left hready (distPart_left hready)⟩

/-- The frames leave every word outside the output block. -/
theorem mixEffect_dRead_outside {a : Nat}
    (ha : ¬ InRegion (mixOperands s).y (s.layout.speakers * (mixOperands s).b) a) :
    (mixEffect s).state.dRead a = (mixStages s).dRead a := by
  have hready := checkMix_ready h
  refine (mixEffect_inv hready).frame a ?_
  rwa [mixStages_layout hready]

theorem mixEffect_dRead_frame {a : Nat} (ha : ¬ MixWrites s a) : (mixEffect s).state.dRead a = s.dRead a := by
  obtain ⟨t, hdist, hlfe⟩ := mixStages_left h
  rw [mixEffect_dRead_outside h fun hin => ha (.inl hin), hlfe.frame a fun hw => ha (.inr (.inr hw)),
    hdist.frame a fun hw => ha (.inr (.inl hw))]

/-- The output block lies apart from the three scratch blocks. -/
theorem mixEffect_dRead_scratch {off f : Nat} (hoff : off ≤ 2 * (mixOperands s).b) (hf : f < (mixOperands s).b) :
    (mixEffect s).state.dRead ((mixOperands s).scr + off + f) = (mixStages s).dRead ((mixOperands s).scr + off + f) :=
  mixEffect_dRead_outside h fun hin =>
    not_inRegion_of_not_overlap (checkMix_ready h).output_apart hin (by unfold InRegion; omega)

theorem mixEffect_dRead_context {c : OlaShape} (hc : ContextReady s (mixOperands s) c) {a : Nat}
    (ha : InRegion c.cx (ctxSize c.p c.depth) a) : (mixEffect s).state.dRead a = (mixStages s).dRead a :=
  mixEffect_dRead_outside h fun hin => hc.output a hin ha

/-- The output block by the layout the stages leave. -/
theorem mixStages_output :
    (mixOperands s).y + (mixStages s).layout.speakers * (mixOperands s).b ≤ Config.dmemWords ∧
      overlap ⟨(mixOperands s).y, (mixStages s).layout.speakers * (mixOperands s).b⟩
        ⟨(mixOperands s).scr, 3 * (mixOperands s).b⟩ = false := by
  have hready := checkMix_ready h
  rw [mixStages_layout hready]
  exact ⟨hready.yIn, hready.output_apart⟩

end

theorem mixEffect_act {s : State} (h : checkMix s = none) : (mixEffect s).state.act = prospective s :=
  (mixEffect_inv (checkMix_ready h)).act.trans (mixStages_act (checkMix_ready h))

/-- Settles O48: the snapshot by its cases, the rest by the frames of the stages and of the frames. -/
theorem mixCompletes : Obligations.MixCompletes := by
  unfold Obligations.MixCompletes
  intro s hcheck
  have hready := checkMix_ready hcheck
  have hframes := mixEffect_inv hready
  have hstages := sameReverb_of_dmemOnly (mixStages_only s)
  obtain ⟨hlen, hcur, hrev⟩ := snapshot_reverb s
  have hirq : (mixEffect s).state.irqPend = s.irqPend := (effect_irqPend .mix s).trans (if_neg (by simp))
  have hkept : (mixEffect s).state.revLen = (mixStages s).revLen := by rw [hframes.only]
  refine ⟨_, exec_mix_passed hcheck, ⟨rfl, rfl, rfl, rfl, congrArg (· ||| pendDone) hirq⟩, mixEffect_act hcheck,
    mixEffect_changed s, ?_, fun hdist => ?_, fun a ha => mixEffect_dRead_frame hcheck ha, effect_hostSide .mix s,
    mixEffect_ringUnchanged s⟩
  · exact (hkept.trans hstages.revLen).trans hlen
  · have hact : (mixStages s).act.distEn = false := by rw [mixStages_act hready]; exact hdist
    obtain ⟨hdryRev, hdryCur⟩ := hframes.dry hact
    refine ⟨(hdryCur.trans hstages.revCur).trans hcur, fun a => ?_⟩
    rw [completeOk_rev, hdryRev, hstages.rev]
    exact hrev a

/-- The LFE signal at frame f: the filtered sum, or the raw one (42_spatial.md R214). -/
def lfeSignal (s : State) (m : MixOperands) (f : Nat) : Word :=
  if (prospective s).lfeLpEn then lowPassedSum s m f else channelSum s.dmem m f

theorem LfeLeft.signal {s t u : State} {m : MixOperands} (hu : LfeLeft s m t u) (hl : s.layout.hasLfe = true) {f : Nat}
    (hf : f < m.b) : u.dRead (m.scr + 2 * m.b + f) = lfeSignal s m f := by
  have hruns : runsLfeLowPass s = (prospective s).lfeLpEn := by simp [runsLfeLowPass, hl]
  rw [lfeSignal]
  split
  next hlp => exact hu.sum (hruns.trans hlp) f hf
  next hlp => exact hu.raw hl (hruns.trans (by simpa using hlp)) f hf

/-- The reverb run of a MIX: from the snapshot, on the filtered distance signal (42_spatial.md R212). -/
def mixReverb (s : State) (m : MixOperands) : ChunkResult :=
  reverbRun (snapshot s) ((List.range m.b).map fun f => fmul (prospective s).base ((distSignal s m).getD f 0#32))

section
variable {s : State} (h : checkMix s = none)
include h

/-- A sample of a speaker, by the state the command found. -/
theorem speakerSample_mixStages (r : Word) {f : Nat} (hf : f < (mixOperands s).b) (sp : Nat) :
    speakerSample s.dmem (mixOperands s) (mixStages s) r f sp =
      if s.layout.isLfeSlot sp then
        if (prospective s).lfEn then
          fmul (prospective s).master (fadd (fmul (prospective s).lfe (lfeSignal s (mixOperands s) f)) r)
        else 0#32
      else if (prospective s).hfEn then
        fmul (prospective s).master
          (fadd (fmul (prospective s).base (directSum s.dmem (mixOperands s) s.layout f sp)) r)
      else 0#32 := by
  have hready := checkMix_ready h
  obtain ⟨t, -, hlfe⟩ := mixStages_left h
  rw [speakerSample, mixStages_layout hready, mixStages_act hready]
  split
  next hslot =>
    obtain ⟨hslots, -⟩ := (isLfeSlot_iff s.layout sp).1 hslot
    rw [hlfe.signal ((hasLfe_iff _).2 hslots) hf]
  next => rfl

/-- The run of the frames' reverb inputs is the MIX's reverb run. -/
theorem mixStages_reverbRun (hdist : runsDistance s = true) :
    SameReverb (mixReverb s (mixOperands s)).state
      (reverbRunTo (mixStages s) (reverbInput (mixOperands s) (mixStages s)) (mixOperands s).b).state ∧
    (reverbRunTo (mixStages s) (reverbInput (mixOperands s) (mixStages s)) (mixOperands s).b).out =
      (mixReverb s (mixOperands s)).out := by
  have hready := checkMix_ready h
  obtain ⟨t, hleft, hlfe⟩ := mixStages_left h
  obtain ⟨-, hsignal⟩ := hleft.after_lfe hready hlfe hdist
  have hinputs : (List.range (mixOperands s).b).map (reverbInput (mixOperands s) (mixStages s)) =
      (List.range (mixOperands s).b).map fun f =>
        fmul (prospective s).base ((distSignal s (mixOperands s)).getD f 0#32) := by
    refine List.map_congr_left fun f hf => ?_
    rw [reverbInput, mixStages_act hready, hsignal f (List.mem_range.1 hf)]
  rw [reverbRunTo, hinputs]
  exact (sameReverb_of_dmemOnly (mixStages_only s)).run _

theorem mixEffect_reverb (hdist : runsDistance s = true) :
    SameReverb (mixReverb s (mixOperands s)).state (mixEffect s).state := by
  have hready := checkMix_ready h
  have hact : (mixStages s).act.distEn = true := by rw [mixStages_act hready]; exact hdist
  obtain ⟨hy, hov⟩ := mixStages_output h
  obtain ⟨hstate, -⟩ := mixStages_reverbRun h hdist
  exact hstate.trans (framesTo_reverb s.dmem hy hov hact le_rfl)

/-- Every output word, by the state the command found. -/
theorem mixEffect_word {f sp : Nat} (hf : f < (mixOperands s).b) (hsp : sp < s.layout.speakers) :
    (mixEffect s).state.dRead ((mixOperands s).y + f * s.layout.speakers + sp) =
      speakerSample s.dmem (mixOperands s) (mixStages s)
        (if runsDistance s then (mixReverb s (mixOperands s)).out.getD f 0#32 else 0#32) f sp := by
  have hready := checkMix_ready h
  have hlayout := mixStages_layout hready
  have hdist : (mixStages s).act.distEn = runsDistance s := by rw [mixStages_act hready]; rfl
  obtain ⟨hy, hov⟩ := mixStages_output h
  have hword := framesTo_word s.dmem hy hov le_rfl hf (by rwa [hlayout])
  rw [hlayout, hdist] at hword
  refine hword.trans ?_
  split
  next hrun =>
    obtain ⟨-, hout⟩ := mixStages_reverbRun h hrun
    rw [hout]
  next => rfl

end

/-- Settles O49: the words by `mixEffect_word`, the reverb by `mixEffect_reverb`. -/
theorem mixWords : Obligations.MixWords := by
  unfold Obligations.MixWords
  intro s hcheck
  refine ⟨_, exec_mix_passed hcheck, fun f sp hf hsp => ?_, fun hdist => ?_⟩
  · have hword := mixEffect_word hcheck hf hsp
    rw [speakerSample_mixStages hcheck _ hf] at hword
    simp only [isLfeSlot_iff] at hword
    exact hword
  · have hreverb := mixEffect_reverb hcheck hdist
    exact ⟨hreverb.rev, hreverb.revCur⟩

theorem block_holds {t : State} {base n : Nat} {xs : List Word} (hlen : xs.length = n)
    (hread : ∀ f, f < n → t.dRead (base + f) = xs.getD f 0#32) :
    xs.length = n ∧ ∀ f, f < n → xs[f]? = some (t.dRead (base + f)) :=
  ⟨hlen, fun f hf => by rw [hread f hf]; exact getElem?_eq_some_getD 0#32 (hlen.symm ▸ hf)⟩

theorem range_holds {t : State} {base n : Nat} {g : Nat → Word} (hread : ∀ f, f < n → t.dRead (base + f) = g f) :
    ((List.range n).map g).length = n ∧ ∀ f, f < n → ((List.range n).map g)[f]? = some (t.dRead (base + f)) :=
  block_holds (by simp) fun f hf => by simp [hread f hf, hf]

/-- Settles O50: the stages leave it, and the frames write the output block only. -/
theorem mixContextsLeft : Obligations.MixContexts := by
  unfold Obligations.MixContexts
  intro s hcheck
  have hready := checkMix_ready hcheck
  obtain ⟨t, hdist, hlfe⟩ := mixStages_left hcheck
  have hvpos := hready.vPos
  have hblock (off f : Nat) (hoff : off ≤ 2 * (mixOperands s).b) (hf : f < (mixOperands s).b) :=
    mixEffect_dRead_scratch hcheck hoff hf
  refine ⟨_, exec_mix_passed hcheck, fun hrun => ?_, fun hrun => ⟨fun v hv a ha => ?_, ?_, ?_⟩, fun hl hrun => ?_⟩
  · obtain ⟨hcontext, houtput⟩ := hdist.after_lfe hready hlfe hrun
    exact ⟨fun a ha => (mixEffect_dRead_context hcheck (hready.distReady hrun) ha).trans (hcontext a ha),
      block_holds ((olaStep_out_length _ _ s).trans (hready.distReady hrun).block) fun f hf =>
        (hblock 0 f (Nat.zero_le _) hf).trans (houtput f hf)⟩
  · exact (mixEffect_dRead_context hcheck (hready.lfeReady hrun hv) ha).trans (hlfe.contexts hrun v hv a ha)
  · exact block_holds ((olaStep_out_length _ _ s).trans
      (hready.lfeReady hrun (v := (mixOperands s).v - 1) (by omega)).block) fun f hf =>
        (hblock (mixOperands s).b f (by omega) hf).trans (hlfe.last hrun f hf)
  · exact range_holds fun f hf => (hblock (2 * (mixOperands s).b) f le_rfl hf).trans (hlfe.sum hrun f hf)
  · exact range_holds fun f hf => (hblock (2 * (mixOperands s).b) f le_rfl hf).trans
      (hlfe.raw ((hasLfe_iff _).2 hl) hrun f hf)

end Sys2Proof.Machine
end

section
/-! SUPPORT. The ring and its coordinator (43_ring.md R241 to R263): START, STOP, RING_PUSH, and the words a drain request
delivers. -/

namespace Sys2Proof.Machine

/-! ## START, STOP and RING_PUSH (43_ring.md R241, R246, R251) -/

/-- Settles O53: both checks in order; a passed START leaves both memories `Ram.zeroed`. -/
theorem startCompletes : Obligations.StartCompletes := by
  unfold Obligations.StartCompletes
  intro s
  rw [exec_eq_runCommand]
  refine runCommand_completes_ite (checkStart.eq_1 s) fun _ hcheck => ?_
  refine runCommand_completes_ite hcheck fun _ hcheck => ?_
  exact ⟨_, runCommand_passed hcheck, ⟨rfl, rfl, rfl, rfl, rfl⟩, rfl, rfl, rfl, rfl, rfl, Ram.zeroed_read, rfl, rfl,
    Ram.zeroed_read, rfl, effect_hostSide .start s, rfl, rfl⟩

theorem stopEffect_frame (s : State) :
    ReverbUnchanged s (stopEffect s).state ∧ SettingsUnchanged s (stopEffect s).state ∧
      (stopEffect s).state.dmem = s.dmem := by
  by_cases hstop : s.runState = .stopped
  · rw [stopEffect_stopped hstop]; exact ⟨⟨rfl, rfl, rfl⟩, ⟨rfl, rfl⟩, rfl⟩
  · rw [stopEffect_running hstop]; exact ⟨⟨rfl, rfl, rfl⟩, ⟨rfl, rfl⟩, rfl⟩

/-- Settles O54: the frame by `stopEffect_frame`, then STOP by the run state it finds. -/
theorem stopCompletes : Obligations.StopCompletes := by
  unfold Obligations.StopCompletes
  intro s
  obtain ⟨hreverb, hsettings, hdmem⟩ := stopEffect_frame s
  refine ⟨_, (exec_eq_runCommand .stop s).trans (runCommand_passed rfl), effect_hostSide .stop s, hreverb, hsettings,
    hdmem, ?_⟩
  split
  next hstop =>
    rw [effectOf, stopEffect_stopped hstop]
    exact ⟨⟨rfl, rfl, rfl, rfl, rfl⟩, rfl, rfl, rfl, rfl, rfl, rfl⟩
  next hstop =>
    have hpend : s.irqPend ||| pendDrain ||| pendDone = s.irqPend ||| 0x05#6 := BitVec.or_assoc _ _ _
    rw [effectOf, stopEffect_running hstop]
    exact ⟨rfl, rfl, rfl, rfl, hpend, rfl, rfl, rfl, rfl, rfl, Ram.zeroed_read⟩

theorem checkRingPush_eq (s : State) :
    checkRingPush s =
      if s.runState ≠ .running then some .state
      else if Config.dmemWords < argU32 s 0 + argU32 s 1 then some .range
      else if (s.ringCap : Int) - s.ringLevel < argU32 s 1 then some .noSpace
      else none := by
  have hspace : (s.ringCap : Int) - s.ringLevel < argU32 s 1 ↔ s.ringCap < s.ringLevel + argU32 s 1 := by omega
  simp only [checkRingPush, inside, Bool.not_eq_true', decide_eq_false_iff_not, not_le, hspace]

/-- Settles O55: the checks in order; the ring words of a passed RING_PUSH by the two laws of `ringPut`. -/
theorem ringPushCompletes : Obligations.RingPushCompletes := by
  unfold Obligations.RingPushCompletes
  intro s
  rw [exec_eq_runCommand]
  refine runCommand_completes_ite (checkRingPush_eq s) fun _ hcheck => ?_
  refine runCommand_completes_ite hcheck fun _ hcheck => ?_
  refine runCommand_completes_ite hcheck fun hspace hcheck => ?_
  have hlen := Ram.readWords_length s.dmem (argU32 s 0) (argU32 s 1)
  refine ⟨_, runCommand_passed hcheck, ⟨rfl, rfl, rfl, rfl, rfl⟩, fun i hi => ?_, fun a ha => ?_, rfl, rfl,
    rfl, rfl, rfl, rfl, effect_hostSide .ringPush s, ⟨rfl, rfl, rfl⟩, rfl, rfl⟩
  · have hword := ringPut_read_at s.ring (cap := s.ringCap) s.ringWr (s.dmem.readWords (argU32 s 0) (argU32 s 1))
      (by omega) (hlen.symm ▸ hi)
    rw [Ram.readWords_getElem] at hword
    exact hword
  · exact ringPut_read_other _ _ _ _ (by rwa [hlen])

/-! ## The drain port (43_ring.md R256 to R260, 20_memory.md R98) -/

theorem callbackRequest_of_dvd (n : Nat) : callbackRequest (4 * n) = some (.drain n) := by
  simp [callbackRequest]

theorem callbackRequest_of_not_dvd {n : Nat} (h : n % 4 ≠ 0) : callbackRequest n = none := if_neg h

theorem drainRequest_drainData_length (s : State) (L : Nat) : (drainRequest s L).drainData.length = L := by
  rcases drainRequest_cases s L with ⟨-, e⟩ | ⟨-, -, -, e⟩ | ⟨-, -, e⟩ <;> rw [e]
  · exact List.length_replicate
  · exact ringGet_length _ _ _ _
  · exact List.length_replicate

/-- Bit k of byte i of word j of the device byte stream is bit 8i + k of that word (20_memory.md R98). -/
theorem deviceBytes_getLsbD (s : State) {j i k : Nat} (hj : j < s.drainData.length) (hi : i < 4) (hk : k < 8) :
    (s.deviceBytes.getD (4 * j + i) 0#8).getLsbD k = (s.drainData.getD j 0#32).getLsbD (8 * i + k) := by
  rw [State.deviceBytes, List.getD_eq_getElem?_getD, streamBytes_get _ hj hi, Option.getD_some,
    List.getD_eq_getElem _ _ hj, wordByte_getLsbD _ _ _ hk]

theorem ringGet_getElem? (m : Ram) (cap rd : Nat) {L i : Nat} (hi : i < L) :
    (ringGet m cap rd L)[i]? = some (m.read ((rd + i) % cap)) := by
  simp [ringGet, hi]

theorem ringPut_zeros_read_at (m : Ram) {cap L i : Nat} (rd : Nat) (hL : L ≤ cap) (hi : i < L) :
    (ringPut m cap rd (List.replicate L 0#32)).read ((rd + i) % cap) = 0#32 := by
  rw [ringPut_read_at m rd _ (by rwa [List.length_replicate]) (by rwa [List.length_replicate]), List.getElem_replicate]

/-- Settles O56: the words and their bytes for every request, then the cases of `drainRequest_cases` and
`normalDrain_cases`. -/
theorem drainRequestServed : Obligations.DrainRequest := by
  unfold Obligations.DrainRequest
  refine ⟨fun n => ⟨callbackRequest_of_dvd n, callbackRequest_of_not_dvd⟩, fun s L => ?_⟩
  have hlen := drainRequest_drainData_length s L
  have hbytes : (drainRequest s L).deviceBytes.length = 4 * L := (streamBytes_length _).trans (congrArg (4 * ·) hlen)
  refine ⟨hlen, hbytes, fun j i k hj => deviceBytes_getLsbD _ (hlen.symm ▸ hj), ?_⟩
  rcases drainRequest_cases s L with ⟨hidle, e⟩ | ⟨hrun, hpos, hcap, e⟩ | ⟨hrun, hcap, e⟩
  · rw [if_pos hidle, e]
  · have hwords (i : Nat) (hi : i < L) :
        (ringGet s.ring s.ringCap s.ringRd L)[i]? = some (s.ring.read ((s.ringRd + i) % s.ringCap)) ∧
          (ringPut s.ring s.ringCap s.ringRd (List.replicate L 0#32)).read ((s.ringRd + i) % s.ringCap) = 0#32 :=
      ⟨ringGet_getElem? _ _ _ hi, ringPut_zeros_read_at _ _ hcap hi⟩
    have hother (a : Nat) (ha : ∀ i, i < L → a ≠ (s.ringRd + i) % s.ringCap) :
        (ringPut s.ring s.ringCap s.ringRd (List.replicate L 0#32)).read a = s.ring.read a :=
      ringPut_read_other _ _ _ _ (by rwa [List.length_replicate])
    rw [if_neg (not_or.2 ⟨not_not.2 hrun, hpos.ne'⟩), if_neg (Nat.not_lt.2 hcap), e]
    rcases normalDrain_cases s L with ⟨hlevel, hn⟩ | ⟨hunder, hn⟩
    · rw [if_pos hlevel, hn]
      exact ⟨hwords, hother, rfl, rfl, ⟨rfl, rfl, rfl, rfl⟩, rfl⟩
    · have hpend : s.irqPend ||| pendXrun ||| pendDrain = s.irqPend ||| 0x0C#6 := BitVec.or_assoc _ _ _
      rw [if_neg (Nat.not_le.2 hunder), hn]
      exact ⟨hwords, hother, rfl, rfl, ⟨rfl, rfl, hpend, rfl⟩, rfl⟩
  · rw [if_neg (not_or.2 ⟨not_not.2 hrun, by omega⟩), if_pos hcap, e]
    rfl

/-! ## An underrun (43_ring.md R259, R263) -/

theorem ringGet_add (m : Ram) (cap rd a b : Nat) : ringGet m cap rd (a + b) =
    ringGet m cap rd a ++ ringGet m cap (rd + a) b := by
  simp [ringGet, List.range_add, Function.comp_def, Nat.add_assoc]

/-- From the committed samples on, no further than the capacity, the ring reads as silence. -/
theorem RingInv.ringGet_free {ring : Ram} {cap rd wr level : Nat} (h : RingInv ring cap rd wr level) {n : Nat}
    (hn : n ≤ cap - level) : ringGet ring cap (rd + level) n = List.replicate n 0#32 := by
  refine List.eq_replicate_iff.2 ⟨ringGet_length _ _ _ _, fun w hw => ?_⟩
  obtain ⟨j, hj, rfl⟩ := List.mem_map.1 hw
  have hfree := h.free j (by have := List.mem_range.1 hj; omega)
  rwa [h.write, Nat.mod_add_mod] at hfree

theorem drainRequest_drainData_running {s : State} {L : Nat} (hrun : s.runState = .running) (hcap : L ≤ s.ringCap) :
    (drainRequest s L).drainData = ringGet s.ring s.ringCap s.ringRd L := by
  rcases drainRequest_cases s L with ⟨hidle, e⟩ | ⟨-, -, -, e⟩ | ⟨-, hlarge, -⟩
  · obtain rfl : L = 0 := hidle.resolve_left (not_not.2 hrun)
    rw [e]; rfl
  · rw [e]
  · omega

/-- Settles O57: the drained words are the committed samples, then the free space, which the invariant keeps at zero. -/
theorem underrunDeliversSilence : Obligations.UnderrunDeliversSilence := by
  unfold Obligations.UnderrunDeliversSilence
  intro s L hinv hrun hunder hcap
  obtain ⟨-, hcoord, -, -⟩ := (inv_iff s).1 hinv
  have hfree := (hcoord.running hrun).ringGet_free (n := L - s.ringLevel) (by omega)
  calc (drainRequest s L).drainData
      = ringGet s.ring s.ringCap s.ringRd (s.ringLevel + (L - s.ringLevel)) := by
        rw [drainRequest_drainData_running hrun hcap, Nat.add_sub_of_le hunder.le]
    _ = ringGet s.ring s.ringCap s.ringRd s.ringLevel ++ List.replicate (L - s.ringLevel) 0#32 := by
        rw [ringGet_add, hfree]

end Sys2Proof.Machine
end

section
/-! SUPPORT. What a step answers (60_exceptions.md R270 to R281): the engine's turn, the completion of a command, and
the bits of IRQ_PEND that each kind of step sets. -/

namespace Sys2Proof.Machine

/-! ## The engine's turn (60_exceptions.md R270) -/

/-- At the engine's turn the step is the engine's, with that turn taken off the schedule. -/
theorem step_of_engineTurn {s : State} (turn : EngineTurn s) : step s = engineStep s.popEvent := by
  rcases turn with hnone | hturn
  · have hpop : s.popEvent = s := by unfold State.popEvent; rw [hnone, List.tail_nil, ← hnone]
    rw [hpop, step, hnone]
  · obtain ⟨rest, hinputs⟩ := List.head?_eq_some_iff.1 hturn
    simp only [step, State.popEvent, hinputs, List.tail_cons]

/-- Settles O4: the step is the engine's by `step_of_engineTurn`, which acts as the pending word decodes. -/
theorem stepRunsDecodedCommand : Obligations.StepRunsDecodedCommand := by
  unfold Obligations.StepRunsDecodedCommand
  refine fun s => ⟨?_, fun turn => ?_⟩
  · rintro i ⟨turn, cw, hcw, hd⟩
    exact (step_of_engineTurn turn).trans (engineStep_pending_ok hcw hd)
  · have hstep := step_of_engineTurn turn
    refine ⟨hstep, fun hidle => hstep.trans (engineStep_idle hidle), fun cw hcw => ?_⟩
    have refused {e : DecodeError} (hd : decode cw = .error e) :
        step s = .next (refusedState s.popEvent (decodeErrCode e)) := hstep.trans (engineStep_pending_error hcw hd)
    exact ⟨refused, refused⟩

/-! ## Completion (60_exceptions.md R272, R273) -/

/-- Settles O8: a refused command by `runCommand_refused`, a passed one by its effect's frame and IRQ_PEND. -/
theorem everyCommandCompletes : Obligations.EveryCommandCompletes := by
  unfold Obligations.EveryCommandCompletes
  intro i s
  rw [exec_eq_runCommand]
  cases hcheck : checkOf i s with
  | some e => exact ⟨_, runCommand_refused hcheck, by simp [HostSideUnchanged], rfl⟩
  | none =>
    refine ⟨_, runCommand_passed hcheck, effect_hostSide i s, rfl, rfl, ?_⟩
    rw [completeOk_irqPend, effect_irqPend]
    split
    · exact BitVec.or_assoc _ _ _
    · rfl

theorem engineStep_answers (s : State) : ∃ t, engineStep s = .next t := by
  cases hp : s.eng with
  | idle => exact ⟨s, engineStep_idle hp⟩
  | pending cw =>
    cases hd : decode cw with
    | error e => exact ⟨_, engineStep_pending_error hp hd⟩
    | ok i =>
      obtain ⟨t, hexec, -⟩ := everyCommandCompletes i s
      exact ⟨t, (engineStep_pending_ok hp hd).trans hexec⟩

/-- Settles O6: an outside event answers by its operation, a turn of the engine by `engineStep_answers`. -/
theorem stepAlwaysAnswers : Obligations.StepAlwaysAnswers := by
  unfold Obligations.StepAlwaysAnswers
  intro s
  rcases hinputs : s.inputs with _ | ⟨e, rest⟩
  · rw [step_of_engineTurn (.inl hinputs)]
    exact engineStep_answers _
  · rw [step, hinputs]
    cases e with
    | reset => exact ⟨_, rfl⟩
    | read addr size => exact ⟨_, rfl⟩
    | write addr size v => exact ⟨_, rfl⟩
    | drain n => exact ⟨_, rfl⟩
    | engine => exact engineStep_answers _

/-! ## The events that set the bits of IRQ_PEND (60_exceptions.md R274 to R278) -/

/-- A set of IRQ_PEND bits is that of the events of a step: each bit is in it exactly when the event of its
rule occurs. -/
structure PendEvents (s t : State) (bits : BitVec 6) : Prop where
  done   : bits.getLsbD 0 = true ↔ Completes s
  err    : bits.getLsbD 1 = true ↔ Completes s ∧ t.err ≠ none
  drain  : bits.getLsbD 2 = true ↔
    (∃ n, NextEvent s (.drain n) ∧ s.runState = .running ∧ 0 < n ∧ n ≤ s.ringCap) ∨
      (Executes s .stop ∧ s.runState = .running)
  xrun   : bits.getLsbD 3 = true ↔
    ∃ n, NextEvent s (.drain n) ∧ s.runState = .running ∧ 0 < n ∧ (s.ringLevel < n ∨ s.ringCap < n)
  cmdOvf : bits.getLsbD 4 = true ↔ ∃ v, NextEvent s (.write 0x020#32 4 v) ∧ s.eng ≠ .idle
  busErr : bits.getLsbD 5 = true ↔
    ∃ addr size, (NextEvent s (.read addr size) ∨ ∃ v, NextEvent s (.write addr size v)) ∧ BusErrorAccess s addr size

/-- A step sets the bits of its events; of the others it may clear some. -/
def SetsPendByEvents (s t : State) : Prop :=
  ∃ kept bits, t.irqPend = s.irqPend &&& kept ||| bits ∧ PendEvents s t bits

theorem SetsPendByEvents.of_or {s t : State} {bits : BitVec 6} (h : t.irqPend = s.irqPend ||| bits)
    (events : PendEvents s t bits) : SetsPendByEvents s t :=
  ⟨BitVec.allOnes 6, bits, by rw [h, BitVec.and_allOnes], events⟩

theorem SetsPendByEvents.of_and {s t : State} {kept : BitVec 6} (h : t.irqPend = s.irqPend &&& kept)
    (events : PendEvents s t 0#6) : SetsPendByEvents s t :=
  ⟨kept, 0#6, by rw [h, BitVec.or_zero], events⟩

theorem SetsPendByEvents.of_unchanged {s t : State} (h : t.irqPend = s.irqPend) (events : PendEvents s t 0#6) :
    SetsPendByEvents s t :=
  .of_or (by rw [h, BitVec.or_zero]) events

/-- A bit of the set that a step adds is set after it, and a clear bit that is set after it is of that set. -/
theorem getLsbD_set_by {before after kept bits : BitVec 6} {k : Nat} {event : Prop}
    (h : after = before &&& kept ||| bits) (hk : bits.getLsbD k = true ↔ event) :
    (event → after.getLsbD k = true) ∧ (before.getLsbD k = false → after.getLsbD k = true → event) := by
  rw [← hk, h, BitVec.getLsbD_or, BitVec.getLsbD_and]
  constructor
  · intro hbit
    rw [hbit, Bool.or_true]
  · intro hclear hset
    rwa [hclear, Bool.false_and, Bool.false_or] at hset

theorem nextEvent_iff {s : State} {e : Event} (h : NextEvent s e) (e' : Event) : NextEvent s e' ↔ e = e' := by
  unfold NextEvent at *
  rw [h, Option.some.injEq]

theorem executes_iff {s : State} {cw : Word} (turn : EngineTurn s) (hcw : s.eng = .pending cw) (i : Instr) :
    Executes s i ↔ decode cw = .ok i := by
  simp [Executes, turn, hcw]

/-! ## A turn of the engine -/

/-- A turn of the engine can set DONE, ERR, and DRAIN by a STOP. -/
theorem PendEvents.of_turn {s t : State} {bits : BitVec 6} (turn : EngineTurn s)
    (done : bits.getLsbD 0 = true ↔ s.eng ≠ .idle) (err : bits.getLsbD 1 = true ↔ s.eng ≠ .idle ∧ t.err ≠ none)
    (drain : bits.getLsbD 2 = true ↔ Executes s .stop ∧ s.runState = .running)
    (outside : bits.getLsbD 3 = false ∧ bits.getLsbD 4 = false ∧ bits.getLsbD 5 = false) : PendEvents s t bits := by
  have noEvent {e : Event} (he : e ≠ .engine) : ¬ NextEvent s e := fun h => not_engineTurn_of_event h he turn
  constructor
  case done => exact done.trans (by simp [Completes, turn])
  case err => exact err.trans (by simp [Completes, turn])
  case drain => exact drain.trans (by simp [noEvent])
  all_goals simp [-BitVec.getLsbD_eq_getElem, outside, noEvent]

/-- A refused word sets DONE and ERR; it is no STOP, which is never refused. -/
theorem raiseError_setsPendByEvents {s : State} (completes : Completes s) (e : ErrCode) (hstop : ¬ Executes s .stop) :
    SetsPendByEvents s (raiseError s.popEvent e) := by
  obtain ⟨turn, hpending⟩ := completes
  exact .of_or rfl (.of_turn turn (iff_of_true rfl hpending) (iff_of_true rfl ⟨hpending, by simp⟩)
    (iff_of_false (by decide) fun ⟨h, _⟩ => hstop h) (by decide))

/-- The completion of a command that passed sets DONE, and DRAIN for a STOP. -/
theorem completeOk_setsPendByEvents {s : State} {i : Instr} (turn : EngineTurn s) {cw : Word}
    (hcw : s.eng = .pending cw) (hd : decode cw = .ok i) (visible : s.runState = .stopped ∨ s.runState = .running)
    (r0 r1 : Word) : SetsPendByEvents s (completeOk (effectOf i s.popEvent).state r0 r1) := by
  have hexec : Executes s .stop ↔ i = .stop := by simp [executes_iff turn hcw, hd]
  have hrun : s.runState ≠ .stopped ↔ s.runState = .running := by
    rcases visible with h | h <;> simp [h]
  by_cases hstop : i = .stop ∧ s.runState ≠ .stopped
  · refine .of_or (bits := pendDrain ||| pendDone) ?_ (.of_turn turn ?_ ?_ ?_ (by decide))
    · rw [completeOk_irqPend, effect_irqPend, popEvent_runState, if_pos hstop, BitVec.or_assoc, popEvent_irqPend]
    · exact iff_of_true rfl (by simp [hcw])
    · exact iff_of_false (by decide) (by simp)
    · rw [hexec, ← hrun]
      exact iff_of_true rfl hstop
  · refine .of_or (bits := pendDone) ?_ (.of_turn turn ?_ ?_ ?_ (by decide))
    · rw [completeOk_irqPend, effect_irqPend, popEvent_runState, if_neg hstop, popEvent_irqPend]
    · exact iff_of_true rfl (by simp [hcw])
    · exact iff_of_false (by decide) (by simp)
    · rw [hexec, ← hrun]
      exact iff_of_false (by decide) hstop

theorem engineStep_setsPendByEvents {s t : State} (turn : EngineTurn s) (h : engineStep s.popEvent = .next t)
    (visible : s.runState = .stopped ∨ s.runState = .running) : SetsPendByEvents s t := by
  rcases engineStep_cases h with ⟨hidle, rfl⟩ | ⟨cw, e, hcw, hd, rfl⟩ | ⟨cw, i, hcw, hd, hexec⟩
  · rw [popEvent_eng] at hidle
    refine .of_unchanged rfl (.of_turn turn ?_ ?_ ?_ (by decide))
    · simp [hidle]
    · simp [hidle]
    · simp [Executes, hidle]
  · rw [popEvent_eng] at hcw
    exact raiseError_setsPendByEvents ⟨turn, by simp [hcw]⟩ _ (by simp [executes_iff turn hcw, hd])
  · rw [popEvent_eng] at hcw
    rcases exec_cases hexec with ⟨e, hcheck, rfl⟩ | ⟨-, rfl⟩
    · refine raiseError_setsPendByEvents ⟨turn, by simp [hcw]⟩ e ?_
      rw [executes_iff turn hcw, hd]
      rintro ⟨⟩
      cases hcheck
    · exact completeOk_setsPendByEvents turn hcw hd visible _ _

/-! ## An event of the outside world -/

section
variable {s t : State} {bits : BitVec 6} {addr : BitVec 32} {size n : Nat} {v : Word}

/-- A reset sets no bit. -/
theorem PendEvents.of_reset (event : NextEvent s .reset) : PendEvents s t 0#6 := by
  have noTurn := not_engineTurn_of_event event (by simp)
  constructor
  all_goals simp [Completes, Executes, noTurn, nextEvent_iff event]

/-- A host read can set BUS_ERR. -/
theorem PendEvents.of_read (event : NextEvent s (.read addr size))
    (busErr : bits.getLsbD 5 = true ↔ BusErrorAccess s addr size) (others : ∀ k < 5, bits.getLsbD k = false) :
    PendEvents s t bits := by
  have noTurn := not_engineTurn_of_event event (by simp)
  constructor
  case busErr => exact busErr.trans (by simp [nextEvent_iff event])
  all_goals simp [-BitVec.getLsbD_eq_getElem, others, Completes, Executes, noTurn, nextEvent_iff event]

/-- A host write can set CMD_OVF and BUS_ERR. -/
theorem PendEvents.of_write (event : NextEvent s (.write addr size v))
    (cmdOvf : bits.getLsbD 4 = true ↔ (addr = 0x020#32 ∧ size = 4) ∧ s.eng ≠ .idle)
    (busErr : bits.getLsbD 5 = true ↔ BusErrorAccess s addr size)
    (others : ∀ k < 4, bits.getLsbD k = false) : PendEvents s t bits := by
  have noTurn := not_engineTurn_of_event event (by simp)
  constructor
  case cmdOvf => exact cmdOvf.trans (by simp [nextEvent_iff event, and_assoc])
  case busErr => exact busErr.trans (by simp [nextEvent_iff event])
  all_goals simp [-BitVec.getLsbD_eq_getElem, others, Completes, Executes, noTurn, nextEvent_iff event]

/-- A drain request can set DRAIN and XRUN. -/
theorem PendEvents.of_drain (event : NextEvent s (.drain n))
    (drain : bits.getLsbD 2 = true ↔ s.runState = .running ∧ 0 < n ∧ n ≤ s.ringCap)
    (xrun : bits.getLsbD 3 = true ↔ s.runState = .running ∧ 0 < n ∧ (s.ringLevel < n ∨ s.ringCap < n))
    (completion : bits.getLsbD 0 = false ∧ bits.getLsbD 1 = false)
    (access : bits.getLsbD 4 = false ∧ bits.getLsbD 5 = false) : PendEvents s t bits := by
  have noTurn := not_engineTurn_of_event event (by simp)
  constructor
  case drain => exact drain.trans (by simp [Executes, noTurn, nextEvent_iff event])
  case xrun => exact xrun.trans (by simp [nextEvent_iff event])
  all_goals simp [-BitVec.getLsbD_eq_getElem, completion, access, Completes, noTurn, nextEvent_iff event]

theorem hostRead_setsPendByEvents (event : NextEvent s (.read addr size)) :
    SetsPendByEvents s (hostRead s.popEvent addr size) := by
  rcases hostRead_cases s.popEvent addr size with ⟨hbus, h⟩ | ⟨hok, w, h⟩ <;> rw [h]
  · exact .of_or rfl (.of_read event (iff_of_true rfl hbus) (by decide))
  · exact .of_unchanged rfl (.of_read event (iff_of_false (by decide) hok) (by decide))

/-- The CMD register is in the CSR window, four bytes wide and aligned. -/
theorem not_busErrorAccess_cmd (s : State) : ¬ BusErrorAccess s 0x020#32 4 := by
  simp [BusErrorAccess]

/-- A write to another register than CMD sets no bit of IRQ_PEND. -/
theorem CsrWriteResult.irqPend_kept {r : Csr} (w : CsrWriteResult s v r t) (hr : r ≠ .cmd) :
    ∃ kept, t.irqPend = s.irqPend &&& kept := by
  cases w
  case overflow => exact absurd rfl hr
  case cleared => exact ⟨_, rfl⟩
  all_goals exact ⟨BitVec.allOnes 6, BitVec.and_allOnes.symm⟩

theorem hostWrite_cmd_setsPendByEvents (event : NextEvent s (.write 0x020#32 4 v)) :
    SetsPendByEvents s (hostWrite s.popEvent 0x020#32 4 v) := by
  by_cases hidle : s.eng = .idle
  · rw [hostWrite_cmd_idle (s := s.popEvent) v hidle]
    exact .of_unchanged rfl (.of_write event (by simp [hidle]) (by simp [not_busErrorAccess_cmd]) (by decide))
  · rw [hostWrite_cmd_pending (s := s.popEvent) v hidle]
    exact .of_or rfl (.of_write event (iff_of_true rfl ⟨⟨rfl, rfl⟩, hidle⟩)
      (iff_of_false (by decide) (not_busErrorAccess_cmd s)) (by decide))

theorem hostWrite_setsPendByEvents (event : NextEvent s (.write addr size v)) :
    SetsPendByEvents s (hostWrite s.popEvent addr size v) := by
  by_cases hcmd : addr = 0x020#32 ∧ size = 4
  · obtain ⟨rfl, rfl⟩ := hcmd
    exact hostWrite_cmd_setsPendByEvents event
  have noOverflow {bits : BitVec 6} (h : bits.getLsbD 4 = false) :
      bits.getLsbD 4 = true ↔ (addr = 0x020#32 ∧ size = 4) ∧ s.eng ≠ .idle :=
    iff_of_false (by rw [h]; decide) fun ⟨haddr, _⟩ => hcmd haddr
  rcases hostWrite_cases s.popEvent addr size v with ⟨hbus, h⟩ | ⟨hok, hcases⟩
  · rw [h]
    exact .of_or rfl (.of_write event (noOverflow (by decide)) (iff_of_true rfl hbus) (by decide))
  · have noBits {t : State} : PendEvents s t 0#6 :=
      .of_write event (noOverflow (by decide)) (iff_of_false (by decide) hok) (by decide)
    rcases hcases with ⟨r, hsize, hr, h⟩ | ⟨-, h⟩ | ⟨a, -, -, h⟩ <;> rw [h]
    · have hne : r ≠ .cmd := by
        rintro rfl
        exact hcmd ⟨addr_of_csrAt hr (off := 0x020) rfl, hsize⟩
      obtain ⟨kept, hkept⟩ := (csrWrite_result s.popEvent r v).irqPend_kept hne
      exact .of_and hkept noBits
    · exact .of_unchanged rfl noBits
    · exact .of_unchanged rfl noBits

theorem drainRequest_setsPendByEvents (event : NextEvent s (.drain n)) :
    SetsPendByEvents s (drainRequest s.popEvent n) := by
  rcases drainRequest_cases s.popEvent n with ⟨hstop, h⟩ | ⟨hrun, hpos, hcap, h⟩ | ⟨hrun, hcap, h⟩
  · have hnone : ¬ (s.runState = .running ∧ 0 < n) := fun ⟨hrun, hpos⟩ => hstop.elim (· hrun) hpos.ne'
    rw [h]
    refine .of_unchanged rfl (.of_drain event ?_ ?_ (by decide) (by decide))
    · simp [← and_assoc, hnone]
    · simp [← and_assoc, hnone]
  · rcases normalDrain_cases s.popEvent n with ⟨hlevel, hn⟩ | ⟨hunder, hn⟩ <;> rw [h, hn]
    · refine .of_or rfl (.of_drain event (iff_of_true rfl ⟨hrun, hpos, hcap⟩) (iff_of_false (by decide) ?_) (by decide)
        (by decide))
      rintro ⟨-, -, hover | hover⟩
      · exact hover.not_ge hlevel
      · exact hover.not_ge hcap
    · exact .of_or (BitVec.or_assoc _ _ _) (.of_drain event (iff_of_true rfl ⟨hrun, hpos, hcap⟩)
        (iff_of_true rfl ⟨hrun, hpos, .inl hunder⟩) (by decide) (by decide))
  · rw [h]
    exact .of_or rfl (.of_drain event (iff_of_false (by decide) fun ⟨_, _, hle⟩ => hcap.not_ge hle)
      (iff_of_true rfl ⟨hrun, Nat.zero_lt_of_lt hcap, .inr hcap⟩) (by decide) (by decide))

end

/-! ## Every step -/

theorem step_setsPendByEvents {s t : State} (h : step s = .next t)
    (visible : s.runState = .stopped ∨ s.runState = .running) : SetsPendByEvents s t := by
  rcases step_cases h with
    ⟨turn, he⟩ | ⟨event, rfl⟩ | ⟨addr, size, event, rfl⟩ | ⟨addr, size, v, event, rfl⟩ | ⟨n, event, rfl⟩
  · exact engineStep_setsPendByEvents turn he visible
  · exact .of_and (BitVec.and_zero).symm (.of_reset event)
  · exact hostRead_setsPendByEvents event
  · exact hostWrite_setsPendByEvents event
  · exact drainRequest_setsPendByEvents event

/-- Settles O23: the bits a step adds are those of its events, by `step_setsPendByEvents`. -/
theorem interruptSources : Obligations.InterruptSources := by
  unfold Obligations.InterruptSources
  intro s t h visible
  obtain ⟨kept, bits, hpend, events⟩ := step_setsPendByEvents h visible
  exact ⟨getLsbD_set_by hpend events.done, getLsbD_set_by hpend events.err, getLsbD_set_by hpend events.drain,
    getLsbD_set_by hpend events.xrun, getLsbD_set_by hpend events.cmdOvf, getLsbD_set_by hpend events.busErr⟩

end Sys2Proof.Machine
end

section
/-! SUPPORT. A pending command does not wait forever (70_reset_and_hazards.md R321): a turn of the engine, or a reset, leaves
the engine idle, and every other event takes one off the schedule. -/

namespace Sys2Proof.Machine

/-! ## One step -/

/-- A turn of the engine leaves it idle, whatever word was pending (60_exceptions.md R270). -/
theorem engineStep_leaves_idle {s t : State} (h : engineStep s = .next t) : t.eng = .idle := by
  rcases engineStep_cases h with ⟨hidle, rfl⟩ | ⟨_, _, -, -, rfl⟩ | ⟨_, _, -, -, hexec⟩
  · exact hidle
  · exact raiseError_eng _ _
  · rcases exec_cases hexec with ⟨_, -, rfl⟩ | ⟨-, rfl⟩
    · exact raiseError_eng _ _
    · exact completeOk_eng _ _ _

theorem hostRead_inputs (s : State) (addr : BitVec 32) (size : Nat) : (hostRead s addr size).inputs = s.inputs := by
  rcases hostRead_cases s addr size with ⟨-, h⟩ | ⟨-, w, h⟩ <;> rw [h]

theorem CsrWriteResult.inputs_eq {s t : State} {v : Word} {r : Csr} (w : CsrWriteResult s v r t) :
    t.inputs = s.inputs := by
  cases w <;> rfl

theorem hostWrite_inputs (s : State) (addr : BitVec 32) (size : Nat) (v : Word) :
    (hostWrite s addr size v).inputs = s.inputs := by
  rcases hostWrite_cases s addr size v with ⟨-, h⟩ | ⟨-, ⟨r, -, -, h⟩ | ⟨-, h⟩ | ⟨a, -, -, h⟩⟩ <;> rw [h]
  · exact (csrWrite_result s r v).inputs_eq
  · exact dWrite_inputs s a v

theorem drainRequest_inputs (s : State) (n : Nat) : (drainRequest s n).inputs = s.inputs := by
  obtain ⟨ring, rd, wr, level, bits, drains, xruns, ws, h⟩ := drainRequest_only s n
  rw [h]

/-- A step leaves the engine idle or takes an event off the schedule. -/
theorem step_leaves_idle_or_takes_event {s t : State} (h : step s = .next t) :
    t.eng = .idle ∨ s.inputs ≠ [] ∧ t.inputs = s.inputs.tail := by
  have scheduled {e : Event} (event : NextEvent s e) : s.inputs ≠ [] :=
    List.ne_nil_of_mem (List.mem_of_mem_head? event)
  rcases step_cases h with
    ⟨-, he⟩ | ⟨-, rfl⟩ | ⟨addr, size, event, rfl⟩ | ⟨addr, size, v, event, rfl⟩ | ⟨n, event, rfl⟩
  · exact .inl (engineStep_leaves_idle he)
  · exact .inl rfl
  · exact .inr ⟨scheduled event, hostRead_inputs _ _ _⟩
  · exact .inr ⟨scheduled event, hostWrite_inputs _ _ _ _⟩
  · exact .inr ⟨scheduled event, drainRequest_inputs _ _⟩

/-! ## The whole schedule -/

/-- From every state the engine is idle after as many steps as there are events, and one more, or sooner. -/
theorem run_reaches_idle (s : State) :
    ∃ k t, k ≤ s.inputs.length + 1 ∧ core.run k s = .next t ∧ t.eng = .idle := by
  induction hevents : s.inputs generalizing s with
  | nil =>
    obtain ⟨t, hstep⟩ := stepAlwaysAnswers s
    have hidle := (step_leaves_idle_or_takes_event hstep).resolve_right fun ⟨hne, _⟩ => hne hevents
    exact ⟨1, t, Nat.le_refl 1, run_succ 0 hstep, hidle⟩
  | cons e rest ih =>
    obtain ⟨t, hstep⟩ := stepAlwaysAnswers s
    rcases step_leaves_idle_or_takes_event hstep with hidle | ⟨-, htail⟩
    · exact ⟨1, t, Nat.le_add_left _ _, run_succ 0 hstep, hidle⟩
    · obtain ⟨k, u, hk, hrun, hidle⟩ := ih t (by rw [htail, hevents, List.tail_cons])
      exact ⟨k + 1, u, Nat.succ_le_succ hk, (run_succ k hstep).trans hrun, hidle⟩

/-- Settles O7, by `run_reaches_idle`: an induction on the events left in the schedule. -/
theorem pendingCommandCompletes : Obligations.PendingCommandCompletes := by
  unfold Obligations.PendingCommandCompletes
  exact fun s _ => run_reaches_idle s

end Sys2Proof.Machine
end

section
/-! SUPPORT. What the reset input leaves (70_reset_and_hazards.md R300, R301): the registers as after power-on, the memories
unspecified anew, and the invariant. -/

namespace Sys2Proof.Machine

/-! ## The CSR window (10_state.md R33, R35) -/

/-- An aligned offset of the CSR window reaches a register or is reserved. -/
theorem target_csrWindow {off : Nat} (hlt : off < 0x1000) (halign : off % 4 = 0) :
    (∃ r, target (BitVec.ofNat 32 off) 4 = .csr r) ∨ target (BitVec.ofNat 32 off) 4 = .reserved := by
  have hoff : (BitVec.ofNat 32 off).toNat = off := by rw [BitVec.toNat_ofNat]; omega
  cases htarget : target (BitVec.ofNat 32 off) 4 with
  | csr r => exact .inl ⟨r, rfl⟩
  | reserved => exact .inr rfl
  | dmem a =>
    obtain ⟨-, -, hwindow, -⟩ := target_dmem_window htarget
    omega
  | busError =>
    have herror := target_busError_iff.1 htarget
    omega

/-- The CSR window shows no more of the state than its registers. -/
theorem hostRead_csrWindow_congr {s t : State} (h : ∀ r, csrRead t r = csrRead s r) {off : Nat} (hlt : off < 0x1000)
    (halign : off % 4 = 0) :
    (hostRead t (BitVec.ofNat 32 off) 4).rdata = (hostRead s (BitVec.ofNat 32 off) 4).rdata := by
  rcases target_csrWindow hlt halign with ⟨r, htarget⟩ | htarget
  · simp only [hostRead, htarget, h]
  · simp only [hostRead, htarget]

/-! ## Reset -/

theorem csrRead_applyReset (s : State) (r : Csr) : csrRead (applyReset s) r = csrRead State.reset r := by
  cases r <;> rfl

@[simp] theorem applyReset_runState (s : State) : (applyReset s).runState = .stopped := rfl

/-- Nothing is pending after reset. -/
theorem irqLevel_applyReset (s : State) : irqLevel (applyReset s) = false := by
  simp [irqLevel, applyReset, State.reset]

/-- A drain request while not RUNNING returns zeros and changes nothing (43_ring.md R257). -/
theorem drainRequest_not_running {s : State} (h : s.runState ≠ .running) (n : Nat) :
    drainRequest s n = { s with drainData := List.replicate n 0#32 } := if_pos (.inl h)

theorem getElem_applyReset_argl (s : State) (k : Fin 8) : (applyReset s).argl[k] = 0#32 :=
  Vector.getElem_replicate k.isLt

/-- A word of a memory after a reset is the free word of that memory, reset and address (log 4). -/
theorem Ram.afterReset_read (id : RamId) (epoch a : Nat) :
    (Ram.afterReset id epoch).read a = Config.powerOnWord id epoch a := rfl

/-- Settles O12: the CSR window by `csrRead_applyReset`, the drain by the STOPPED coordinator, the memories by their free
words. -/
theorem resetEvent : Obligations.ResetEvent := by
  unfold Obligations.ResetEvent
  intro s
  exact ⟨rfl, getElem_applyReset_argl s, irqLevel_applyReset s,
    fun _ => hostRead_csrWindow_congr (csrRead_applyReset s), drainRequest_not_running (by simp), rfl, rfl, rfl,
    fun a => ⟨Ram.afterReset_read _ _ a, Ram.afterReset_read _ _ a, Ram.afterReset_read _ _ a⟩⟩

/-- Settles O58, part by part: canonical empty memories, an empty STOPPED ring, no reverb and no pending command. -/
theorem resetSatisfiesInv : Obligations.ResetSatisfiesInv := by
  unfold Obligations.ResetSatisfiesInv
  have hring : CoordInv State.reset := .inl ⟨rfl, rfl, rfl, rfl, rfl, rfl⟩
  have hreverb : ReverbInv State.reset := ⟨rfl, Nat.zero_le _, Nat.one_pos, fun h => absurd h (Nat.lt_irrefl 0)⟩
  exact (inv_iff _).2 ⟨rfl, hring, hreverb, cmdHeld_of_idle rfl⟩

end Sys2Proof.Machine
end
